-- ==== Sys2Proof/Word.lean ====
section
/-! DEFINITION. The widths of the ports and registers (10_state.md R32 to R34). -/
namespace Sys2Proof

/-- The 64-bit data ports and registers A, B and Y. -/
abbrev Word := BitVec 64

/-- The 16-bit registers: the command word CMDL, the masks EM and TM, and YAUX. -/
abbrev Half := BitVec 16

/-- The 8-bit registers SZA, SZB and K. -/
abbrev Octet := BitVec 8

/-- The 4-bit STATUS register. -/
abbrev StatusBits := BitVec 4

end Sys2Proof
end

