-- ==== Sys2Proof/Config.lean ====
section
/-! DEFINITION. The free values: what each operand register holds after a reset edge, which the spec leaves unspecified
(10_state.md R42, 70_reset_and_hazards.md R370, 93_implementation_defined.md U15; notes/assumptions/2.md). Each is a
constant with no body, applied to the number of reset edges seen so far, so that nothing can be proved of its value.
The implementation parameters of 00_scope.md R6 stand in Machine/Params.lean. -/
namespace Sys2Proof

/-- CMDL after a reset edge: unspecified. -/
opaque Config.cmdlAfterReset : Nat → Half
/-- A after a reset edge: unspecified. -/
opaque Config.aAfterReset : Nat → Word
/-- B after a reset edge: unspecified. -/
opaque Config.bAfterReset : Nat → Word
/-- SZA after a reset edge: unspecified. -/
opaque Config.szaAfterReset : Nat → Octet
/-- SZB after a reset edge: unspecified. -/
opaque Config.szbAfterReset : Nat → Octet
/-- K after a reset edge: unspecified. -/
opaque Config.kAfterReset : Nat → Octet
/-- EM after a reset edge: unspecified. -/
opaque Config.emAfterReset : Nat → Half
/-- TM after a reset edge: unspecified. -/
opaque Config.tmAfterReset : Nat → Half

end Sys2Proof
end

