-- ==== Sys2Proof/Syntax.lean ====
section
/-! DEFINITION. The commands of the core: one constructor per row of spec/opcode_table.json
(30_encoding.md R105). A command has no operand in its word but the field bit F (R100, R103). -/
namespace Sys2Proof

/-- The field a command works in, chosen by the F bit: F = 0 is GF(8), F = 1 is GF(16) (R3, R101). -/
inductive Field where
  | gf8
  | gf16
  deriving DecidableEq, Repr

/-- The 25 commands (30_encoding.md R105), each with its field. -/
inductive Instr where
  | gfAdd (f : Field)
  | gfMul (f : Field)
  | gfDiv (f : Field)
  | gfPow (f : Field)
  | gfInv (f : Field)
  | gfMul2 (f : Field)
  | expRd (f : Field)
  | logRd (f : Field)
  | genRd (f : Field)
  | pScale (f : Field)
  | pMul (f : Field)
  | pMulm (f : Field)
  | pMod (f : Field)
  | pEval (f : Field)
  | pDeriv (f : Field)
  | pOrder (f : Field)
  | pSize (f : Field)
  | rsEncode (f : Field)
  | rsSyndrome (f : Field)
  | rsErasloc (f : Field)
  | rsFsynd (f : Field)
  | rsBm (f : Field)
  | rsChien (f : Field)
  | rsForney (f : Field)
  | rsDecode (f : Field)
  deriving DecidableEq, Repr

end Sys2Proof
end

