-- ==== Sys2Proof/WellFormed.lean ====
section
/-! DEFINITION. Which command words are well formed (30_encoding.md R100, R102, R106). The two checks are written on
the word with masks, apart from the decoder's own field extraction, so that the two can be compared. -/
namespace Sys2Proof

/-- The reserved field RSV, bits 15:6, is 0 (R100, R102). -/
def rsvIsZero (w : Half) : Bool := (w &&& 0xFFC0#16) == 0#16

/-- OP, bits 4:0, is none of the reserved opcodes 0x00 and 0x0A to 0x0F (R106). -/
def opIsAssigned (w : Half) : Bool :=
  !([0x00#16, 0x0A#16, 0x0B#16, 0x0C#16, 0x0D#16, 0x0E#16, 0x0F#16].contains (w &&& 0x001F#16))

/-- A command word that is not illegal (R102, R106). -/
def wordWellFormed (w : Half) : Bool := rsvIsZero w && opIsAssigned w

/-- Every term of `Instr` is a legal command: its only field is F, and both values of F are legal for every row
(R101, R105). -/
def Instr.wellFormed : Instr → Bool := fun _ => true

end Sys2Proof
end

