-- ==== Sys2Proof/Decode.lean ====
section
/-! DEFINITION. The decoder and the encoder of command words (30_encoding.md R100 to R110). -/
namespace Sys2Proof

/-- Why a command word is refused; both complete with ILLEGAL_COMMAND (30_encoding.md R102, R106). -/
inductive Illegal where
  /-- RSV, bits 15:6, is not 0 (R102). -/
  | reservedField
  /-- OP is 0x00 or 0x0A to 0x0F (R106). -/
  | reservedOpcode
  deriving DecidableEq, Repr

/-- OP = bits 4:0 (R100). -/
def opField (w : Half) : BitVec 5 := w.extractLsb' 0 5

/-- F = bit 5: 0 is GF(8), 1 is GF(16) (R100, R101). -/
def fieldOf (w : Half) : Field := if w.getLsbD 5 then .gf16 else .gf8

/-- RSV = bits 15:6 (R100). -/
def rsvField (w : Half) : BitVec 10 := w.extractLsb' 6 10

/-- The opcode map (R105), with the reserved opcodes of R106. -/
def decodeOp (op : BitVec 5) (f : Field) : Except Illegal Instr :=
  match op with
  | 0x01#5 => .ok (.gfAdd f)
  | 0x02#5 => .ok (.gfMul f)
  | 0x03#5 => .ok (.gfDiv f)
  | 0x04#5 => .ok (.gfPow f)
  | 0x05#5 => .ok (.gfInv f)
  | 0x06#5 => .ok (.gfMul2 f)
  | 0x07#5 => .ok (.expRd f)
  | 0x08#5 => .ok (.logRd f)
  | 0x09#5 => .ok (.genRd f)
  | 0x10#5 => .ok (.pScale f)
  | 0x11#5 => .ok (.pMul f)
  | 0x12#5 => .ok (.pMulm f)
  | 0x13#5 => .ok (.pMod f)
  | 0x14#5 => .ok (.pEval f)
  | 0x15#5 => .ok (.pDeriv f)
  | 0x16#5 => .ok (.pOrder f)
  | 0x17#5 => .ok (.pSize f)
  | 0x18#5 => .ok (.rsEncode f)
  | 0x19#5 => .ok (.rsSyndrome f)
  | 0x1A#5 => .ok (.rsErasloc f)
  | 0x1B#5 => .ok (.rsFsynd f)
  | 0x1C#5 => .ok (.rsBm f)
  | 0x1D#5 => .ok (.rsChien f)
  | 0x1E#5 => .ok (.rsForney f)
  | 0x1F#5 => .ok (.rsDecode f)
  | _ => .error .reservedOpcode

/-- The decoder, total on every word: RSV is tested first, then OP (R110, 60_exceptions.md R336). -/
def decode (w : Half) : Except Illegal Instr :=
  if rsvField w != 0#10 then .error .reservedField
  else decodeOp (opField w) (fieldOf w)

/-- The opcode of a command (the OP column of R105). -/
def opcodeOf : Instr → BitVec 5
  | .gfAdd _ => 0x01#5
  | .gfMul _ => 0x02#5
  | .gfDiv _ => 0x03#5
  | .gfPow _ => 0x04#5
  | .gfInv _ => 0x05#5
  | .gfMul2 _ => 0x06#5
  | .expRd _ => 0x07#5
  | .logRd _ => 0x08#5
  | .genRd _ => 0x09#5
  | .pScale _ => 0x10#5
  | .pMul _ => 0x11#5
  | .pMulm _ => 0x12#5
  | .pMod _ => 0x13#5
  | .pEval _ => 0x14#5
  | .pDeriv _ => 0x15#5
  | .pOrder _ => 0x16#5
  | .pSize _ => 0x17#5
  | .rsEncode _ => 0x18#5
  | .rsSyndrome _ => 0x19#5
  | .rsErasloc _ => 0x1A#5
  | .rsFsynd _ => 0x1B#5
  | .rsBm _ => 0x1C#5
  | .rsChien _ => 0x1D#5
  | .rsForney _ => 0x1E#5
  | .rsDecode _ => 0x1F#5

/-- The field a command works in (R101). -/
def fieldOfInstr : Instr → Field
  | .gfAdd f | .gfMul f | .gfDiv f | .gfPow f | .gfInv f | .gfMul2 f | .expRd f | .logRd f | .genRd f
  | .pScale f | .pMul f | .pMulm f | .pMod f | .pEval f | .pDeriv f | .pOrder f | .pSize f
  | .rsEncode f | .rsSyndrome f | .rsErasloc f | .rsFsynd f | .rsBm f | .rsChien f | .rsForney f | .rsDecode f => f

/-- The F bit of a field (R100). -/
def fieldBit : Field → BitVec 1
  | .gf8 => 0#1
  | .gf16 => 1#1

/-- The encoder: the one word of a command, RSV = 0, F, OP (R100, R105). -/
def encode (i : Instr) : Half := 0#10 ++ fieldBit (fieldOfInstr i) ++ opcodeOf i

/-- The instruction this decoder reads from a table row's word: `w` holds `nbits` bits, numbered as
spec/opcode_table.json numbers them, every bit above them 0. -/
def decodeTableWord (nbits w : Nat) : Option Instr :=
  match decode (BitVec.ofNat 16 (w % 2 ^ nbits)) with
  | .ok i => some i
  | .error _ => none

end Sys2Proof
end

