-- ==== Sys2Proof/Machine/Flags.lean ====
section
/-! DEFINITION. The flag-like state (10_state.md R36): the STATUS codes (60_exceptions.md R330) and the bits the
commands pack into YAUX (43_decoder_stages.md R251, R256, R260). -/
namespace Sys2Proof.Machine

/-- The result kinds of a command (60_exceptions.md R330). -/
inductive Code where
  /-- 0x0 OK: Y and YAUX hold the command's result. -/
  | ok
  /-- 0x1 DIVISION_BY_ZERO: GF_DIV by 0; RS_FORNEY with a zero denominator. -/
  | divisionByZero
  /-- 0x2 BEYOND_SINGLETON_BOUND: RS_DECODE stage 1. -/
  | beyondSingletonBound
  /-- 0x3 TOO_MANY_ERRORS: RS_DECODE stage 6. -/
  | tooManyErrors
  /-- 0x4 ROOT_COUNT_MISMATCH: RS_DECODE stage 7. -/
  | rootCountMismatch
  /-- 0x5 INVALID_OPERAND: inverse, log or power of 0; degree of the zero polynomial. -/
  | invalidOperand
  /-- 0x6 PRECONDITION_VIOLATED: an operand outside its class, or a product that does not fit. -/
  | preconditionViolated
  /-- 0x7 ILLEGAL_COMMAND: a reserved opcode or a nonzero reserved field. -/
  | illegalCommand
  /-- 0xF NONE: no command has completed since reset; only reset writes it. -/
  | noneYet
  deriving DecidableEq, Repr

/-- The 4 bits of STATUS for a result kind (60_exceptions.md R330). -/
def Code.bits : Code → StatusBits
  | .ok => 0x0#4
  | .divisionByZero => 0x1#4
  | .beyondSingletonBound => 0x2#4
  | .tooManyErrors => 0x3#4
  | .rootCountMismatch => 0x4#4
  | .invalidOperand => 0x5#4
  | .preconditionViolated => 0x6#4
  | .illegalCommand => 0x7#4
  | .noneYet => 0xF#4

/-- RS_SYNDROME's YAUX: bit 0 is 1 exactly when every syndrome is zero (R251). -/
def allZeroFlag (syn : Nat) : Nat := if syn = 0 then 1 else 0

/-- RS_BM's YAUX: bits 7:0 are L, bits 15:8 are deg(C) (R256). -/
def bmAux (len deg : Nat) : Nat := ((deg % 2 ^ 8) <<< 8) ||| (len % 2 ^ 8)

end Sys2Proof.Machine
end

