-- ==== Sys2Proof/Machine/State.lean ====
section
/-! DEFINITION. The state of the core and of what the host drives at its ports (10_state.md R32 to R42), the
reasons a step can stop, and the state after reset. Plain data. -/
namespace Sys2Proof.Machine

/-- The eight operand registers, written at accept only (10_state.md R33). -/
structure OperandRegs where
  cmdl : Half
  a : Word
  b : Word
  sza : Octet
  szb : Octet
  k : Octet
  em : Half
  tm : Half
  deriving DecidableEq, Repr

/-- What the host drives at the input ports at one rising edge of clk (10_state.md R32), together with the OPEN
latency of a command accepted at that edge: `waits` = LATENCY − 1, so LATENCY ≥ 1 (70_reset_and_hazards.md R380).
`waits` is a free value held as data, any number, the model's own (notes/assumptions/3.md). -/
structure HostEdge where
  rst : Bool
  cmdValid : Bool
  cmd : Half
  opa : Word
  opb : Word
  sza : Octet
  szb : Octet
  k : Octet
  em : Half
  tm : Half
  waits : Nat
  deriving DecidableEq, Repr

/-- The observable state of 10_state.md R40, the progress of LATENCY, and the host's coming edges. -/
structure State where
  /-- BUSY: a command is accepted and not yet complete (R35). -/
  busy : Bool
  /-- DONE: the last accepted command has completed (R35). -/
  done : Bool
  /-- STATUS (R34). -/
  status : StatusBits
  /-- Y (R34). -/
  y : Word
  /-- YAUX (R34). -/
  yaux : Half
  /-- CMDL, A, B, SZA, SZB, K, EM, TM (R33). -/
  ops : OperandRegs
  /-- The model's own: how many wait edges the command in flight still has before it completes (R40, R380;
  notes/assumptions/3.md). -/
  left : Nat
  /-- The model's own: how many reset edges have passed, the index of the free values of Config
  (notes/assumptions/2.md). -/
  resets : Nat
  /-- What the host drives at the coming rising edges, the next one first (R32; notes/assumptions/4.md). -/
  host : List HostEdge
  deriving DecidableEq, Repr

/-- The reasons a step could stop the machine: there is none. Every failure of a command is a completion with a STATUS
code, "an ordinary, defined completion of the hardware, not a fault, stuck state or hang" (60_exceptions.md R345), so
no definition raises a fault. Safe: nothing is left out by it. -/
inductive Fault where
  deriving DecidableEq, Repr

/-- The reasons an instruction could be refused. -/
inductive Refusal where
  /-- Raised by `exec` alone, in the arm of an instruction that has no meaning yet; no arm does so now. Safe: the
  machine stops where the hardware goes on. -/
  | notModelled (mnemonic : String)
  deriving DecidableEq, Repr

/-- The state after reset (10_state.md R42, 70_reset_and_hazards.md R370). BUSY, DONE, STATUS, Y and YAUX are the
spec's; the operand registers are unspecified there and 0 here (DESIGN CHOICE, unsafe: notes/assumptions/1.md); `left`,
`resets` and `host` are the model's own (DESIGN CHOICE: notes/assumptions/2.md, 3.md, 4.md). -/
def State.reset : State where
  busy := false
  done := false
  status := Code.noneYet.bits
  y := 0#64
  yaux := 0#16
  ops := ⟨0#16, 0#64, 0#64, 0#8, 0#8, 0#8, 0#16, 0#16⟩
  left := 0
  resets := 0
  host := []

end Sys2Proof.Machine
end

