-- ==== Sys2Proof/Machine/Ops.lean ====
section
/-! DEFINITION. The named operations over the registers: the events of a command (10_state.md R31), the five kinds of
step (R40), reset (70_reset_and_hazards.md R370), and `ok` and `fail` (00_scope.md R11), the one way in which a command
ends and in which an exception is taken (60_exceptions.md R333, R334). There is no return from an exception (R335). -/
namespace Sys2Proof.Machine

/-- What Exec yields: (STATUS, Y, YAUX) (10_state.md R31). -/
structure Result where
  status : StatusBits
  y : Word
  yaux : Half
  deriving DecidableEq, Repr

/-- `ok(y, aux)`: STATUS <- OK, Y <- zext_64(y), YAUX <- zext_16(aux) (00_scope.md R11). -/
def Result.okAux (y aux : Nat) : Result := ⟨Code.ok.bits, BitVec.ofNat 64 y, BitVec.ofNat 16 aux⟩

/-- `ok(y)` = `ok(y, 0)` (00_scope.md R11). -/
def Result.ok (y : Nat) : Result := Result.okAux y 0

/-- `fail(Code)`: STATUS <- Code, Y <- 0, YAUX <- 0, the only form of "raise" (00_scope.md R11, 60_exceptions.md
R333). -/
def Result.fail (c : Code) : Result := ⟨c.bits, 0#64, 0#16⟩

/-- Completion: STATUS, Y and YAUX written together, BUSY <- 0, DONE <- 1, nothing else (10_state.md R31, R34). -/
def State.complete (s : State) (r : Result) : State :=
  { s with busy := false, done := true, status := r.status, y := r.y, yaux := r.yaux }

/-- A command's completion as the outcome of its meaning. -/
def State.completes (s : State) (r : Result) : Host.Outcome State Fault Refusal := .next (s.complete r)

/-- cmd_ready = NOT BUSY (10_state.md R32). -/
def State.cmdReady (s : State) : Bool := !s.busy

/-- The ports of a host that drives nothing: rst = 0, cmd_valid = 0. It stands for every edge after the end of
`State.host` (DESIGN CHOICE, safe: notes/assumptions/4.md). -/
def HostEdge.idle : HostEdge := ⟨false, false, 0#16, 0#64, 0#64, 0#8, 0#8, 0#8, 0#16, 0#16, 0⟩

/-- The input ports at the coming rising edge. -/
def State.ports (s : State) : HostEdge := s.host.headD HostEdge.idle

/-- The host's edges after the coming one. -/
def State.afterEdge (s : State) : State := { s with host := s.host.tail }

/-- Accept: the ports are copied into the operand registers, BUSY <- 1, DONE <- 0; STATUS, Y and YAUX keep their values
(10_state.md R31). The LATENCY of this command starts to run (70_reset_and_hazards.md R380). -/
def State.accept (s : State) (e : HostEdge) : State :=
  { s with
    busy := true
    done := false
    ops := ⟨e.cmd, e.opa, e.opb, e.sza, e.szb, e.k, e.em, e.tm⟩
    left := e.waits }

/-- A wait edge changes nothing that the host can observe (10_state.md R40); one edge of LATENCY has passed. -/
def State.wait (s : State) : State := { s with left := s.left - 1 }

/-- The operand registers after a reset edge: unspecified (10_state.md R42), so free values. -/
def unspecifiedOperands (n : Nat) : OperandRegs :=
  ⟨Config.cmdlAfterReset n, Config.aAfterReset n, Config.bAfterReset n, Config.szaAfterReset n,
    Config.szbAfterReset n, Config.kAfterReset n, Config.emAfterReset n, Config.tmAfterReset n⟩

/-- A reset edge: BUSY, DONE, STATUS, Y and YAUX take their reset values, a command in flight is abandoned, and the
operand registers become unspecified (70_reset_and_hazards.md R370, 10_state.md R42). -/
def State.resetEdge (s : State) : State :=
  { s with
    busy := false
    done := false
    status := Code.noneYet.bits
    y := 0#64
    yaux := 0#16
    ops := unspecifiedOperands s.resets
    left := 0
    resets := s.resets + 1 }

/-- The five kinds of step (10_state.md R40). -/
inductive StepKind where
  | reset
  | accept
  | complete
  | wait
  | idle
  deriving DecidableEq, Repr

/-- Which step the coming edge performs (10_state.md R40). Reset has priority (70_reset_and_hazards.md R370); accept
needs BUSY = 0, completion needs BUSY = 1 and LATENCY elapsed. -/
def State.stepKind (s : State) : StepKind :=
  if s.ports.rst then .reset
  else if s.busy then (if s.left = 0 then .complete else .wait)
  else if s.ports.cmdValid then .accept
  else .idle

/-- The command the core runs at completion: the one CMDL holds (30_encoding.md R110). -/
def State.command (s : State) : Except Illegal Instr := decode s.ops.cmdl

/-- The completion of an illegal command (30_encoding.md R102, R106, R110). -/
def State.completeIllegal (s : State) : Host.Outcome State Fault Refusal := s.completes (.fail .illegalCommand)

/-- `s` with the command word `w` (the low `nbits` bits) in flight and due to complete at the very next edge: CMDL holds
it, BUSY = 1, DONE = 0, its LATENCY has elapsed, and the host does not reset at that edge (notes/assumptions/7.md). -/
def State.withCommandInFlight (s : State) (nbits w : Nat) : State :=
  { s with
    busy := true
    done := false
    ops := { s.ops with cmdl := BitVec.ofNat 16 (w % 2 ^ nbits) }
    left := 0
    host := HostEdge.idle :: s.host }

end Sys2Proof.Machine
end

