-- ==== Sys2Proof/Machine/Params.lean ====
section
/-! DEFINITION. The implementation parameters of a field (00_scope.md R6). -/
namespace Sys2Proof

/-- m, the symbol (slot) width in bits. -/
def Field.m : Field → Nat
  | .gf8 => 3
  | .gf16 => 4

/-- N_m = 2^m − 1, the group order and the block length in symbols. -/
def Field.n : Field → Nat
  | .gf8 => 7
  | .gf16 => 15

/-- POLY_m, the irreducible polynomial as a bit pattern: x^3+x+1 and x^4+x+1. -/
def Field.poly : Field → Nat
  | .gf8 => 0b1011
  | .gf16 => 0b10011

/-- SLOTS_m, the number of coefficient slots of a packed polynomial. -/
def Field.slots : Field → Nat
  | .gf8 => 10
  | .gf16 => 15

/-- KMAX_m, the largest check-symbol count. -/
def Field.kmax : Field → Nat
  | .gf8 => 6
  | .gf16 => 14

/-- T_m = 2·N_m, the length of the EXP table (conflict C1). -/
def Field.t : Field → Nat
  | .gf8 => 14
  | .gf16 => 30

end Sys2Proof
end

