-- ==== Sys2Proof/Machine/Operands.lean ====
section
/-! DEFINITION. The operand classes (30_encoding.md R103), each a check on the value of a register. All values are
unsigned (00_scope.md R8). -/
namespace Sys2Proof.Machine

/-- scal: a field element, v[63:m] = 0. -/
def isScal (f : Field) (v : Nat) : Bool := v >>> f.m == 0

/-- poly: a packed polynomial of SLOTS_m slots, v[63 : SLOTS_m·m] = 0. -/
def isPoly (f : Field) (v : Nat) : Bool := v >>> (f.slots * f.m) == 0

/-- kchk: a check-symbol count, 1 ≤ v ≤ KMAX_m. -/
def isKchk (f : Field) (v : Nat) : Bool := 1 ≤ v && v ≤ f.kmax

/-- psize: a bit size in whole slots, v mod m = 0. -/
def isPsize (f : Field) (v : Nat) : Bool := v % f.m == 0

/-- rsize: the bit size of a received word, v mod m = 0 and m ≤ v ≤ N_m·m. -/
def isRsize (f : Field) (v : Nat) : Bool := v % f.m == 0 && f.m ≤ v && v ≤ f.n * f.m

/-- mask(n): a position mask over positions 0 .. n−1, v[15:n] = 0. -/
def isMask (n v : Nat) : Bool := v >>> n == 0

/-- pow8: an unsigned 8-bit exponent, v[63:8] = 0. -/
def isPow8 (v : Nat) : Bool := v >>> 8 == 0

/-- index: an EXP_m index, v < T_m. -/
def isIndex (f : Field) (v : Nat) : Bool := v < f.t

/-- "fits SZA": the received word has no bit at or above the size, v >> size = 0 (R104). -/
def fitsSize (v size : Nat) : Bool := v >>> size == 0

/-- popcount of a position mask: the 1 bits among the low `n` (00_scope.md R8). -/
def onesBelow (v : Nat) : Nat → Nat
  | 0 => 0
  | n + 1 => onesBelow v n + (if v.testBit n then 1 else 0)

/-- popcount of a 16-bit mask (00_scope.md R8). -/
def popcount (v : Nat) : Nat := onesBelow v 16

end Sys2Proof.Machine
end

