-- ==== Sys2Proof/Machine/Rom.lean ====
section
/-! DEFINITION. The six constant ROMs (20_memory.md R60 to R67). They are read only and no reset or command changes them,
so they are definitions and not state (notes/assumptions/11.md). -/
namespace Sys2Proof.Machine

/-- The contents of EXP_m (R62). -/
def expTable : Field → List Nat
  | .gf8 => [1, 2, 4, 3, 6, 7, 5, 1, 2, 4, 3, 6, 7, 5]
  | .gf16 => [1, 2, 4, 8, 3, 6, 12, 11, 5, 10, 7, 14, 15, 13, 9, 1, 2, 4, 8, 3, 6, 12, 11, 5, 10, 7, 14, 15, 13, 9]

/-- ExpRom_m(i), for i < T_m. The spec has no entry at or above T_m, and no rule forms such an index (R61); that this
gives 0 there is the model's choice (DESIGN CHOICE, safe: notes/assumptions/13.md). -/
def expRom (f : Field) (i : Nat) : Nat := (expTable f).getD i 0

/-- The contents of LOG_m (R64): `none` is the invalid entry, which holds no value (R63). -/
def logTable : Field → List (Option Nat)
  | .gf8 => [none, some 0, some 1, some 3, some 2, some 6, some 4, some 5]
  | .gf16 =>
    [none, some 0, some 1, some 4, some 2, some 8, some 5, some 10, some 3, some 14, some 9, some 7, some 6, some 13,
      some 11, some 12]

/-- LogRom_m(v): `some` the value of a valid entry, `none` for the invalid entry 0 (R63). The spec has no entry at or
above 2^m; that this gives `none` there is the model's choice (DESIGN CHOICE, safe: notes/assumptions/13.md). -/
def logRom (f : Field) (v : Nat) : Option Nat := (logTable f).getD v none

/-- The contents of GEN_m, from k = 1 on (R66). -/
def genTable : Field → List Nat
  | .gf8 => [0o12, 0o163, 0o1525, 0o13123, 0o143562, 0o1111111]
  | .gf16 =>
    [0x12, 0x168, 0x1EDC, 0x1DC87, 0x1B4621, 0x1793CAC, 0x1CDF27ED, 0x19434D6EC, 0x131D93D7A1, 0x148AC942C27,
      0x1A53AD3F368C, 0x1595814D94CD8, 0x185A439C7BDE62, 0x111111111111111]

/-- GenRom_m(k), for 1 ≤ k ≤ KMAX_m (R65). The spec has no entry 0 and none above KMAX_m (R60), and every rule checks k
first; that this gives 0 for those indices is the model's choice (DESIGN CHOICE, safe: notes/assumptions/13.md). -/
def genRom (f : Field) (k : Nat) : Nat := if k = 0 then 0 else (genTable f).getD (k - 1) 0

end Sys2Proof.Machine
end

