-- ==== Sys2Proof/Machine/Gf.lean ====
section
/-! DEFINITION. The field operations gf_add, gf_mul, gf_div, gf_pow, gf_inv and mul_by_2 on field elements
(40_field_engine.md R141 to R146), shared by the commands of every family. -/
namespace Sys2Proof.Machine

/-- gf_add: a ⊕ b (R141). -/
def gfAdd (a b : Nat) : Nat := a ^^^ b

/-- gf_mul: 0 if either operand is 0 (its LOG entry is the invalid one), else ExpRom(LogRom(a) + LogRom(b)) (R142). -/
def gfMul (f : Field) (a b : Nat) : Nat :=
  match logRom f a, logRom f b with
  | some la, some lb => expRom f (la + lb)
  | _, _ => 0

/-- gf_div: `none` when b = 0, DIVISION_BY_ZERO, tested first; 0 when a = 0; else ExpRom(LogRom(a) − LogRom(b) + N_m)
(R143, conflict C2). -/
def gfDiv (f : Field) (a b : Nat) : Option Nat :=
  match logRom f b, logRom f a with
  | none, _ => none
  | some _, none => some 0
  | some lb, some la => some (expRom f (la + f.n - lb))

/-- gf_pow: `none` when x = 0, INVALID_OPERAND; else ExpRom((LogRom(x)·p) mod T_m) (R144). -/
def gfPow (f : Field) (x p : Nat) : Option Nat :=
  (logRom f x).map fun lx => expRom f ((lx * p) % f.t)

/-- gf_inv: `none` when x = 0, INVALID_OPERAND; else ExpRom(N_m − LogRom(x)) (R145, conflict C3). -/
def gfInv (f : Field) (x : Nat) : Option Nat :=
  (logRom f x).map fun lx => expRom f (f.n - lx)

/-- mul_by_2: shift left one bit, and XOR with POLY_m if the result exceeds 2^m − 1 (R146, conflict C6). -/
def mulBy2 (f : Field) (a : Nat) : Nat :=
  if a <<< 1 > 2 ^ f.m - 1 then (a <<< 1) ^^^ f.poly else a <<< 1

end Sys2Proof.Machine
end

