-- ==== Sys2Proof/Machine/Poly.lean ====
section
/-! DEFINITION. Packed polynomials: slots, packing, degree (00_scope.md R9), and the operations of the polynomial engine
on them (41_polynomial_engine.md R179 to R187). A packed polynomial is an unbounded unsigned integer (00_scope.md R8). -/
namespace Sys2Proof.Machine

/-- slot(p, i) = p[m·i + m − 1 : m·i], the coefficient of x^i (R9). -/
def slot (f : Field) (p i : Nat) : Nat := (p >>> (f.m * i)) % 2 ^ f.m

/-- pack(g 0, …, g (n−1)) = Σ g i << (m·i) (R9). -/
def packUpTo (f : Field) (g : Nat → Nat) : Nat → Nat
  | 0 => 0
  | n + 1 => packUpTo f g n + (g n <<< (f.m * n))

/-- The XOR of g 0, …, g (n−1). -/
def xorUpTo (g : Nat → Nat) : Nat → Nat
  | 0 => 0
  | n + 1 => xorUpTo g n ^^^ g n

/-- The largest i < n with slot(p, i) ≠ 0, scanning from the top; `none` when there is none (R9, R186). -/
def degBelow (f : Field) (p : Nat) : Nat → Option Nat
  | 0 => none
  | n + 1 => if slot f p n ≠ 0 then some n else degBelow f p n

/-- deg(p) over the SLOTS_m slots; `none` is −∞, the degree of 0 (R9). -/
def deg (f : Field) (p : Nat) : Option Nat := degBelow f p f.slots

/-- scale(p, x): every slot times x (R179, R180). -/
def scale (f : Field) (p x : Nat) : Nat := packUpTo f (fun i => gfMul f (slot f p i) x) f.slots

/-- The coefficient of x^n in p·q: the XOR over i + j = n of slot(p,i)·slot(q,j) (R179). -/
def prodCoeff (f : Field) (p q n : Nat) : Nat :=
  xorUpTo (fun i => gfMul f (slot f p i) (slot f q (n - i))) (n + 1)

/-- prod(p, q), for n from 0 to 2·SLOTS_m − 2 (R179). -/
def prod (f : Field) (p q : Nat) : Nat := packUpTo f (prodCoeff f p q) (2 * f.slots - 1)

/-- force1(q): slot 0 := 1 (R182). `q AND NOT (2^m − 1)` is q with its low m bits shifted out and back in as 0. -/
def force1 (f : Field) (q : Nat) : Nat := ((q >>> f.m) <<< f.m) ||| 1

/-- lowk(v, k) = v[k·m − 1 : 0], the k low slots (43_decoder_stages.md R250). -/
def lowk (f : Field) (v k : Nat) : Nat := v % 2 ^ (k * f.m)

/-- One step of the long division at position pos: the divisor, times the top coefficient, is XORed in (R183). -/
def modStep (f : Field) (q k pos c : Nat) : Nat :=
  if slot f c pos ≠ 0 then c ^^^ (scale f q (slot f c pos) <<< ((pos - k) * f.m)) else c

/-- The division loop, for pos from t + k − 1 down to k (R183). -/
def modLoop (f : Field) (q k : Nat) : Nat → Nat → Nat
  | 0, c => c
  | t + 1, c => modLoop f q k t (modStep f q k (t + k) c)

/-- p mod q, for a monic q of degree k and t quotient slots: the k low slots of what the loop leaves (R183). -/
def polyMod (f : Field) (p t q k : Nat) : Nat := lowk f (modLoop f q k t p) k

/-- Horner's method over slots t − 1 down to 0, from the value r (R184). -/
def hornerLoop (f : Field) (p x : Nat) : Nat → Nat → Nat
  | 0, r => r
  | t + 1, r => hornerLoop f p x t (gfAdd (gfMul f r x) (slot f p t))

/-- The value at x of the t low slots of p (R184). -/
def polyEval (f : Field) (p t x : Nat) : Nat := hornerLoop f p x t 0

/-- evalall(p, x): Horner over all SLOTS_m slots (43_decoder_stages.md R250). -/
def evalall (f : Field) (p x : Nat) : Nat := polyEval f p f.slots x

/-- Slot j of the formal derivative: slot j + 1 of p for even j with j + 1 < SLOTS_m, else 0 (R185). -/
def derivCoeff (f : Field) (p j : Nat) : Nat :=
  if j % 2 = 0 ∧ j + 1 < f.slots then slot f p (j + 1) else 0

/-- The characteristic-2 formal derivative (R185). -/
def polyDeriv (f : Field) (p : Nat) : Nat := packUpTo f (derivCoeff f p) f.slots

end Sys2Proof.Machine
end

