-- ==== Sys2Proof/Machine/Rs.lean ====
section
/-! DEFINITION. The computations of the encoder and of the decoder's stages (42_encoder.md R230, 43_decoder_stages.md R250
to R262), shared by the stage commands and RS_DECODE. -/
namespace Sys2Proof.Machine

/-- The systematic codeword of a message, with k check symbols (42_encoder.md R230). -/
def encodeWord (f : Field) (message k : Nat) : Nat :=
  let shifted := (message % 2 ^ ((f.n - k) * f.m)) <<< (k * f.m)
  shifted ||| polyMod f shifted (f.n - k) (genRom f k) k

/-- α^{−j} = ExpRom(N_m − j), the locator root of position j (43_decoder_stages.md R250). -/
def locatorRoot (f : Field) (j : Nat) : Nat := expRom f (f.n - j)

/-- The syndrome loop, for i from its argument down to 1: S <- (S << m) OR R(α^i) (R251). -/
def syndromeLoop (f : Field) (r nr : Nat) : Nat → Nat → Nat
  | 0, s => s
  | i + 1, s => syndromeLoop f r nr i ((s <<< f.m) ||| polyEval f r nr (expRom f (i + 1)))

/-- The syndrome polynomial S(x), k slots (R251). -/
def syndrome (f : Field) (r nr k : Nat) : Nat := syndromeLoop f r nr k 0

/-- The product of (1 + α^i x) over the erased positions i below its argument, in ascending order (R252). -/
def erasureLocatorUpTo (f : Field) (em : Nat) : Nat → Nat
  | 0 => 1
  | i + 1 =>
    let g := erasureLocatorUpTo f em i
    if em.testBit i then g ^^^ (scale f g (expRom f i) <<< f.m) else g

/-- The erasure locator Γ(x) (R252). -/
def erasureLocator (f : Field) (em : Nat) : Nat := erasureLocatorUpTo f em f.n

/-- The errata evaluator (S(x)·Γ(x)) mod x^k, slot 0 of Γ taken as 1 (R253). -/
def errataEvaluator (f : Field) (s g k : Nat) : Nat := lowk f (prod f s (force1 f g)) k

/-- The Berlekamp-Massey registers C(x), B(x), L, b and the delay counter (R256, 10_state.md R38). -/
structure BmRegs where
  c : Nat
  bp : Nat
  len : Nat
  b : Nat
  dm : Nat
  deriving DecidableEq, Repr

/-- The initial state of the recursion (R256, decision D25). -/
def bmInit : BmRegs := ⟨1, 1, 0, 1, 0⟩

/-- The discrepancy at step n: s_n ⊕ the XOR over i = 1..L of slot(C, i)·s_{n−i} (R256). -/
def discrepancy (f : Field) (s : Nat → Nat) (n c len : Nat) : Nat :=
  s n ^^^ xorUpTo (fun i => gfMul f (slot f c (i + 1)) (s (n - (i + 1)))) len

/-- C ⊕ (scale(Bp, d/b) << (dm·m)) (R256). b is never 0 (R256), so gf_div always answers; were it to refuse, C would
stand (notes/assumptions/8.md). -/
def bmUpdate (f : Field) (r : BmRegs) (dm d : Nat) : Nat :=
  match gfDiv f d r.b with
  | some q => r.c ^^^ (scale f r.bp q <<< (dm * f.m))
  | none => r.c

/-- One step of the recursion, with the tie-break 2L ≤ n (R256, conflict C10). -/
def bmStep (f : Field) (s : Nat → Nat) (n : Nat) (r : BmRegs) : BmRegs :=
  let d := discrepancy f s n r.c r.len
  if d = 0 then { r with dm := r.dm + 1 }
  else if 2 * r.len ≤ n then ⟨bmUpdate f r (r.dm + 1) d, r.c, n + 1 - r.len, d, 0⟩
  else { r with c := bmUpdate f r (r.dm + 1) d, dm := r.dm + 1 }

/-- The registers after the steps 0 .. its argument − 1 (R256). -/
def bmAfter (f : Field) (s : Nat → Nat) : Nat → BmRegs
  | 0 => bmInit
  | n + 1 => bmStep f s n (bmAfter f s n)

/-- The recursion over the k − ρ Forney syndromes in slots ρ .. k − 1 of T (R256, decision D24). -/
def bmRun (f : Field) (t k rho : Nat) : BmRegs := bmAfter f (fun j => slot f t (rho + j)) (k - rho)

/-- Position j is eligible: transmitted and not erased (R250); j < n_r is the loop's bound. -/
def eligible (em tm j : Nat) : Bool := tm.testBit j && !em.testBit j

/-- The mask of the eligible positions below its argument at whose locator root Λ is zero (R260). -/
def chienUpTo (f : Field) (lam em tm : Nat) : Nat → Nat
  | 0 => 0
  | j + 1 =>
    let found := chienUpTo f lam em tm j
    if eligible em tm j && evalall f lam (locatorRoot f j) == 0 then found ||| (1 <<< j) else found

/-- The correction at the masked positions below its argument, in ascending order; `none`, DIVISION_BY_ZERO, when a
denominator is 0 (R262). -/
def forneyUpTo (f : Field) (omega d em : Nat) : Nat → Option Nat
  | 0 => some 0
  | j + 1 =>
    match forneyUpTo f omega d em j with
    | none => none
    | some e =>
      if em.testBit j then
        (gfDiv f (evalall f omega (locatorRoot f j)) (evalall f d (locatorRoot f j))).map
          fun v => e ||| (v <<< (j * f.m))
      else some e

/-- The packed correction E(x) from the syndromes, the errata locator and the errata mask (R262). -/
def forney (f : Field) (s psi k em : Nat) : Option Nat :=
  forneyUpTo f (errataEvaluator f s psi k) (polyDeriv f psi) em f.n

end Sys2Proof.Machine
end

