-- ==== Sys2Proof/Machine/DecoderPipeline.lean ====
section
/-! DEFINITION. The command of reed_solomon_decoder_pipeline (44_decoder_pipeline.md R300). -/
namespace Sys2Proof.Machine

/-- Stages 8 to 10: the combined mask, the errata locator, the magnitudes, and the correction (R300). The Forney
denominator is never 0 here (R303); the check is kept, as R303 allows (notes/assumptions/10.md). -/
def decodeCorrect (f : Field) (a s lam gam k comb : Nat) : Result :=
  match forney f s (prod f lam gam) k comb with
  | none => .fail .divisionByZero
  | some e => .okAux (a ^^^ e) comb

/-- Stages 3 to 7: the locators, the bound on L, the root search and the root count (R300, decision D26). -/
def decodeLocate (f : Field) (a nr k em tm s : Nat) : Result :=
  let rho := popcount em
  let gam := erasureLocator f em
  let r := bmRun f (errataEvaluator f s gam k) k rho
  let found := chienUpTo f r.c em tm nr
  if 2 * r.len > k - rho then .fail .tooManyErrors
  else if popcount found ≠ r.len then .fail .rootCountMismatch
  else decodeCorrect f a s r.c gam k (em ||| found)

/-- Stages 1 and 2: the erasure count, and the syndromes, which end the command when all are zero (R300, R302). -/
def decodeStages (f : Field) (a nr k em tm : Nat) : Result :=
  let s := syndrome f a nr k
  if popcount em > k then .fail .beyondSingletonBound
  else if s = 0 then .okAux a 0
  else decodeLocate f a nr k em tm s

/-- RS_DECODE (R300): the operand checks, then the stages in strict order. -/
def rsDecodeResult (f : Field) (o : OperandRegs) : Result :=
  let nr := o.sza.toNat / f.m
  if !isKchk f o.k.toNat then .fail .preconditionViolated
  else if !isRsize f o.sza.toNat then .fail .preconditionViolated
  else if !fitsSize o.a.toNat o.sza.toNat then .fail .preconditionViolated
  else if !(isMask nr o.em.toNat && isMask nr o.tm.toNat) then .fail .preconditionViolated
  else decodeStages f o.a.toNat nr o.k.toNat o.em.toNat o.tm.toNat

/-- The meaning of RS_DECODE. -/
def execRsDecode (f : Field) (s : State) : Host.Outcome State Fault Refusal := s.completes (rsDecodeResult f s.ops)

end Sys2Proof.Machine
end

