-- ==== Sys2Proof/Machine/DecoderStages.lean ====
section
/-! DEFINITION. The decoder stage commands (43_decoder_stages.md R251 to R262): what each one yields from the operand
registers, and its meaning. -/
namespace Sys2Proof.Machine

/-- RS_SYNDROME (R251). -/
def rsSyndromeResult (f : Field) (o : OperandRegs) : Result :=
  if !isKchk f o.k.toNat then .fail .preconditionViolated
  else if !isRsize f o.sza.toNat then .fail .preconditionViolated
  else if !fitsSize o.a.toNat o.sza.toNat then .fail .preconditionViolated
  else
    let s := syndrome f o.a.toNat (o.sza.toNat / f.m) o.k.toNat
    .okAux s (allZeroFlag s)

/-- RS_ERASLOC (R252). -/
def rsEraslocResult (f : Field) (o : OperandRegs) : Result :=
  if !isMask f.n o.em.toNat then .fail .preconditionViolated
  else if popcount o.em.toNat > f.slots - 1 then .fail .preconditionViolated
  else .okAux (erasureLocator f o.em.toNat) (popcount o.em.toNat)

/-- RS_FSYND (R253). -/
def rsFsyndResult (f : Field) (o : OperandRegs) : Result :=
  if !isKchk f o.k.toNat then .fail .preconditionViolated
  else if !(isPoly f o.a.toNat && isPoly f o.b.toNat) then .fail .preconditionViolated
  else .ok (errataEvaluator f o.a.toNat o.b.toNat o.k.toNat)

/-- RS_BM (R256). Slot 0 of C is 1 throughout, so its degree is a number: the 0 for −∞ is never taken
(notes/assumptions/8.md). -/
def rsBmResult (f : Field) (o : OperandRegs) : Result :=
  let rho := popcount o.em.toNat
  if !isKchk f o.k.toNat then .fail .preconditionViolated
  else if !(isPoly f o.a.toNat && isMask f.n o.em.toNat) then .fail .preconditionViolated
  else if rho > o.k.toNat then .fail .preconditionViolated
  else
    let r := bmRun f o.a.toNat o.k.toNat rho
    .okAux r.c (bmAux r.len ((deg f r.c).getD 0))

/-- RS_CHIEN (R260). -/
def rsChienResult (f : Field) (o : OperandRegs) : Result :=
  let nr := o.sza.toNat / f.m
  if !isPoly f o.a.toNat then .fail .preconditionViolated
  else if !isRsize f o.sza.toNat then .fail .preconditionViolated
  else if !(isMask nr o.em.toNat && isMask nr o.tm.toNat) then .fail .preconditionViolated
  else
    let found := chienUpTo f o.a.toNat o.em.toNat o.tm.toNat nr
    .okAux found (popcount found)

/-- RS_FORNEY (R262). -/
def rsForneyResult (f : Field) (o : OperandRegs) : Result :=
  if !isKchk f o.k.toNat then .fail .preconditionViolated
  else if !(isPoly f o.a.toNat && isPoly f o.b.toNat) then .fail .preconditionViolated
  else if !isRsize f o.sza.toNat then .fail .preconditionViolated
  else if !isMask (o.sza.toNat / f.m) o.em.toNat then .fail .preconditionViolated
  else match forney f o.a.toNat o.b.toNat o.k.toNat o.em.toNat with
    | none => .fail .divisionByZero
    | some e => .ok e

/-- The meaning of RS_SYNDROME. -/
def execRsSyndrome (f : Field) (s : State) : Host.Outcome State Fault Refusal := s.completes (rsSyndromeResult f s.ops)

/-- The meaning of RS_ERASLOC. -/
def execRsErasloc (f : Field) (s : State) : Host.Outcome State Fault Refusal := s.completes (rsEraslocResult f s.ops)

/-- The meaning of RS_FSYND. -/
def execRsFsynd (f : Field) (s : State) : Host.Outcome State Fault Refusal := s.completes (rsFsyndResult f s.ops)

/-- The meaning of RS_BM. -/
def execRsBm (f : Field) (s : State) : Host.Outcome State Fault Refusal := s.completes (rsBmResult f s.ops)

/-- The meaning of RS_CHIEN. -/
def execRsChien (f : Field) (s : State) : Host.Outcome State Fault Refusal := s.completes (rsChienResult f s.ops)

/-- The meaning of RS_FORNEY. -/
def execRsForney (f : Field) (s : State) : Host.Outcome State Fault Refusal := s.completes (rsForneyResult f s.ops)

end Sys2Proof.Machine
end

