-- ==== Sys2Proof/Machine/Encoder.lean ====
section
/-! DEFINITION. The command of reed_solomon_encoder (42_encoder.md R230). -/
namespace Sys2Proof.Machine

/-- RS_ENCODE (R230): the message's bits at and above (N_m − k)·m are dropped. -/
def rsEncodeResult (f : Field) (o : OperandRegs) : Result :=
  if !isKchk f o.k.toNat then .fail .preconditionViolated
  else .ok (encodeWord f o.a.toNat o.k.toNat)

/-- The meaning of RS_ENCODE. -/
def execRsEncode (f : Field) (s : State) : Host.Outcome State Fault Refusal := s.completes (rsEncodeResult f s.ops)

end Sys2Proof.Machine
end

