-- ==== Sys2Proof/Machine/FieldEngine.lean ====
section
/-! DEFINITION. The commands of gf_scalar_mult and log_exp_tables (40_field_engine.md R140 to R149): what each one yields
from the operand registers, and its meaning. -/
namespace Sys2Proof.Machine

/-- GF_ADD (R141). -/
def gfAddResult (f : Field) (o : OperandRegs) : Result :=
  if !(isScal f o.a.toNat && isScal f o.b.toNat) then .fail .preconditionViolated
  else .ok (gfAdd o.a.toNat o.b.toNat)

/-- GF_MUL (R142). -/
def gfMulResult (f : Field) (o : OperandRegs) : Result :=
  if !(isScal f o.a.toNat && isScal f o.b.toNat) then .fail .preconditionViolated
  else .ok (gfMul f o.a.toNat o.b.toNat)

/-- GF_DIV (R143). -/
def gfDivResult (f : Field) (o : OperandRegs) : Result :=
  if !(isScal f o.a.toNat && isScal f o.b.toNat) then .fail .preconditionViolated
  else match gfDiv f o.a.toNat o.b.toNat with
    | none => .fail .divisionByZero
    | some q => .ok q

/-- GF_POW (R144). -/
def gfPowResult (f : Field) (o : OperandRegs) : Result :=
  if !(isScal f o.a.toNat && isPow8 o.b.toNat) then .fail .preconditionViolated
  else match gfPow f o.a.toNat o.b.toNat with
    | none => .fail .invalidOperand
    | some v => .ok v

/-- GF_INV (R145). -/
def gfInvResult (f : Field) (o : OperandRegs) : Result :=
  if !isScal f o.a.toNat then .fail .preconditionViolated
  else match gfInv f o.a.toNat with
    | none => .fail .invalidOperand
    | some v => .ok v

/-- GF_MUL2 (R146). -/
def gfMul2Result (f : Field) (o : OperandRegs) : Result :=
  if !isScal f o.a.toNat then .fail .preconditionViolated
  else .ok (mulBy2 f o.a.toNat)

/-- EXP_RD (R147). -/
def expRdResult (f : Field) (o : OperandRegs) : Result :=
  if !isIndex f o.a.toNat then .fail .preconditionViolated
  else .ok (expRom f o.a.toNat)

/-- LOG_RD (R148). -/
def logRdResult (f : Field) (o : OperandRegs) : Result :=
  if !isScal f o.a.toNat then .fail .preconditionViolated
  else match logRom f o.a.toNat with
    | none => .fail .invalidOperand
    | some e => .ok e

/-- GEN_RD (R149). -/
def genRdResult (f : Field) (o : OperandRegs) : Result :=
  if !isKchk f o.k.toNat then .fail .preconditionViolated
  else .ok (genRom f o.k.toNat)

/-- The meaning of GF_ADD. -/
def execGfAdd (f : Field) (s : State) : Host.Outcome State Fault Refusal := s.completes (gfAddResult f s.ops)

/-- The meaning of GF_MUL. -/
def execGfMul (f : Field) (s : State) : Host.Outcome State Fault Refusal := s.completes (gfMulResult f s.ops)

/-- The meaning of GF_DIV. -/
def execGfDiv (f : Field) (s : State) : Host.Outcome State Fault Refusal := s.completes (gfDivResult f s.ops)

/-- The meaning of GF_POW. -/
def execGfPow (f : Field) (s : State) : Host.Outcome State Fault Refusal := s.completes (gfPowResult f s.ops)

/-- The meaning of GF_INV. -/
def execGfInv (f : Field) (s : State) : Host.Outcome State Fault Refusal := s.completes (gfInvResult f s.ops)

/-- The meaning of GF_MUL2. -/
def execGfMul2 (f : Field) (s : State) : Host.Outcome State Fault Refusal := s.completes (gfMul2Result f s.ops)

/-- The meaning of EXP_RD. -/
def execExpRd (f : Field) (s : State) : Host.Outcome State Fault Refusal := s.completes (expRdResult f s.ops)

/-- The meaning of LOG_RD. -/
def execLogRd (f : Field) (s : State) : Host.Outcome State Fault Refusal := s.completes (logRdResult f s.ops)

/-- The meaning of GEN_RD. -/
def execGenRd (f : Field) (s : State) : Host.Outcome State Fault Refusal := s.completes (genRdResult f s.ops)

end Sys2Proof.Machine
end

