-- ==== Sys2Proof/Machine/PolyEngine.lean ====
section
/-! DEFINITION. The commands of gf_poly_mult and gf_poly_divmod (41_polynomial_engine.md R179 to R187): what each one
yields from the operand registers, and its meaning. -/
namespace Sys2Proof.Machine

/-- P_SCALE (R180). -/
def pScaleResult (f : Field) (o : OperandRegs) : Result :=
  if !(isPoly f o.a.toNat && isScal f o.b.toNat) then .fail .preconditionViolated
  else .ok (scale f o.a.toNat o.b.toNat)

/-- `ok(r)`, unless r exceeds the container: then PRECONDITION_VIOLATED (R181, R182). -/
def fitOrFail (f : Field) (r : Nat) : Result :=
  if r >>> (f.slots * f.m) ≠ 0 then .fail .preconditionViolated else .ok r

/-- P_MUL (R181). -/
def pMulResult (f : Field) (o : OperandRegs) : Result :=
  if !(isPoly f o.a.toNat && isPoly f o.b.toNat) then .fail .preconditionViolated
  else fitOrFail f (prod f o.a.toNat o.b.toNat)

/-- P_MULM (R182). -/
def pMulmResult (f : Field) (o : OperandRegs) : Result :=
  if !(isPoly f o.a.toNat && isPoly f o.b.toNat) then .fail .preconditionViolated
  else fitOrFail f (prod f o.a.toNat (force1 f o.b.toNat))

/-- P_MOD (R183): the sizes are whole slots, t + k slots fit, the divisor is monic of degree exactly k, and the dividend
has no slot at or above t + k. -/
def pModResult (f : Field) (o : OperandRegs) : Result :=
  let t := o.sza.toNat / f.m
  let k := o.szb.toNat / f.m
  if !(isPoly f o.a.toNat && isPoly f o.b.toNat) then .fail .preconditionViolated
  else if !(isPsize f o.sza.toNat && isPsize f o.szb.toNat) then .fail .preconditionViolated
  else if t + k > f.slots then .fail .preconditionViolated
  else if slot f o.b.toNat k ≠ 1 ∨ o.b.toNat >>> ((k + 1) * f.m) ≠ 0 then .fail .preconditionViolated
  else if o.a.toNat >>> ((t + k) * f.m) ≠ 0 then .fail .preconditionViolated
  else .ok (polyMod f o.a.toNat t o.b.toNat k)

/-- P_EVAL (R184). -/
def pEvalResult (f : Field) (o : OperandRegs) : Result :=
  if !(isPoly f o.a.toNat && isScal f o.b.toNat) then .fail .preconditionViolated
  else if !isPsize f o.sza.toNat || o.sza.toNat > f.slots * f.m then .fail .preconditionViolated
  else .ok (polyEval f o.a.toNat (o.sza.toNat / f.m) o.b.toNat)

/-- P_DERIV (R185). -/
def pDerivResult (f : Field) (o : OperandRegs) : Result :=
  if !isPoly f o.a.toNat then .fail .preconditionViolated
  else .ok (polyDeriv f o.a.toNat)

/-- P_ORDER (R186). -/
def pOrderResult (f : Field) (o : OperandRegs) : Result :=
  if !isPoly f o.a.toNat then .fail .preconditionViolated
  else match deg f o.a.toNat with
    | none => .fail .invalidOperand
    | some d => .ok d

/-- P_SIZE (R187). -/
def pSizeResult (f : Field) (o : OperandRegs) : Result :=
  if !isPoly f o.a.toNat then .fail .preconditionViolated
  else match deg f o.a.toNat with
    | none => .ok 0
    | some d => .ok ((d + 1) * f.m)

/-- The meaning of P_SCALE. -/
def execPScale (f : Field) (s : State) : Host.Outcome State Fault Refusal := s.completes (pScaleResult f s.ops)

/-- The meaning of P_MUL. -/
def execPMul (f : Field) (s : State) : Host.Outcome State Fault Refusal := s.completes (pMulResult f s.ops)

/-- The meaning of P_MULM. -/
def execPMulm (f : Field) (s : State) : Host.Outcome State Fault Refusal := s.completes (pMulmResult f s.ops)

/-- The meaning of P_MOD. -/
def execPMod (f : Field) (s : State) : Host.Outcome State Fault Refusal := s.completes (pModResult f s.ops)

/-- The meaning of P_EVAL. -/
def execPEval (f : Field) (s : State) : Host.Outcome State Fault Refusal := s.completes (pEvalResult f s.ops)

/-- The meaning of P_DERIV. -/
def execPDeriv (f : Field) (s : State) : Host.Outcome State Fault Refusal := s.completes (pDerivResult f s.ops)

/-- The meaning of P_ORDER. -/
def execPOrder (f : Field) (s : State) : Host.Outcome State Fault Refusal := s.completes (pOrderResult f s.ops)

/-- The meaning of P_SIZE. -/
def execPSize (f : Field) (s : State) : Host.Outcome State Fault Refusal := s.completes (pSizeResult f s.ops)

end Sys2Proof.Machine
end

