-- ==== Sys2Proof/Machine/Dispatch.lean ====
section
/-! DEFINITION. The dispatch of Exec (30_encoding.md R110): one arm per command. -/
namespace Sys2Proof.Machine

/-- Exec of a legal command: every arm calls that command's own meaning (30_encoding.md R105, R110). -/
def exec (i : Instr) (s : State) : Host.Outcome State Fault Refusal :=
  match i with
  | .gfAdd f => Sys2Proof.Machine.execGfAdd f s
  | .gfMul f => Sys2Proof.Machine.execGfMul f s
  | .gfDiv f => Sys2Proof.Machine.execGfDiv f s
  | .gfPow f => Sys2Proof.Machine.execGfPow f s
  | .gfInv f => Sys2Proof.Machine.execGfInv f s
  | .gfMul2 f => Sys2Proof.Machine.execGfMul2 f s
  | .expRd f => Sys2Proof.Machine.execExpRd f s
  | .logRd f => Sys2Proof.Machine.execLogRd f s
  | .genRd f => Sys2Proof.Machine.execGenRd f s
  | .pScale f => Sys2Proof.Machine.execPScale f s
  | .pMul f => Sys2Proof.Machine.execPMul f s
  | .pMulm f => Sys2Proof.Machine.execPMulm f s
  | .pMod f => Sys2Proof.Machine.execPMod f s
  | .pEval f => Sys2Proof.Machine.execPEval f s
  | .pDeriv f => Sys2Proof.Machine.execPDeriv f s
  | .pOrder f => Sys2Proof.Machine.execPOrder f s
  | .pSize f => Sys2Proof.Machine.execPSize f s
  | .rsEncode f => Sys2Proof.Machine.execRsEncode f s
  | .rsSyndrome f => Sys2Proof.Machine.execRsSyndrome f s
  | .rsErasloc f => Sys2Proof.Machine.execRsErasloc f s
  | .rsFsynd f => Sys2Proof.Machine.execRsFsynd f s
  | .rsBm f => Sys2Proof.Machine.execRsBm f s
  | .rsChien f => Sys2Proof.Machine.execRsChien f s
  | .rsForney f => Sys2Proof.Machine.execRsForney f s
  | .rsDecode f => Sys2Proof.Machine.execRsDecode f s

end Sys2Proof.Machine
end

