-- ==== Sys2Proof/Machine/Step.lean ====
section
/-! DEFINITION. One step: one rising edge of clk (10_state.md R40). -/
namespace Sys2Proof.Machine

/-- The edge that ends the LATENCY of the command in flight: Exec of what CMDL holds (10_state.md R31, 30_encoding.md
R110). -/
def completeEdge (s : State) : Host.Outcome State Fault Refusal :=
  match s.command with
  | .ok i => exec i s
  | .error _ => s.completeIllegal

/-- One rising edge: exactly one of reset, accept, complete, wait and idle (10_state.md R40). The host's edge is used
up. -/
def step (s : State) : Host.Outcome State Fault Refusal :=
  match s.stepKind with
  | .reset => .next s.afterEdge.resetEdge
  | .accept => .next (s.afterEdge.accept s.ports)
  | .complete => completeEdge s.afterEdge
  | .wait => .next s.afterEdge.wait
  | .idle => .next s.afterEdge

/-- `s` with the instruction of word `w` placed where the very next step runs it: in flight, its LATENCY elapsed
(notes/assumptions/7.md). -/
def State.withFetchWord (s : State) (nbits w : Nat) : State := s.withCommandInFlight nbits w

end Sys2Proof.Machine
end

