-- ==== Sys2Proof/Safety.lean ====
section
/-! DEFINITION. The terms claims are stated in: what a completed command leaves, the invariant of the registers, the
operand classes as propositions, and the algebra a result is compared with (field elements as polynomials in α, packed
words as coefficient sequences). Nothing here is used by the machine. -/
namespace Sys2Proof.Safety

open Sys2Proof.Machine

/-! ## Completion and the registers -/

/-- `s` after a command completed with STATUS = code, Y = y and YAUX = aux: BUSY = 0, DONE = 1, and every other register
as it was (10_state.md R31, 60_exceptions.md R333). -/
def completed (s : State) (code : StatusBits) (y : Word) (aux : Half) : State :=
  { s with busy := false, done := true, status := code, y := y, yaux := aux }

/-- What always holds of the control and result registers: BUSY and DONE are never 1 together (R35); `left` is 0 while
BUSY = 0 (the model's own LATENCY counter, DESIGN CHOICE of notes/assumptions/3.md, and no rule of the spec); STATUS is one of the codes 0 to 7 or NONE (R330); DONE = 1 only with a command's code (R330); and
Y = 0 and YAUX = 0 unless STATUS is OK (R34, R42, R333). -/
abbrev Inv (s : State) : Prop :=
  ¬(s.busy = true ∧ s.done = true) ∧
  (s.busy = false → s.left = 0) ∧
  (s.status.toNat ≤ 7 ∨ s.status = 0xF#4) ∧
  (s.done = true → s.status ≠ 0xF#4) ∧
  (s.status ≠ 0x0#4 → s.y = 0#64 ∧ s.yaux = 0#16)

/-- The two command words of a mnemonic, for GF(8) and for GF(16) (30_encoding.md R105). -/
abbrev HasWords (c : Field → Instr) (w8 w16 : Half) : Prop := encode (c .gf8) = w8 ∧ encode (c .gf16) = w16

/-! ## The operand classes (30_encoding.md R103) -/

/-- scal -/
abbrev IsElement (f : Field) (v : Nat) : Prop := v < 2 ^ f.m
/-- poly -/
abbrev IsPacked (f : Field) (v : Nat) : Prop := v < 2 ^ (f.slots * f.m)
/-- kchk -/
abbrev IsCount (f : Field) (v : Nat) : Prop := 1 ≤ v ∧ v ≤ f.kmax
/-- rsize -/
abbrev IsReceivedSize (f : Field) (v : Nat) : Prop := v % f.m = 0 ∧ f.m ≤ v ∧ v ≤ f.n * f.m
/-- mask(n) -/
abbrev IsMaskBelow (n v : Nat) : Prop := v < 2 ^ n

/-- The operands RS_DECODE accepts (44_decoder_pipeline.md R300, the checks before stage 1). -/
abbrev DecodeOperands (f : Field) (o : OperandRegs) : Prop :=
  IsCount f o.k.toNat ∧ IsReceivedSize f o.sza.toNat ∧ o.a.toNat < 2 ^ o.sza.toNat ∧
  IsMaskBelow (o.sza.toNat / f.m) o.em.toNat ∧ IsMaskBelow (o.sza.toNat / f.m) o.tm.toNat

/-- The operands P_MOD accepts (41_polynomial_engine.md R183). -/
abbrev ModOperands (f : Field) (o : OperandRegs) : Prop :=
  IsPacked f o.a.toNat ∧ IsPacked f o.b.toNat ∧ o.sza.toNat % f.m = 0 ∧ o.szb.toNat % f.m = 0 ∧
  o.sza.toNat / f.m + o.szb.toNat / f.m ≤ f.slots ∧
  slot f o.b.toNat (o.szb.toNat / f.m) = 1 ∧ o.b.toNat < 2 ^ ((o.szb.toNat / f.m + 1) * f.m) ∧
  o.a.toNat < 2 ^ ((o.sza.toNat / f.m + o.szb.toNat / f.m) * f.m)

/-- The number of positions a mask names (00_scope.md R8, popcount). -/
def weight (v : Half) : Nat := ((List.range 16).filter fun j => v.getLsbD j).length

/-- The registers 30_encoding.md R104 lists for a command, in the order A, B, SZA, SZB, K, EM, TM. -/
def listed : Instr → List Bool
  | .gfAdd _ | .gfMul _ | .gfDiv _ | .gfPow _ => [true, true, false, false, false, false, false]
  | .gfInv _ | .gfMul2 _ | .expRd _ | .logRd _ => [true, false, false, false, false, false, false]
  | .genRd _ => [false, false, false, false, true, false, false]
  | .pScale _ | .pMul _ | .pMulm _ => [true, true, false, false, false, false, false]
  | .pMod _ => [true, true, true, true, false, false, false]
  | .pEval _ => [true, true, true, false, false, false, false]
  | .pDeriv _ | .pOrder _ | .pSize _ => [true, false, false, false, false, false, false]
  | .rsEncode _ => [true, false, false, false, true, false, false]
  | .rsSyndrome _ => [true, false, true, false, true, false, false]
  | .rsErasloc _ => [false, false, false, false, false, true, false]
  | .rsFsynd _ => [true, true, false, false, true, false, false]
  | .rsBm _ => [true, false, false, false, true, true, false]
  | .rsChien _ => [true, false, true, false, false, true, true]
  | .rsForney _ => [true, true, true, false, true, true, false]
  | .rsDecode _ => [true, false, true, false, true, true, true]

/-- Two settings of the operand registers that agree on every register R104 lists for the command. -/
abbrev AgreeOnListed (i : Instr) (o p : OperandRegs) : Prop :=
  ((listed i).getD 0 false = true → o.a = p.a) ∧ ((listed i).getD 1 false = true → o.b = p.b) ∧
  ((listed i).getD 2 false = true → o.sza = p.sza) ∧ ((listed i).getD 3 false = true → o.szb = p.szb) ∧
  ((listed i).getD 4 false = true → o.k = p.k) ∧ ((listed i).getD 5 false = true → o.em = p.em) ∧
  ((listed i).getD 6 false = true → o.tm = p.tm)

/-- The codes a command other than RS_DECODE can complete with (60_exceptions.md R331). -/
def codesOf : Instr → List Nat
  | .gfDiv _ | .rsForney _ => [0, 1, 6]
  | .gfPow _ | .gfInv _ | .logRd _ | .pOrder _ => [0, 5, 6]
  | .rsDecode _ => [0, 2, 3, 4, 6]
  | .gfAdd _ | .gfMul _ | .gfMul2 _ | .expRd _ | .genRd _ | .pScale _ | .pMul _ | .pMulm _ | .pMod _ | .pEval _
  | .pDeriv _ | .pSize _ | .rsEncode _ | .rsSyndrome _ | .rsErasloc _ | .rsFsynd _ | .rsBm _ | .rsChien _ => [0, 6]

/-! ## The algebra, written without the ROMs -/

/-- One doubling: a·α, reduced by POLY_m when it leaves the m bits (40_field_engine.md R146). -/
def double (f : Field) (a : Nat) : Nat := if 2 * a < 2 ^ f.m then 2 * a else 2 * a ^^^ f.poly

/-- α^j by repeated doubling from 1 (20_memory.md R61). -/
def alphaIter (f : Field) : Nat → Nat
  | 0 => 1
  | j + 1 => double f (alphaIter f j)

/-- The product of a and b as polynomials over GF(2), b having m bits. -/
def carryless (f : Field) (a b : Nat) : Nat := xorUpTo (fun j => if b.testBit j then a <<< j else 0) f.m

/-- Reduction modulo POLY_m: the bits m + n − 1 down to m are cleared from the top. -/
def reduce (f : Field) : Nat → Nat → Nat
  | 0, v => v
  | n + 1, v => reduce f n (if v.testBit (f.m + n) then v ^^^ (f.poly <<< n) else v)

/-- The product of two field elements in the polynomial basis (00_scope.md R10, 40_field_engine.md R150 "basis"). -/
def basisMul (f : Field) (a b : Nat) : Nat := reduce f (f.m - 1) (carryless f a b)

/-- x·x·…·x, p factors (40_field_engine.md R150 "power"). -/
def basisPow (f : Field) (x : Nat) : Nat → Nat
  | 0 => 1
  | p + 1 => basisMul f (basisPow f x p) x

/-- Coefficient i of g_k = (x + α^1)·…·(x + α^k) (20_memory.md R65). -/
def genCoeff (f : Field) : Nat → Nat → Nat
  | 0, i => if i = 0 then 1 else 0
  | k + 1, i => basisMul f (genCoeff f k i) (alphaIter f (k + 1)) ^^^ (if i = 0 then 0 else genCoeff f k (i - 1))

/-- Coefficient n of the product of (1 + α^i·x) over the positions i below the second-last argument that the mask names
(43_decoder_stages.md R252). -/
def locatorCoeff (f : Field) (em : Half) : Nat → Nat → Nat
  | 0, n => if n = 0 then 1 else 0
  | i + 1, n =>
    if em.getLsbD i then
      locatorCoeff f em i n ^^^ (if n = 0 then 0 else basisMul f (locatorCoeff f em i (n - 1)) (alphaIter f i))
    else locatorCoeff f em i n

/-- Coefficient n of the product of two coefficient sequences (41_polynomial_engine.md R179). -/
def conv (f : Field) (p q : Nat → Nat) (n : Nat) : Nat :=
  xorUpTo (fun i => basisMul f (p i) (q (n - i))) (n + 1)

/-- The value at x of the first t coefficients: p_0 + p_1·x + … + p_(t−1)·x^(t−1). -/
def valueAt (f : Field) (p : Nat → Nat) (t x : Nat) : Nat :=
  xorUpTo (fun i => basisMul f (p i) (basisPow f x i)) t

/-- A sequence with its coefficient 0 taken as 1 (41_polynomial_engine.md R182, force1). -/
def oneAtZero (p : Nat → Nat) : Nat → Nat := fun i => if i = 0 then 1 else p i

/-- The formal derivative in characteristic 2, cut to the container (41_polynomial_engine.md R185). -/
def derivative (f : Field) (p : Nat → Nat) : Nat → Nat :=
  fun j => if j % 2 = 0 ∧ j + 1 < f.slots then p (j + 1) else 0

/-- (S·Ψ) mod x^k with Ψ's coefficient 0 taken as 1 (43_decoder_stages.md R253, R262). -/
def evaluator (f : Field) (s psi : Nat → Nat) (k : Nat) : Nat → Nat :=
  fun n => if n < k then conv f s (oneAtZero psi) n else 0

/-- α^{−j} (00_scope.md R10). -/
def alphaInv (f : Field) (j : Nat) : Nat := alphaIter f ((f.n - j) % f.n)

/-- A word whose k syndromes over its first nr slots are all zero (42_encoder.md R231, 44_decoder_pipeline.md R306). -/
abbrev IsCodeword (f : Field) (w nr k : Nat) : Prop :=
  ∀ i : Nat, 1 ≤ i → i ≤ k → valueAt f (slot f w) nr (alphaIter f i) = 0

/-- d is the degree of the packed word p: its highest nonzero slot (00_scope.md R9). -/
abbrev HasDegree (f : Field) (p d : Nat) : Prop := slot f p d ≠ 0 ∧ ∀ i : Nat, d < i → slot f p i = 0

/-! ## The bit-parallel form of scale (41_polynomial_engine.md R188) -/

/-- TOP_m: bit m − 1 of every slot. -/
def topMask : Field → Nat
  | .gf8 => 0x24924924
  | .gf16 => 0x888888888888888

/-- Every slot times α at once. `p AND NOT H` is `p ⊕ H`, since H is a part of p. -/
def mul2Packed (f : Field) (p : Nat) : Nat :=
  let h := p &&& topMask f
  (((p ^^^ h) <<< 1) ^^^ (h >>> (f.m - 1))) ^^^ ((h >>> (f.m - 1)) <<< 1)

/-- p times each power of α below its argument. -/
def mul2PackedIter (f : Field) (p : Nat) : Nat → Nat
  | 0 => p
  | j + 1 => mul2Packed f (mul2PackedIter f p j)

/-- scale_packed(p, x). -/
def scalePacked (f : Field) (p x : Nat) : Nat :=
  xorUpTo (fun j => if x.testBit j then mul2PackedIter f p j else 0) f.m

/-! ## The host's sequence of stage commands (95_test_vectors.md P3, 44_decoder_pipeline.md R307) -/

/-- The state the core is in after running `i` on the operands `o`. -/
def ask (i : Instr) (s : State) (o : OperandRegs) : State :=
  match exec i { s with ops := o } with
  | .next t => t
  | .fault _ => s
  | .refused _ => s

/-- Program P3: the decoder as a host would run it stage by stage, with its own comparisons; (STATUS, Y, YAUX). -/
def hostDecode (f : Field) (s : State) : StatusBits × Word × Half :=
  let o := s.ops
  let rho := weight o.em
  let syn := ask (.rsSyndrome f) s o
  let gam := ask (.rsErasloc f) s o
  let ft := ask (.rsFsynd f) s { o with a := syn.y, b := gam.y }
  let bm := ask (.rsBm f) s { o with a := ft.y }
  let len := bm.yaux.toNat % 256
  let chien := ask (.rsChien f) s { o with a := bm.y }
  let comb := o.em ||| chien.y.setWidth 16
  let psi := ask (.pMul f) s { o with a := bm.y, b := gam.y }
  let corr := ask (.rsForney f) s { o with a := syn.y, b := psi.y, em := comb }
  if rho > o.k.toNat then (0x2#4, 0#64, 0#16)
  else if syn.yaux.getLsbD 0 then (0x0#4, o.a, 0#16)
  else if 2 * len > o.k.toNat - rho then (0x3#4, 0#64, 0#16)
  else if chien.yaux.toNat ≠ len then (0x4#4, 0#64, 0#16)
  else (0x0#4, o.a ^^^ corr.y, comb)

end Sys2Proof.Safety
end

