-- ==== Sys2Proof/Certificates/Slice0/Obligations.lean ====
section
/-! DEFINITION. The statements for the provers, by file of spec/. A statement marked DERIVED formalises a sentence the
spec itself marks [derived: …] or [from general knowledge], or a consequence of several rules; its docstring names the
spec's sentence. -/

open Sys2Proof Sys2Proof.Machine Sys2Proof.Safety

/-! ## 30_encoding.md -/

/-- R105: the opcode map, every row of it, for both fields, and its reserved rows; and a word is a command exactly when
its value under the mask 0xFFDF is the command's opcode, its F bit choosing the field. -/
def Obligations.OpcodeMapDecodes : Prop :=
  (decode 0x0001#16 = .ok (.gfAdd .gf8) ∧ decode 0x0021#16 = .ok (.gfAdd .gf16)) ∧
  (decode 0x0002#16 = .ok (.gfMul .gf8) ∧ decode 0x0022#16 = .ok (.gfMul .gf16)) ∧
  (decode 0x0003#16 = .ok (.gfDiv .gf8) ∧ decode 0x0023#16 = .ok (.gfDiv .gf16)) ∧
  (decode 0x0004#16 = .ok (.gfPow .gf8) ∧ decode 0x0024#16 = .ok (.gfPow .gf16)) ∧
  (decode 0x0005#16 = .ok (.gfInv .gf8) ∧ decode 0x0025#16 = .ok (.gfInv .gf16)) ∧
  (decode 0x0006#16 = .ok (.gfMul2 .gf8) ∧ decode 0x0026#16 = .ok (.gfMul2 .gf16)) ∧
  (decode 0x0007#16 = .ok (.expRd .gf8) ∧ decode 0x0027#16 = .ok (.expRd .gf16)) ∧
  (decode 0x0008#16 = .ok (.logRd .gf8) ∧ decode 0x0028#16 = .ok (.logRd .gf16)) ∧
  (decode 0x0009#16 = .ok (.genRd .gf8) ∧ decode 0x0029#16 = .ok (.genRd .gf16)) ∧
  (decode 0x0010#16 = .ok (.pScale .gf8) ∧ decode 0x0030#16 = .ok (.pScale .gf16)) ∧
  (decode 0x0011#16 = .ok (.pMul .gf8) ∧ decode 0x0031#16 = .ok (.pMul .gf16)) ∧
  (decode 0x0012#16 = .ok (.pMulm .gf8) ∧ decode 0x0032#16 = .ok (.pMulm .gf16)) ∧
  (decode 0x0013#16 = .ok (.pMod .gf8) ∧ decode 0x0033#16 = .ok (.pMod .gf16)) ∧
  (decode 0x0014#16 = .ok (.pEval .gf8) ∧ decode 0x0034#16 = .ok (.pEval .gf16)) ∧
  (decode 0x0015#16 = .ok (.pDeriv .gf8) ∧ decode 0x0035#16 = .ok (.pDeriv .gf16)) ∧
  (decode 0x0016#16 = .ok (.pOrder .gf8) ∧ decode 0x0036#16 = .ok (.pOrder .gf16)) ∧
  (decode 0x0017#16 = .ok (.pSize .gf8) ∧ decode 0x0037#16 = .ok (.pSize .gf16)) ∧
  (decode 0x0018#16 = .ok (.rsEncode .gf8) ∧ decode 0x0038#16 = .ok (.rsEncode .gf16)) ∧
  (decode 0x0019#16 = .ok (.rsSyndrome .gf8) ∧ decode 0x0039#16 = .ok (.rsSyndrome .gf16)) ∧
  (decode 0x001A#16 = .ok (.rsErasloc .gf8) ∧ decode 0x003A#16 = .ok (.rsErasloc .gf16)) ∧
  (decode 0x001B#16 = .ok (.rsFsynd .gf8) ∧ decode 0x003B#16 = .ok (.rsFsynd .gf16)) ∧
  (decode 0x001C#16 = .ok (.rsBm .gf8) ∧ decode 0x003C#16 = .ok (.rsBm .gf16)) ∧
  (decode 0x001D#16 = .ok (.rsChien .gf8) ∧ decode 0x003D#16 = .ok (.rsChien .gf16)) ∧
  (decode 0x001E#16 = .ok (.rsForney .gf8) ∧ decode 0x003E#16 = .ok (.rsForney .gf16)) ∧
  (decode 0x001F#16 = .ok (.rsDecode .gf8) ∧ decode 0x003F#16 = .ok (.rsDecode .gf16)) ∧
  (decode 0x0000#16 = .error .reservedOpcode ∧ decode 0x0020#16 = .error .reservedOpcode) ∧
  (decode 0x000A#16 = .error .reservedOpcode ∧ decode 0x002A#16 = .error .reservedOpcode) ∧
  (decode 0x000B#16 = .error .reservedOpcode ∧ decode 0x002B#16 = .error .reservedOpcode) ∧
  (decode 0x000C#16 = .error .reservedOpcode ∧ decode 0x002C#16 = .error .reservedOpcode) ∧
  (decode 0x000D#16 = .error .reservedOpcode ∧ decode 0x002D#16 = .error .reservedOpcode) ∧
  (decode 0x000E#16 = .error .reservedOpcode ∧ decode 0x002E#16 = .error .reservedOpcode) ∧
  (decode 0x000F#16 = .error .reservedOpcode ∧ decode 0x002F#16 = .error .reservedOpcode) ∧
  (∀ (w : Half) (i : Instr), decode w = .ok i ↔
    w &&& 0xFFDF#16 = (opcodeOf i).setWidth 16 ∧ fieldOfInstr i = (if w.getLsbD 5 then .gf16 else .gf8))

/-- DERIVED from 30_encoding.md sections 1 and 3: decoding an encoded command gives it back, every word that decodes is
the encoding of what it decodes to, and the words that decode are exactly the well-formed ones. -/
def Obligations.DecodeAndEncodeAgree : Prop :=
  (∀ i : Instr, i.wellFormed = true → decode (encode i) = .ok i) ∧
  (∀ (w : Half) (i : Instr), decode w = .ok i → encode i = w) ∧
  (∀ w : Half, (∃ i : Instr, decode w = .ok i) ↔ wordWellFormed w = true)

/-- R102 and R106: a word with RSV ≠ 0, whatever OP and F hold, or with a reserved opcode, in either field, is accepted like
any other word, and its completion edge writes ILLEGAL_COMMAND. -/
def Obligations.IllegalCommandsAcceptAndComplete : Prop :=
  (∀ s : State, s.ports.rst = false → s.busy = false → s.ports.cmdValid = true →
    (s.ports.cmd.toNat / 2 ^ 6 ≠ 0 ∨ s.ports.cmd.toNat % 32 ∈ [0x00, 0x0A, 0x0B, 0x0C, 0x0D, 0x0E, 0x0F]) →
    ∃ t : State, step s = .next t ∧ t.busy = true ∧ t.done = false ∧ t.ops.cmdl = s.ports.cmd) ∧
  (∀ s : State,
    (s.ops.cmdl.toNat / 2 ^ 6 ≠ 0 ∨ s.ops.cmdl.toNat % 32 ∈ [0x00, 0x0A, 0x0B, 0x0C, 0x0D, 0x0E, 0x0F]) →
    completeEdge s = .next (completed s 0x7#4 0#64 0#16))

/-- DERIVED from 30_encoding.md section 4 and 10_state.md section 1: at the edge that ends the LATENCY, a step runs the
command that CMDL decodes to, after the host's edge is used up. -/
def Obligations.StepRunsTheDecodedCommand : Prop :=
  ∀ (s : State) (i : Instr), s.ports.rst = false → s.busy = true → s.left = 0 → decode s.ops.cmdl = .ok i →
    step s = exec i s.afterEdge

/-- DERIVED from 30_encoding.md section 2 and decision D5: a command ignores every operand register R104 does not list
for it, CMDL among them, and STATUS, Y and YAUX: states that agree on the listed registers complete alike. -/
def Obligations.UnlistedOperandsAreIgnored : Prop :=
  ∀ (i : Instr) (s t : State), AgreeOnListed i s.ops t.ops →
    ∃ (code : StatusBits) (y : Word) (aux : Half),
      exec i s = .next (completed s code y aux) ∧ exec i t = .next (completed t code y aux)

/-! ## 10_state.md, 60_exceptions.md and 70_reset_and_hazards.md -/

/-- DERIVED from 10_state.md section 3 (R40) and 70_reset_and_hazards.md section 3: one edge performs exactly one of
reset, accept, complete, wait and idle, each with its effect, and what a completion writes is one function of CMDL and
the operand registers. "LATENCY elapsed" is `left = 0`, the model's own counter (log entry 3); a wait edge changes that
counter alone; after reset the operand registers are not said. -/
def Obligations.EdgePerformsOneOfFiveSteps : Prop :=
  (∀ s : State, s.ports.rst = true → ∃ (o : OperandRegs) (n : Nat), step s = .next
    { s.afterEdge with busy := false, done := false, status := 0xF#4, y := 0#64, yaux := 0#16, ops := o, left := 0,
                       resets := n }) ∧
  (∀ s : State, s.ports.rst = false → s.busy = false → s.ports.cmdValid = true → step s = .next
    { s.afterEdge with
        busy := true, done := false, left := s.ports.waits
        ops := ⟨s.ports.cmd, s.ports.opa, s.ports.opb, s.ports.sza, s.ports.szb, s.ports.k, s.ports.em, s.ports.tm⟩ }) ∧
  (∃ result : OperandRegs → StatusBits × Word × Half, ∀ s : State,
    s.ports.rst = false → s.busy = true → s.left = 0 →
    step s = completeEdge s.afterEdge ∧
    completeEdge s = .next (completed s (result s.ops).1 (result s.ops).2.1 (result s.ops).2.2)) ∧
  (∀ s : State, s.ports.rst = false → s.busy = true → s.left ≠ 0 →
    step s = .next { s.afterEdge with left := s.left - 1 }) ∧
  (∀ s : State, s.ports.rst = false → s.busy = false → s.ports.cmdValid = false → step s = .next s.afterEdge)

/-- R370: at an edge with rst = 1, whatever the state and whatever cmd_valid, BUSY = 0, DONE = 0, STATUS = 0xF, Y = 0 and
YAUX = 0, the values of `State.reset`, and cmd_ready = 1; nothing is said of the operand registers. -/
def Obligations.ResetGivesTheResetValues : Prop :=
  (State.reset.busy = false ∧ State.reset.done = false ∧ State.reset.status = 0xF#4 ∧ State.reset.y = 0#64 ∧
    State.reset.yaux = 0#16 ∧ State.reset.cmdReady = true) ∧
  (∀ s : State, s.ports.rst = true → ∃ t : State, step s = .next t ∧ t.busy = false ∧ t.done = false ∧
    t.status = 0xF#4 ∧ t.y = 0#64 ∧ t.yaux = 0#16 ∧ t.cmdReady = true)

/-- R374: the inputs are sampled at the accept edge only. While BUSY = 1, or with no offer, two edges that agree on rst
(and on cmd_valid = 0) do the same, whatever else the ports carry. -/
def Obligations.InputsAreSampledOnlyAtAccept : Prop :=
  (∀ (s : State) (e e' : HostEdge) (rest : List HostEdge), s.busy = true → e.rst = e'.rst →
    step { s with host := e :: rest } = step { s with host := e' :: rest }) ∧
  (∀ (s : State) (e e' : HostEdge) (rest : List HostEdge), e.rst = e'.rst → e.cmdValid = false → e'.cmdValid = false →
    step { s with host := e :: rest } = step { s with host := e' :: rest })

/-- R375: after an edge that leaves BUSY = 1, STATUS, Y and YAUX show what they showed before it; and once DONE = 1 they
stay until the next accept or reset. -/
def Obligations.ResultsStayUntilCompletionOrReset : Prop :=
  (∀ s t : State, step s = .next t → t.busy = true → t.status = s.status ∧ t.y = s.y ∧ t.yaux = s.yaux) ∧
  (∀ s t : State, step s = .next t → s.busy = false → s.done = true → s.ports.rst = false →
    s.ports.cmdValid = false → t.done = true ∧ t.status = s.status ∧ t.y = s.y ∧ t.yaux = s.yaux)

/-- R376: an offer at an edge with BUSY = 1 accepts nothing: cmd_ready = 0, the operand registers keep the command in
flight, and the edge does what it does with no offer; but for a reset, that command is still in flight after the edge, or
has completed. -/
def Obligations.OffersWhileBusyAcceptNothing : Prop :=
  ∀ (s : State) (e : HostEdge) (rest : List HostEdge), s.busy = true → e.cmdValid = true → e.rst = false →
    s.cmdReady = false ∧
    step { s with host := e :: rest } = step { s with host := HostEdge.idle :: rest } ∧
    ∃ t : State, step { s with host := e :: rest } = .next t ∧ t.ops = s.ops ∧ t.host = rest ∧
      ((t.busy = true ∧ t.done = s.done) ∨ (t.busy = false ∧ t.done = true))

/-- DERIVED from 10_state.md section 1 and 70_reset_and_hazards.md sections 2 and 3: a command accepted with LATENCY =
waits + 1, with no reset in that time, keeps the core busy, with the results of the command before, at every edge up to
its LATENCY, and the edge that ends its LATENCY runs it; offers made meanwhile do nothing. -/
def Obligations.AcceptedCommandCompletesAfterItsLatency : Prop :=
  ∀ s : State, s.busy = false → s.ports.rst = false → s.ports.cmdValid = true →
    (∀ e ∈ s.host.take (s.ports.waits + 2), e.rst = false) →
    (∀ k : Nat, k ≤ s.ports.waits → ∃ t : State, core.run (k + 1) s = .next t ∧ t.busy = true ∧ t.done = false ∧
      t.status = s.status ∧ t.y = s.y ∧ t.yaux = s.yaux) ∧
    (∀ i : Instr, decode s.ports.cmd = .ok i → core.run (s.ports.waits + 2) s = exec i
      { s with
          busy := true, done := false, left := 0, host := s.host.drop (s.ports.waits + 2)
          ops := ⟨s.ports.cmd, s.ports.opa, s.ports.opb, s.ports.sza, s.ports.szb, s.ports.k, s.ports.em, s.ports.tm⟩ })

/-- DERIVED from 10_state.md section 3 ("Exec is total") and 60_exceptions.md section 6: no state stops the machine. -/
def Obligations.EveryStepAnswersANextState : Prop :=
  ∀ s : State, ∃ t : State, step s = .next t

/-- DERIVED from 10_state.md section 2, 30_encoding.md section 4 and 60_exceptions.md sections 1 and 2: every step keeps
the invariant of the control and result registers, from every state that has it. Its clause that `left` is 0 while
BUSY = 0 is about the model's own LATENCY counter, the model's choice of log entry 3, and no rule of the spec. -/
def Obligations.StepKeepsTheRegisterInvariant : Prop :=
  ∀ s t : State, Inv s → step s = .next t → Inv t

/-- DERIVED from 10_state.md section 4: the state after reset has the invariant. That `left` is 0 there is the model's
choice of log entry 3, its own LATENCY counter, and no rule of the spec. -/
def Obligations.ResetHasTheRegisterInvariant : Prop := Inv State.reset

/-- R333: a completion, of a command or of an illegal word, writes STATUS, Y and YAUX, clears BUSY and sets DONE, and
changes nothing else; after a failure Y = 0 and YAUX = 0; and the core is ready for the next command. The frame of all
25 commands. -/
def Obligations.CommandsChangeOnlyTheResultRegisters : Prop :=
  ∀ s t : State, ((∃ i : Instr, exec i s = .next t) ∨ completeEdge s = .next t) →
    t.ops = s.ops ∧ t.left = s.left ∧ t.resets = s.resets ∧ t.host = s.host ∧ t.busy = false ∧ t.done = true ∧
    t.cmdReady = true ∧ (t.status ≠ 0x0#4 → t.y = 0#64 ∧ t.yaux = 0#16)

/-- DERIVED from 60_exceptions.md section 1 (R331, marked [derived]): the codes each command but RS_DECODE can complete
with. -/
def Obligations.CompletionCodesOfTheOtherCommands : Prop :=
  ∀ (i : Instr) (s t : State), (∀ f : Field, i ≠ .rsDecode f) → exec i s = .next t → t.status.toNat ∈ codesOf i

/-- DERIVED from 44_decoder_pipeline.md section 2 ("RS_FORNEY's DIVISION_BY_ZERO cannot occur") and 60_exceptions.md
section 1: RS_DECODE never completes with DIVISION_BY_ZERO, only with OK, the three decode failures and
PRECONDITION_VIOLATED. -/
def Obligations.DecodeNeverDividesByZero : Prop :=
  ∀ (f : Field) (s t : State), exec (.rsDecode f) s = .next t → t.status.toNat ∈ codesOf (.rsDecode f)

/-! ## 20_memory.md -/

/-- R61, R63 and R65: EXP_m holds the powers of α, twice over; LOG_m holds, for each nonzero element, the one exponent
below N_m, and no valid entry for 0; GEN_m holds the products (x + α^1)·…·(x + α^k), monic of degree k, with nothing
above slot k. -/
def Obligations.RomsHoldTheirContents : Prop :=
  (∀ f : Field, f.t = 2 * f.n ∧ ∀ i : Nat, i < f.t → expRom f i = alphaIter f (i % f.n)) ∧
  (∀ (f : Field) (v : Nat), 1 ≤ v → v ≤ 2 ^ f.m - 1 →
    ∃ e : Nat, logRom f v = some e ∧ e < f.n ∧ expRom f e = v ∧ ∀ d : Nat, d < f.n → expRom f d = v → d = e) ∧
  (∀ f : Field, logRom f 0 = none) ∧
  (∀ (f : Field) (k : Nat), IsCount f k →
    slot f (genRom f k) k = 1 ∧ genRom f k < 2 ^ ((k + 1) * f.m) ∧
    ∀ i : Nat, i ≤ k → slot f (genRom f k) i = genCoeff f k i)

/-! ## 40_field_engine.md -/

/-- R141: GF_ADD. -/
def Obligations.GfAddXorsTheElements : Prop :=
  HasWords .gfAdd 0x0001#16 0x0021#16 ∧
  ∀ (f : Field) (s : State), exec (.gfAdd f) s = .next
    (if IsElement f s.ops.a.toNat ∧ IsElement f s.ops.b.toNat then completed s 0x0#4 (s.ops.a ^^^ s.ops.b) 0#16
     else completed s 0x6#4 0#64 0#16)

/-- R142: GF_MUL of 0 and an element is 0; of α^i and α^j it is α^(i + j), an index of at most
2·N_m − 2. -/
def Obligations.GfMulAddsTheLogarithms : Prop :=
  HasWords .gfMul 0x0002#16 0x0022#16 ∧
  (∀ (f : Field) (s : State), IsElement f s.ops.a.toNat → IsElement f s.ops.b.toNat →
    s.ops.a = 0#64 ∨ s.ops.b = 0#64 → exec (.gfMul f) s = .next (completed s 0x0#4 0#64 0#16)) ∧
  (∀ (f : Field) (s : State) (i j : Nat), i < f.n → j < f.n → s.ops.a.toNat = alphaIter f i →
    s.ops.b.toNat = alphaIter f j →
    i + j ≤ 2 * f.n - 2 ∧ exec (.gfMul f) s = .next (completed s 0x0#4 (BitVec.ofNat 64 (alphaIter f (i + j))) 0#16)) ∧
  (∀ (f : Field) (s : State), ¬(IsElement f s.ops.a.toNat ∧ IsElement f s.ops.b.toNat) →
    exec (.gfMul f) s = .next (completed s 0x6#4 0#64 0#16))

/-- DERIVED from 40_field_engine.md section 4 ("basis"): GF_MUL gives the product of the operands as polynomials in α,
reduced modulo POLY_m, and refuses operands that are no field elements. -/
def Obligations.GfMulIsTheBasisProduct : Prop :=
  HasWords .gfMul 0x0002#16 0x0022#16 ∧
  ∀ (f : Field) (s : State), exec (.gfMul f) s = .next
    (if IsElement f s.ops.a.toNat ∧ IsElement f s.ops.b.toNat then
      completed s 0x0#4 (BitVec.ofNat 64 (basisMul f s.ops.a.toNat s.ops.b.toNat)) 0#16
     else completed s 0x6#4 0#64 0#16)

/-- R143: GF_DIV by 0 fails DIVISION_BY_ZERO, whatever the dividend; 0 divided by any other element is 0; and α^i divided
by α^j is α^(i − j + N_m), an index inside the table. -/
def Obligations.GfDivSubtractsTheLogarithms : Prop :=
  HasWords .gfDiv 0x0003#16 0x0023#16 ∧
  (∀ (f : Field) (s : State), IsElement f s.ops.a.toNat → s.ops.b = 0#64 →
    exec (.gfDiv f) s = .next (completed s 0x1#4 0#64 0#16)) ∧
  (∀ (f : Field) (s : State), s.ops.a = 0#64 → IsElement f s.ops.b.toNat → s.ops.b ≠ 0#64 →
    exec (.gfDiv f) s = .next (completed s 0x0#4 0#64 0#16)) ∧
  (∀ (f : Field) (s : State) (i j : Nat), i < f.n → j < f.n → s.ops.a.toNat = alphaIter f i →
    s.ops.b.toNat = alphaIter f j →
    i + f.n - j < f.t ∧
      exec (.gfDiv f) s = .next (completed s 0x0#4 (BitVec.ofNat 64 (alphaIter f (i + f.n - j))) 0#16)) ∧
  (∀ (f : Field) (s : State), ¬(IsElement f s.ops.a.toNat ∧ IsElement f s.ops.b.toNat) →
    exec (.gfDiv f) s = .next (completed s 0x6#4 0#64 0#16))

/-- DERIVED from 40_field_engine.md sections 2 and 4 ("division"): GF_DIV gives the one element whose product with the
divisor is the dividend; b = 0 fails DIVISION_BY_ZERO, whatever a; the operand check comes first. -/
def Obligations.GfDivGivesTheQuotient : Prop :=
  HasWords .gfDiv 0x0003#16 0x0023#16 ∧
  (∀ (f : Field) (s : State), IsElement f s.ops.a.toNat → IsElement f s.ops.b.toNat → s.ops.b ≠ 0#64 →
    ∃ q : Word, exec (.gfDiv f) s = .next (completed s 0x0#4 q 0#16) ∧ IsElement f q.toNat ∧
      basisMul f q.toNat s.ops.b.toNat = s.ops.a.toNat) ∧
  (∀ (f : Field) (s : State), IsElement f s.ops.a.toNat → s.ops.b = 0#64 →
    exec (.gfDiv f) s = .next (completed s 0x1#4 0#64 0#16)) ∧
  (∀ (f : Field) (s : State), ¬(IsElement f s.ops.a.toNat ∧ IsElement f s.ops.b.toNat) →
    exec (.gfDiv f) s = .next (completed s 0x6#4 0#64 0#16))

/-- DERIVED from 40_field_engine.md section 2 (R144; its sentence "Reducing mod T_m = 2·N_m gives α^{log x · p}" is marked
[derived: from R61]): GF_POW of α^i and p is α^(i·p mod T_m), which is α^(i·p), for every 8-bit p; of 0 it fails
INVALID_OPERAND, whatever the power. -/
def Obligations.GfPowMultipliesTheLogarithm : Prop :=
  HasWords .gfPow 0x0004#16 0x0024#16 ∧
  (∀ (f : Field) (s : State), s.ops.a = 0#64 → s.ops.b.toNat < 256 →
    exec (.gfPow f) s = .next (completed s 0x5#4 0#64 0#16)) ∧
  (∀ (f : Field) (s : State) (i : Nat), i < f.n → s.ops.a.toNat = alphaIter f i → s.ops.b.toNat < 256 →
    alphaIter f (i * s.ops.b.toNat % f.t) = alphaIter f (i * s.ops.b.toNat) ∧
    exec (.gfPow f) s =
      .next (completed s 0x0#4 (BitVec.ofNat 64 (alphaIter f (i * s.ops.b.toNat % f.t))) 0#16)) ∧
  (∀ (f : Field) (s : State), ¬(IsElement f s.ops.a.toNat ∧ s.ops.b.toNat < 256) →
    exec (.gfPow f) s = .next (completed s 0x6#4 0#64 0#16))

/-- DERIVED from 40_field_engine.md sections 2 and 4 ("power"): GF_POW gives x·x·…·x (power factors) for x ≠ 0, for every
8-bit power; x = 0 fails INVALID_OPERAND, power 0 included. -/
def Obligations.GfPowMultipliesOut : Prop :=
  HasWords .gfPow 0x0004#16 0x0024#16 ∧
  ∀ (f : Field) (s : State), exec (.gfPow f) s = .next
    (if ¬(IsElement f s.ops.a.toNat ∧ s.ops.b.toNat < 256) then completed s 0x6#4 0#64 0#16
     else if s.ops.a = 0#64 then completed s 0x5#4 0#64 0#16
     else completed s 0x0#4 (BitVec.ofNat 64 (basisPow f s.ops.a.toNat s.ops.b.toNat)) 0#16)

/-- R145: GF_INV of α^i is α^(N_m − i), an index inside the table, and of 1 it is 1; of 0 it fails INVALID_OPERAND. -/
def Obligations.GfInvNegatesTheLogarithm : Prop :=
  HasWords .gfInv 0x0005#16 0x0025#16 ∧
  (∀ (f : Field) (s : State), s.ops.a = 0#64 → exec (.gfInv f) s = .next (completed s 0x5#4 0#64 0#16)) ∧
  (∀ (f : Field) (s : State) (i : Nat), i < f.n → s.ops.a.toNat = alphaIter f i →
    f.n - i < f.t ∧ exec (.gfInv f) s = .next (completed s 0x0#4 (BitVec.ofNat 64 (alphaIter f (f.n - i))) 0#16)) ∧
  (∀ (f : Field) (s : State), s.ops.a = 1#64 → exec (.gfInv f) s = .next (completed s 0x0#4 1#64 0#16)) ∧
  (∀ (f : Field) (s : State), ¬IsElement f s.ops.a.toNat → exec (.gfInv f) s = .next (completed s 0x6#4 0#64 0#16))

/-- DERIVED from 40_field_engine.md sections 2 and 4 ("inverse"): GF_INV gives the one element whose product with x is 1;
x = 0 fails INVALID_OPERAND. -/
def Obligations.GfInvGivesTheInverse : Prop :=
  HasWords .gfInv 0x0005#16 0x0025#16 ∧
  (∀ (f : Field) (s : State), IsElement f s.ops.a.toNat → s.ops.a ≠ 0#64 →
    ∃ v : Word, exec (.gfInv f) s = .next (completed s 0x0#4 v 0#16) ∧ IsElement f v.toNat ∧
      basisMul f s.ops.a.toNat v.toNat = 1) ∧
  (∀ (f : Field) (s : State), s.ops.a = 0#64 → exec (.gfInv f) s = .next (completed s 0x5#4 0#64 0#16)) ∧
  (∀ (f : Field) (s : State), ¬IsElement f s.ops.a.toNat → exec (.gfInv f) s = .next (completed s 0x6#4 0#64 0#16))

/-- DERIVED from 40_field_engine.md section 2 (R146; its sentence "mul_by_2(a) = gf_mul(a, 2) for every a" is marked
[derived: from R61 and R142]): GF_MUL2 shifts left one bit and XORs POLY_m in when the result exceeds 2^m − 1; that is
the product with 2. -/
def Obligations.GfMul2Doubles : Prop :=
  HasWords .gfMul2 0x0006#16 0x0026#16 ∧
  (∀ (f : Field) (s : State), exec (.gfMul2 f) s = .next
    (if ¬IsElement f s.ops.a.toNat then completed s 0x6#4 0#64 0#16
     else if 2 * s.ops.a.toNat > 2 ^ f.m - 1 then
      completed s 0x0#4 (BitVec.ofNat 64 (2 * s.ops.a.toNat ^^^ f.poly)) 0#16
     else completed s 0x0#4 (BitVec.ofNat 64 (2 * s.ops.a.toNat)) 0#16)) ∧
  (∀ (f : Field) (a : Nat), IsElement f a →
    gfMul f a 2 = if 2 * a > 2 ^ f.m - 1 then 2 * a ^^^ f.poly else 2 * a)

/-- R147: EXP_RD gives ExpRom_m(i), which is α^i, i doublings of 1, for every index below T_m, and refuses every other;
the entries are never 0 and repeat after N_m. -/
def Obligations.ExpRdReadsThePowersOfAlpha : Prop :=
  HasWords .expRd 0x0007#16 0x0027#16 ∧
  (∀ (f : Field) (s : State), exec (.expRd f) s = .next
    (if s.ops.a.toNat < f.t then completed s 0x0#4 (BitVec.ofNat 64 (alphaIter f s.ops.a.toNat)) 0#16
     else completed s 0x6#4 0#64 0#16)) ∧
  (∀ (f : Field) (i : Nat), i < f.t → expRom f i = alphaIter f i ∧ expRom f i ≠ 0) ∧
  (∀ (f : Field) (i : Nat), i < f.n → expRom f (i + f.n) = expRom f i)

/-- R148: LOG_RD gives the one exponent below N_m whose power of α is v; v = 0 fails INVALID_OPERAND. -/
def Obligations.LogRdInvertsThePowersOfAlpha : Prop :=
  HasWords .logRd 0x0008#16 0x0028#16 ∧
  (∀ (f : Field) (s : State), IsElement f s.ops.a.toNat → s.ops.a ≠ 0#64 →
    ∃ e : Word, exec (.logRd f) s = .next (completed s 0x0#4 e 0#16) ∧ e.toNat < f.n ∧
      alphaIter f e.toNat = s.ops.a.toNat) ∧
  (∀ (f : Field) (s : State), s.ops.a = 0#64 → exec (.logRd f) s = .next (completed s 0x5#4 0#64 0#16)) ∧
  (∀ (f : Field) (s : State), ¬IsElement f s.ops.a.toNat → exec (.logRd f) s = .next (completed s 0x6#4 0#64 0#16))

/-- DERIVED from 40_field_engine.md section 3 (R149; its sentence "g_k is monic of degree k, with slot k = 1 and slot 0 =
α^{k(k+1)/2} ≠ 0" is marked [derived: from R65]): GEN_RD gives (x + α^1)·…·(x + α^k), packed: slot k is 1, slot 0 is
α^(k(k+1)/2), and nothing stands above slot k; other k are refused. -/
def Obligations.GenRdReadsTheGeneratorProduct : Prop :=
  HasWords .genRd 0x0009#16 0x0029#16 ∧
  (∀ (f : Field) (s : State), IsCount f s.ops.k.toNat →
    ∃ y : Word, exec (.genRd f) s = .next (completed s 0x0#4 y 0#16) ∧
      y.toNat < 2 ^ ((s.ops.k.toNat + 1) * f.m) ∧ slot f y.toNat s.ops.k.toNat = 1 ∧
      slot f y.toNat 0 = alphaIter f (s.ops.k.toNat * (s.ops.k.toNat + 1) / 2) ∧ slot f y.toNat 0 ≠ 0 ∧
      ∀ i : Nat, i ≤ s.ops.k.toNat → slot f y.toNat i = genCoeff f s.ops.k.toNat i) ∧
  (∀ (f : Field) (s : State), ¬IsCount f s.ops.k.toNat → exec (.genRd f) s = .next (completed s 0x6#4 0#64 0#16))

/-- DERIVED from 40_field_engine.md section 4 (R150, marked [derived]), row by row: the additive group, the
multiplicative group, distributivity, division, inverse, power and closure. (Its row "basis" is `GfMulIsTheBasisProduct`.) -/
def Obligations.FieldLawsHold : Prop :=
  (∀ (f : Field) (a b c : Nat), IsElement f a → IsElement f b → IsElement f c →
    gfAdd (gfAdd a b) c = gfAdd a (gfAdd b c) ∧ gfAdd a b = gfAdd b a ∧ gfAdd a 0 = a ∧ gfAdd a a = 0 ∧
    IsElement f (gfAdd a b)) ∧
  (∀ (f : Field) (a b c : Nat), IsElement f a → IsElement f b → IsElement f c →
    gfMul f a b = gfMul f b a ∧ gfMul f a (gfMul f b c) = gfMul f (gfMul f a b) c ∧ gfMul f a 1 = a ∧
    gfMul f a 0 = 0 ∧ gfMul f a (gfAdd b c) = gfAdd (gfMul f a b) (gfMul f a c) ∧ IsElement f (gfMul f a b)) ∧
  (∀ (f : Field) (a b : Nat), IsElement f a → IsElement f b → b ≠ 0 →
    gfDiv f (gfMul f a b) b = some a ∧
    ∃ q v : Nat, gfDiv f a b = some q ∧ IsElement f q ∧ gfMul f q b = a ∧
      gfInv f b = some v ∧ IsElement f v ∧ gfMul f b v = 1 ∧ q = gfMul f a v) ∧
  (∀ (f : Field) (a p : Nat), IsElement f a → a ≠ 0 →
    gfPow f a p = some (basisPow f a p) ∧ gfPow f a (p + f.n) = gfPow f a p ∧ IsElement f (basisPow f a p))

/-! ## 41_polynomial_engine.md -/

/-- DERIVED from 41_polynomial_engine.md section 2 (R180; its sentence "deg(scale(p, x)) = deg(p) for x ≠ 0" is marked
[derived: from R150]): P_SCALE multiplies every slot by x; for x ≠ 0 the degree stays. -/
def Obligations.PScaleScalesEverySlot : Prop :=
  HasWords .pScale 0x0010#16 0x0030#16 ∧
  (∀ (f : Field) (s : State), IsPacked f s.ops.a.toNat → IsElement f s.ops.b.toNat →
    ∃ y : Word, exec (.pScale f) s = .next (completed s 0x0#4 y 0#16) ∧ IsPacked f y.toNat ∧
      (∀ i : Nat, i < f.slots → slot f y.toNat i = basisMul f (slot f s.ops.a.toNat i) s.ops.b.toNat) ∧
      (s.ops.b ≠ 0#64 → ∀ d : Nat, HasDegree f s.ops.a.toNat d → HasDegree f y.toNat d)) ∧
  (∀ (f : Field) (s : State), ¬(IsPacked f s.ops.a.toNat ∧ IsElement f s.ops.b.toNat) →
    exec (.pScale f) s = .next (completed s 0x6#4 0#64 0#16))

/-- DERIVED from 41_polynomial_engine.md section 4 (R188, whose equality is marked [derived]): P_SCALE gives what the
bit-parallel form gives. -/
def Obligations.PScaleIsTheBitParallelForm : Prop :=
  ∀ (f : Field) (s : State), IsPacked f s.ops.a.toNat → IsElement f s.ops.b.toNat →
    exec (.pScale f) s = .next
      (completed s 0x0#4 (BitVec.ofNat 64 (scalePacked f s.ops.a.toNat s.ops.b.toNat)) 0#16)

/-- DERIVED from 41_polynomial_engine.md section 2 (R181; its sentence "For p, q ≠ 0 this is exactly the case deg(p) +
deg(q) > DMAX_m" is marked [derived: from R150]): P_MUL gives the product when every coefficient at and above SLOTS_m is
0, and refuses otherwise; for p, q ≠ 0 it refuses exactly when deg(p) + deg(q) > DMAX_m = SLOTS_m − 1. -/
def Obligations.PMulGivesTheProductThatFits : Prop :=
  HasWords .pMul 0x0011#16 0x0031#16 ∧
  (∀ (f : Field) (s : State), IsPacked f s.ops.a.toNat → IsPacked f s.ops.b.toNat →
    (∀ n : Nat, f.slots ≤ n → n ≤ 2 * f.slots - 2 → conv f (slot f s.ops.a.toNat) (slot f s.ops.b.toNat) n = 0) →
    ∃ y : Word, exec (.pMul f) s = .next (completed s 0x0#4 y 0#16) ∧ IsPacked f y.toNat ∧
      ∀ n : Nat, n < f.slots → slot f y.toNat n = conv f (slot f s.ops.a.toNat) (slot f s.ops.b.toNat) n) ∧
  (∀ (f : Field) (s : State), (∃ n : Nat, f.slots ≤ n ∧ n ≤ 2 * f.slots - 2 ∧
      conv f (slot f s.ops.a.toNat) (slot f s.ops.b.toNat) n ≠ 0) →
    exec (.pMul f) s = .next (completed s 0x6#4 0#64 0#16)) ∧
  (∀ (f : Field) (s : State), ¬(IsPacked f s.ops.a.toNat ∧ IsPacked f s.ops.b.toNat) →
    exec (.pMul f) s = .next (completed s 0x6#4 0#64 0#16)) ∧
  (∀ (f : Field) (s : State) (dp dq : Nat), IsPacked f s.ops.a.toNat → IsPacked f s.ops.b.toNat →
    HasDegree f s.ops.a.toNat dp → HasDegree f s.ops.b.toNat dq →
    (exec (.pMul f) s = .next (completed s 0x6#4 0#64 0#16) ↔ f.slots - 1 < dp + dq))

/-- DERIVED from 41_polynomial_engine.md section 4 (R190 "degree"): for p, q ≠ 0 whose degrees add up inside the
container, P_MUL's product has the sum of the degrees as its degree. -/
def Obligations.PMulAddsDegrees : Prop :=
  ∀ (f : Field) (s : State) (dp dq : Nat), IsPacked f s.ops.a.toNat → IsPacked f s.ops.b.toNat →
    HasDegree f s.ops.a.toNat dp → HasDegree f s.ops.b.toNat dq → dp + dq < f.slots →
    ∃ y : Word, exec (.pMul f) s = .next (completed s 0x0#4 y 0#16) ∧ HasDegree f y.toNat (dp + dq)

/-- R182: P_MULM gives the product with slot 0 of q taken as 1, whatever slot 0 of q holds. -/
def Obligations.PMulmTakesSlotZeroAsOne : Prop :=
  HasWords .pMulm 0x0012#16 0x0032#16 ∧
  (∀ (f : Field) (s : State), IsPacked f s.ops.a.toNat → IsPacked f s.ops.b.toNat →
    (∀ n : Nat, f.slots ≤ n → n ≤ 2 * f.slots - 2 →
      conv f (slot f s.ops.a.toNat) (oneAtZero (slot f s.ops.b.toNat)) n = 0) →
    ∃ y : Word, exec (.pMulm f) s = .next (completed s 0x0#4 y 0#16) ∧ IsPacked f y.toNat ∧
      ∀ n : Nat, n < f.slots →
        slot f y.toNat n = conv f (slot f s.ops.a.toNat) (oneAtZero (slot f s.ops.b.toNat)) n) ∧
  (∀ (f : Field) (s : State), (∃ n : Nat, f.slots ≤ n ∧ n ≤ 2 * f.slots - 2 ∧
      conv f (slot f s.ops.a.toNat) (oneAtZero (slot f s.ops.b.toNat)) n ≠ 0) →
    exec (.pMulm f) s = .next (completed s 0x6#4 0#64 0#16)) ∧
  (∀ (f : Field) (s : State), ¬(IsPacked f s.ops.a.toNat ∧ IsPacked f s.ops.b.toNat) →
    exec (.pMulm f) s = .next (completed s 0x6#4 0#64 0#16))

/-- DERIVED from 41_polynomial_engine.md section 3 ("the remainder has degree < k, and p = Q·q ⊕ remainder for some
quotient Q of degree < t", marked [derived]): P_MOD gives the remainder of the division, and refuses operands outside
R183's checks. -/
def Obligations.PModGivesTheRemainder : Prop :=
  HasWords .pMod 0x0013#16 0x0033#16 ∧
  (∀ (f : Field) (s : State), ModOperands f s.ops →
    ∃ (y : Word) (quo : Nat → Nat), exec (.pMod f) s = .next (completed s 0x0#4 y 0#16) ∧
      y.toNat < 2 ^ (s.ops.szb.toNat / f.m * f.m) ∧
      (∀ i : Nat, IsElement f (quo i)) ∧ (∀ i : Nat, s.ops.sza.toNat / f.m ≤ i → quo i = 0) ∧
      ∀ n : Nat, slot f s.ops.a.toNat n = conv f quo (slot f s.ops.b.toNat) n ^^^ slot f y.toNat n) ∧
  (∀ (f : Field) (s : State), ¬ModOperands f s.ops → exec (.pMod f) s = .next (completed s 0x6#4 0#64 0#16))

/-- R184: P_EVAL gives the value at x of the SZA/m low slots, higher slots ignored. -/
def Obligations.PEvalGivesTheValue : Prop :=
  HasWords .pEval 0x0014#16 0x0034#16 ∧
  ∀ (f : Field) (s : State), exec (.pEval f) s = .next
    (if IsPacked f s.ops.a.toNat ∧ IsElement f s.ops.b.toNat ∧ s.ops.sza.toNat % f.m = 0 ∧
        s.ops.sza.toNat ≤ f.slots * f.m then
      completed s 0x0#4
        (BitVec.ofNat 64 (valueAt f (slot f s.ops.a.toNat) (s.ops.sza.toNat / f.m) s.ops.b.toNat)) 0#16
     else completed s 0x6#4 0#64 0#16)

/-- DERIVED from 41_polynomial_engine.md section 4 ("eval"): the value of a product is the product of the values. -/
def Obligations.EvaluationIsMultiplicative : Prop :=
  ∀ (f : Field) (s t : State) (x : Word), exec (.pMul f) s = .next t → t.status = 0x0#4 → IsElement f x.toNat →
    ∃ u v : Word,
      exec (.pEval f) { s with ops := { s.ops with sza := BitVec.ofNat 8 (f.slots * f.m), b := x } } =
        .next (completed { s with ops := { s.ops with sza := BitVec.ofNat 8 (f.slots * f.m), b := x } } 0x0#4 u 0#16) ∧
      exec (.pEval f) { s with ops := { s.ops with sza := BitVec.ofNat 8 (f.slots * f.m), a := s.ops.b, b := x } } =
        .next (completed
          { s with ops := { s.ops with sza := BitVec.ofNat 8 (f.slots * f.m), a := s.ops.b, b := x } } 0x0#4 v 0#16) ∧
      exec (.pEval f) { t with ops := { s.ops with sza := BitVec.ofNat 8 (f.slots * f.m), a := t.y, b := x } } =
        .next (completed
          { t with ops := { s.ops with sza := BitVec.ofNat 8 (f.slots * f.m), a := t.y, b := x } } 0x0#4
          (BitVec.ofNat 64 (basisMul f u.toNat v.toNat)) 0#16)

/-- R185: P_DERIV moves the odd slots down one and clears the rest. -/
def Obligations.PDerivMovesOddSlotsDown : Prop :=
  HasWords .pDeriv 0x0015#16 0x0035#16 ∧
  (∀ (f : Field) (s : State), IsPacked f s.ops.a.toNat →
    ∃ y : Word, exec (.pDeriv f) s = .next (completed s 0x0#4 y 0#16) ∧ IsPacked f y.toNat ∧
      ∀ j : Nat, j < f.slots →
        slot f y.toNat j = if j % 2 = 0 ∧ j + 1 < f.slots then slot f s.ops.a.toNat (j + 1) else 0) ∧
  (∀ (f : Field) (s : State), ¬IsPacked f s.ops.a.toNat → exec (.pDeriv f) s = .next (completed s 0x6#4 0#64 0#16))

/-- R186: P_ORDER gives the largest i with a nonzero slot; the zero polynomial fails INVALID_OPERAND. -/
def Obligations.POrderGivesTheDegree : Prop :=
  HasWords .pOrder 0x0016#16 0x0036#16 ∧
  (∀ (f : Field) (s : State), IsPacked f s.ops.a.toNat → s.ops.a ≠ 0#64 →
    ∃ d : Word, exec (.pOrder f) s = .next (completed s 0x0#4 d 0#16) ∧ d.toNat < f.slots ∧
      HasDegree f s.ops.a.toNat d.toNat) ∧
  (∀ (f : Field) (s : State), s.ops.a = 0#64 → exec (.pOrder f) s = .next (completed s 0x5#4 0#64 0#16)) ∧
  (∀ (f : Field) (s : State), ¬IsPacked f s.ops.a.toNat → exec (.pOrder f) s = .next (completed s 0x6#4 0#64 0#16))

/-- R187: P_SIZE gives (deg + 1)·m, and 0 for the zero polynomial. -/
def Obligations.PSizeGivesTheBitSize : Prop :=
  HasWords .pSize 0x0017#16 0x0037#16 ∧
  (∀ (f : Field) (s : State), IsPacked f s.ops.a.toNat → s.ops.a ≠ 0#64 →
    ∃ d : Nat, exec (.pSize f) s = .next (completed s 0x0#4 (BitVec.ofNat 64 ((d + 1) * f.m)) 0#16) ∧ d < f.slots ∧
      HasDegree f s.ops.a.toNat d) ∧
  (∀ (f : Field) (s : State), s.ops.a = 0#64 → exec (.pSize f) s = .next (completed s 0x0#4 0#64 0#16)) ∧
  (∀ (f : Field) (s : State), ¬IsPacked f s.ops.a.toNat → exec (.pSize f) s = .next (completed s 0x6#4 0#64 0#16))

/-! ## 42_encoder.md -/

/-- R230: RS_ENCODE cuts the message to N_m − k symbols, shifts it up by k slots, and appends what P_MOD gives for it by
g_k, so that every message value is accepted; k outside 1 .. KMAX_m is refused. -/
def Obligations.RsEncodeAppendsTheRemainder : Prop :=
  HasWords .rsEncode 0x0018#16 0x0038#16 ∧
  (∀ (f : Field) (s u : State), IsCount f s.ops.k.toNat →
    u.ops.a = BitVec.ofNat 64 (s.ops.a.toNat % 2 ^ ((f.n - s.ops.k.toNat) * f.m) * 2 ^ (s.ops.k.toNat * f.m)) →
    u.ops.sza = BitVec.ofNat 8 ((f.n - s.ops.k.toNat) * f.m) →
    u.ops.b = BitVec.ofNat 64 (genRom f s.ops.k.toNat) → u.ops.szb = BitVec.ofNat 8 (s.ops.k.toNat * f.m) →
    ∃ checks : Word, exec (.pMod f) u = .next (completed u 0x0#4 checks 0#16) ∧
      checks.toNat < 2 ^ (s.ops.k.toNat * f.m) ∧
      exec (.rsEncode f) s = .next (completed s 0x0#4 (u.ops.a ||| checks) 0#16)) ∧
  (∀ (f : Field) (s : State), ¬IsCount f s.ops.k.toNat → exec (.rsEncode f) s = .next (completed s 0x6#4 0#64 0#16))

/-- DERIVED from 42_encoder.md (R231 items 1, 3 and 5, marked [derived]): RS_ENCODE gives a word of N_m slots whose
high slots are the truncated message, and which P_MOD by g_k leaves with remainder 0. -/
def Obligations.RsEncodeIsSystematicAndDivisible : Prop :=
  HasWords .rsEncode 0x0018#16 0x0038#16 ∧
  (∀ (f : Field) (s : State), IsCount f s.ops.k.toNat →
    ∃ y : Word, exec (.rsEncode f) s = .next (completed s 0x0#4 y 0#16) ∧ y.toNat < 2 ^ (f.n * f.m) ∧
      y.toNat / 2 ^ (s.ops.k.toNat * f.m) = s.ops.a.toNat % 2 ^ ((f.n - s.ops.k.toNat) * f.m) ∧
      ∀ u : State, u.ops.a = y → u.ops.sza = BitVec.ofNat 8 ((f.n - s.ops.k.toNat) * f.m) →
        u.ops.b = BitVec.ofNat 64 (genRom f s.ops.k.toNat) → u.ops.szb = BitVec.ofNat 8 (s.ops.k.toNat * f.m) →
        exec (.pMod f) u = .next (completed u 0x0#4 0#64 0#16)) ∧
  (∀ (f : Field) (s : State), ¬IsCount f s.ops.k.toNat → exec (.rsEncode f) s = .next (completed s 0x6#4 0#64 0#16))

/-- DERIVED from 42_encoder.md (R231 item 2, marked [derived]): over all N_m slots, every word RS_ENCODE gives has all its
syndromes zero: RS_SYNDROME gives S = 0 with YAUX bit 0 = 1. -/
def Obligations.EncodedWordsHaveZeroSyndromes : Prop :=
  ∀ (f : Field) (s t u : State), exec (.rsEncode f) s = .next t → t.status = 0x0#4 →
    u.ops.a = t.y → u.ops.sza = BitVec.ofNat 8 (f.n * f.m) → u.ops.k = s.ops.k →
    exec (.rsSyndrome f) u = .next (completed u 0x0#4 0#64 1#16)

/-- DERIVED from 42_encoder.md (R231 item 4, marked [derived]): RS_ENCODE is linear in the message. -/
def Obligations.RsEncodeIsLinear : Prop :=
  ∀ (f : Field) (s : State) (a b : Word), IsCount f s.ops.k.toNat →
    ∃ y z : Word,
      exec (.rsEncode f) { s with ops := { s.ops with a := a } } =
        .next (completed { s with ops := { s.ops with a := a } } 0x0#4 y 0#16) ∧
      exec (.rsEncode f) { s with ops := { s.ops with a := b } } =
        .next (completed { s with ops := { s.ops with a := b } } 0x0#4 z 0#16) ∧
      exec (.rsEncode f) { s with ops := { s.ops with a := a ^^^ b } } =
        .next (completed { s with ops := { s.ops with a := a ^^^ b } } 0x0#4 (y ^^^ z) 0#16)

/-! ## 43_decoder_stages.md -/

/-- R251: RS_SYNDROME gives S_i = R(α^i) in slot i − 1, nothing above slot k − 1, and YAUX bit 0 = 1 exactly when S = 0;
operands outside the checks are refused. -/
def Obligations.RsSyndromeEvaluatesAtTheRoots : Prop :=
  HasWords .rsSyndrome 0x0019#16 0x0039#16 ∧
  (∀ (f : Field) (s : State), IsCount f s.ops.k.toNat → IsReceivedSize f s.ops.sza.toNat →
    s.ops.a.toNat < 2 ^ s.ops.sza.toNat →
    ∃ y : Word, exec (.rsSyndrome f) s = .next (completed s 0x0#4 y (if y = 0#64 then 1#16 else 0#16)) ∧
      y.toNat < 2 ^ (s.ops.k.toNat * f.m) ∧
      ∀ i : Nat, i < s.ops.k.toNat →
        slot f y.toNat i = valueAt f (slot f s.ops.a.toNat) (s.ops.sza.toNat / f.m) (alphaIter f (i + 1))) ∧
  (∀ (f : Field) (s : State),
    ¬(IsCount f s.ops.k.toNat ∧ IsReceivedSize f s.ops.sza.toNat ∧ s.ops.a.toNat < 2 ^ s.ops.sza.toNat) →
    exec (.rsSyndrome f) s = .next (completed s 0x6#4 0#64 0#16))

/-- DERIVED from 43_decoder_stages.md section 3 (R252; its sentence "Γ is always of degree exactly ρ, with slot 0 = 1" is
marked [derived: from the loop]): RS_ERASLOC gives the product of (1 + α^i·x) over the erased positions i, and YAUX = ρ:
slot 0 is 1 and the degree is ρ; a position outside the block, or more than DMAX_m erasures, is refused. -/
def Obligations.RsEraslocMultipliesTheFactors : Prop :=
  HasWords .rsErasloc 0x001A#16 0x003A#16 ∧
  (∀ (f : Field) (s : State), IsMaskBelow f.n s.ops.em.toNat → weight s.ops.em ≤ f.slots - 1 →
    ∃ y : Word, exec (.rsErasloc f) s = .next (completed s 0x0#4 y (BitVec.ofNat 16 (weight s.ops.em))) ∧
      IsPacked f y.toNat ∧ slot f y.toNat 0 = 1 ∧ HasDegree f y.toNat (weight s.ops.em) ∧
      ∀ n : Nat, n < f.slots → slot f y.toNat n = locatorCoeff f s.ops.em f.n n) ∧
  (∀ (f : Field) (s : State), ¬(IsMaskBelow f.n s.ops.em.toNat ∧ weight s.ops.em ≤ f.slots - 1) →
    exec (.rsErasloc f) s = .next (completed s 0x6#4 0#64 0#16))

/-- DERIVED from 43_decoder_stages.md sections 1 and 3 ("the locator's roots being reciprocals of error positions"):
the zeros of RS_ERASLOC's locator among the α^{−j} are those of the erased positions. -/
def Obligations.RsEraslocVanishesAtTheErasures : Prop :=
  ∀ (f : Field) (s t : State), exec (.rsErasloc f) s = .next t → t.status = 0x0#4 →
    ∀ j : Nat, j < f.n → (valueAt f (slot f t.y.toNat) f.slots (alphaInv f j) = 0 ↔ s.ops.em.getLsbD j = true)

/-- R253: RS_FSYND gives the k low slots of S·Γ, slot 0 of Γ taken as 1, with no overflow check. -/
def Obligations.RsFsyndKeepsTheLowProductSlots : Prop :=
  HasWords .rsFsynd 0x001B#16 0x003B#16 ∧
  (∀ (f : Field) (s : State), IsCount f s.ops.k.toNat → IsPacked f s.ops.a.toNat → IsPacked f s.ops.b.toNat →
    ∃ y : Word, exec (.rsFsynd f) s = .next (completed s 0x0#4 y 0#16) ∧ y.toNat < 2 ^ (s.ops.k.toNat * f.m) ∧
      ∀ n : Nat, n < s.ops.k.toNat →
        slot f y.toNat n = conv f (slot f s.ops.a.toNat) (oneAtZero (slot f s.ops.b.toNat)) n) ∧
  (∀ (f : Field) (s : State),
    ¬(IsCount f s.ops.k.toNat ∧ IsPacked f s.ops.a.toNat ∧ IsPacked f s.ops.b.toNat) →
    exec (.rsFsynd f) s = .next (completed s 0x6#4 0#64 0#16))

/-- DERIVED from 43_decoder_stages.md section 4 (R256's start and sequence are marked [from general knowledge], log entry
9) and 44_decoder_pipeline.md section 2 ("deg(Λ) ≤ L"): RS_BM gives a connection polynomial of the sequence in slots ρ ..
k − 1: slot 0 is 1, its degree is at most L ≤ k − ρ, and from step L on every term is the one the recurrence predicts;
L is the shortest such length (what R257's uniqueness rests on): no field elements at all give a shorter recurrence; YAUX
holds L and the degree. Operands outside the checks are refused. -/
def Obligations.RsBmGivesARecurrenceOfTheSequence : Prop :=
  HasWords .rsBm 0x001C#16 0x003C#16 ∧
  (∀ (f : Field) (s : State), IsCount f s.ops.k.toNat → IsPacked f s.ops.a.toNat → IsMaskBelow f.n s.ops.em.toNat →
    weight s.ops.em ≤ s.ops.k.toNat →
    ∃ (y : Word) (len d : Nat),
      exec (.rsBm f) s = .next (completed s 0x0#4 y (BitVec.ofNat 16 (len + 256 * d))) ∧
      IsPacked f y.toNat ∧ slot f y.toNat 0 = 1 ∧ HasDegree f y.toNat d ∧ d ≤ len ∧
      len ≤ s.ops.k.toNat - weight s.ops.em ∧
      (∀ n : Nat, len ≤ n → n < s.ops.k.toNat - weight s.ops.em →
        slot f s.ops.a.toNat (weight s.ops.em + n) = xorUpTo
          (fun i => basisMul f (slot f y.toNat (i + 1)) (slot f s.ops.a.toNat (weight s.ops.em + (n - (i + 1))))) len) ∧
      ∀ (c : Nat → Nat) (l : Nat), (∀ i : Nat, IsElement f (c i)) → l < len →
        ∃ n : Nat, l ≤ n ∧ n < s.ops.k.toNat - weight s.ops.em ∧
          slot f s.ops.a.toNat (weight s.ops.em + n) ≠ xorUpTo
            (fun i => basisMul f (c (i + 1)) (slot f s.ops.a.toNat (weight s.ops.em + (n - (i + 1))))) l) ∧
  (∀ (f : Field) (s : State),
    ¬(IsCount f s.ops.k.toNat ∧ IsPacked f s.ops.a.toNat ∧ IsMaskBelow f.n s.ops.em.toNat ∧
      weight s.ops.em ≤ s.ops.k.toNat) →
    exec (.rsBm f) s = .next (completed s 0x6#4 0#64 0#16))

/-- DERIVED from 43_decoder_stages.md section 5 (R260; its sentence "Distinct positions give distinct points, because
α^{−j} for 0 ≤ j < N_m are distinct" is marked [derived: from R61]): RS_CHIEN marks the transmitted, non-erased positions
j below n_r at whose α^{−j} the locator vanishes, and counts them in YAUX; the points α^{−j} are distinct; operands
outside the checks are refused. -/
def Obligations.RsChienMarksTheEligibleRoots : Prop :=
  HasWords .rsChien 0x001D#16 0x003D#16 ∧
  (∀ (f : Field) (s : State), IsPacked f s.ops.a.toNat → IsReceivedSize f s.ops.sza.toNat →
    IsMaskBelow (s.ops.sza.toNat / f.m) s.ops.em.toNat → IsMaskBelow (s.ops.sza.toNat / f.m) s.ops.tm.toNat →
    ∃ found : Half, exec (.rsChien f) s =
        .next (completed s 0x0#4 (found.setWidth 64) (BitVec.ofNat 16 (weight found))) ∧
      ∀ j : Nat, found.getLsbD j = true ↔
        j < s.ops.sza.toNat / f.m ∧ s.ops.tm.getLsbD j = true ∧ s.ops.em.getLsbD j = false ∧
          valueAt f (slot f s.ops.a.toNat) f.slots (alphaInv f j) = 0) ∧
  (∀ (f : Field) (s : State),
    ¬(IsPacked f s.ops.a.toNat ∧ IsReceivedSize f s.ops.sza.toNat ∧
      IsMaskBelow (s.ops.sza.toNat / f.m) s.ops.em.toNat ∧ IsMaskBelow (s.ops.sza.toNat / f.m) s.ops.tm.toNat) →
    exec (.rsChien f) s = .next (completed s 0x6#4 0#64 0#16)) ∧
  (∀ (f : Field) (i j : Nat), i < f.n → j < f.n → alphaInv f i = alphaInv f j → i = j)

/-- DERIVED from 43_decoder_stages.md section 6 (R262's formula is marked [from general knowledge], log entry 9):
RS_FORNEY puts in slot j of E the quotient Ω(α^{−j}) / Ψ′(α^{−j}) for every masked position and 0 elsewhere; a masked
position whose denominator is 0 fails DIVISION_BY_ZERO; operands outside the checks are refused. -/
def Obligations.RsForneyDividesAtTheMaskedPositions : Prop :=
  HasWords .rsForney 0x001E#16 0x003E#16 ∧
  (∀ (f : Field) (s : State), IsCount f s.ops.k.toNat → IsPacked f s.ops.a.toNat → IsPacked f s.ops.b.toNat →
    IsReceivedSize f s.ops.sza.toNat → IsMaskBelow (s.ops.sza.toNat / f.m) s.ops.em.toNat →
    (∀ j : Nat, s.ops.em.getLsbD j = true →
      valueAt f (derivative f (slot f s.ops.b.toNat)) f.slots (alphaInv f j) ≠ 0) →
    ∃ y : Word, exec (.rsForney f) s = .next (completed s 0x0#4 y 0#16) ∧ y.toNat < 2 ^ s.ops.sza.toNat ∧
      ∀ j : Nat, j < f.n →
        if s.ops.em.getLsbD j = true then
          basisMul f (slot f y.toNat j)
              (valueAt f (derivative f (slot f s.ops.b.toNat)) f.slots (alphaInv f j)) =
            valueAt f (evaluator f (slot f s.ops.a.toNat) (slot f s.ops.b.toNat) s.ops.k.toNat) f.slots (alphaInv f j)
        else slot f y.toNat j = 0) ∧
  (∀ (f : Field) (s : State), IsCount f s.ops.k.toNat → IsPacked f s.ops.a.toNat → IsPacked f s.ops.b.toNat →
    IsReceivedSize f s.ops.sza.toNat → IsMaskBelow (s.ops.sza.toNat / f.m) s.ops.em.toNat →
    (∃ j : Nat, s.ops.em.getLsbD j = true ∧
      valueAt f (derivative f (slot f s.ops.b.toNat)) f.slots (alphaInv f j) = 0) →
    exec (.rsForney f) s = .next (completed s 0x1#4 0#64 0#16)) ∧
  (∀ (f : Field) (s : State),
    ¬(IsCount f s.ops.k.toNat ∧ IsPacked f s.ops.a.toNat ∧ IsPacked f s.ops.b.toNat ∧
      IsReceivedSize f s.ops.sza.toNat ∧ IsMaskBelow (s.ops.sza.toNat / f.m) s.ops.em.toNat) →
    exec (.rsForney f) s = .next (completed s 0x6#4 0#64 0#16))

/-! ## 44_decoder_pipeline.md -/

/-- DERIVED from 44_decoder_pipeline.md section 1 and 60_exceptions.md section 3 (R336's last paragraph, marked
[derived]): RS_DECODE refuses operands outside its checks; then more erasures than check symbols fail
BEYOND_SINGLETON_BOUND, whatever the syndromes. -/
def Obligations.RsDecodeChecksInOrder : Prop :=
  HasWords .rsDecode 0x001F#16 0x003F#16 ∧
  (∀ (f : Field) (s : State), ¬DecodeOperands f s.ops →
    exec (.rsDecode f) s = .next (completed s 0x6#4 0#64 0#16)) ∧
  (∀ (f : Field) (s : State), DecodeOperands f s.ops → s.ops.k.toNat < weight s.ops.em →
    exec (.rsDecode f) s = .next (completed s 0x2#4 0#64 0#16))

/-- DERIVED from 44_decoder_pipeline.md section 1 (R302) and 60_exceptions.md section 3 (R336's last paragraph, marked
[derived]): when every syndrome is zero, and stage 1 lets the erasures pass, RS_DECODE returns the received word
unchanged, with YAUX = 0, whatever erasures EM declares. -/
def Obligations.RsDecodeReturnsCodewordsUnchanged : Prop :=
  ∀ (f : Field) (s : State), DecodeOperands f s.ops → weight s.ops.em ≤ s.ops.k.toNat →
    IsCodeword f s.ops.a.toNat (s.ops.sza.toNat / f.m) s.ops.k.toNat →
    exec (.rsDecode f) s = .next (completed s 0x0#4 s.ops.a 0#16)

/-- DERIVED from 44_decoder_pipeline.md section 2 (R304): an OK result differs from the received word only at positions
YAUX names, fits SZA, and YAUX is 0 or takes in every erasure. -/
def Obligations.RsDecodeCorrectsOnlyNamedPositions : Prop :=
  ∀ (f : Field) (s t : State), exec (.rsDecode f) s = .next t → t.status = 0x0#4 →
    t.y.toNat < 2 ^ s.ops.sza.toNat ∧
    (∀ j : Nat, slot f t.y.toNat j ≠ slot f s.ops.a.toNat j → t.yaux.getLsbD j = true) ∧
    (t.yaux = 0#16 ∨ ∀ j : Nat, s.ops.em.getLsbD j = true → t.yaux.getLsbD j = true)

/-- DERIVED from 44_decoder_pipeline.md section 2 (R307, marked [derived]): for operands that pass its checks, RS_DECODE
completes with what the host sequence P3 of stage commands gives. -/
def Obligations.RsDecodeEqualsTheStageCommands : Prop :=
  ∀ (f : Field) (s : State), DecodeOperands f s.ops →
    exec (.rsDecode f) s =
      .next (completed s (hostDecode f s).1 (hostDecode f s).2.1 (hostDecode f s).2.2)

/-- DERIVED from 44_decoder_pipeline.md section 2 (R306, marked [derived]): every OK result of RS_DECODE is a codeword
over the n_r received slots. -/
def Obligations.RsDecodeOkResultsAreCodewords : Prop :=
  ∀ (f : Field) (s t : State), exec (.rsDecode f) s = .next t → t.status = 0x0#4 →
    t.y.toNat < 2 ^ s.ops.sza.toNat ∧ IsCodeword f t.y.toNat (s.ops.sza.toNat / f.m) s.ops.k.toNat

/-- DERIVED from 44_decoder_pipeline.md section 2 (R305, marked [derived]): within capacity, RS_DECODE gives back the
codeword sent. The received word may differ from it at every erased position, and at ν transmitted positions that are
not erased, with ρ + 2ν ≤ k. -/
def Obligations.RsDecodeCorrectsWithinCapacity : Prop :=
  ∀ (f : Field) (s : State) (c : Word), DecodeOperands f s.ops → c.toNat < 2 ^ s.ops.sza.toNat →
    IsCodeword f c.toNat (s.ops.sza.toNat / f.m) s.ops.k.toNat →
    (∀ j : Nat, slot f s.ops.a.toNat j ≠ slot f c.toNat j → s.ops.em.getLsbD j = false →
      s.ops.tm.getLsbD j = true) →
    weight s.ops.em + 2 * ((List.range f.n).filter fun j =>
      slot f s.ops.a.toNat j != slot f c.toNat j && !s.ops.em.getLsbD j).length ≤ s.ops.k.toNat →
    ∃ aux : Half, exec (.rsDecode f) s = .next (completed s 0x0#4 c aux)
end

