-- ==== Sys2Proof/Laws/State.lean ====
section
/-! SUPPORT. One lemma per field of State per named update, and what `ports` reads. -/
namespace Sys2Proof.Machine

@[simp] theorem State.complete_busy (s : State) (r : Result) :
    (s.complete r).busy = false := rfl
@[simp] theorem State.complete_done (s : State) (r : Result) :
    (s.complete r).done = true := rfl
@[simp] theorem State.complete_status (s : State) (r : Result) :
    (s.complete r).status = r.status := rfl
@[simp] theorem State.complete_y (s : State) (r : Result) :
    (s.complete r).y = r.y := rfl
@[simp] theorem State.complete_yaux (s : State) (r : Result) :
    (s.complete r).yaux = r.yaux := rfl
@[simp] theorem State.complete_ops (s : State) (r : Result) :
    (s.complete r).ops = s.ops := rfl
@[simp] theorem State.complete_left (s : State) (r : Result) :
    (s.complete r).left = s.left := rfl
@[simp] theorem State.complete_resets (s : State) (r : Result) :
    (s.complete r).resets = s.resets := rfl
@[simp] theorem State.complete_host (s : State) (r : Result) :
    (s.complete r).host = s.host := rfl

@[simp] theorem State.afterEdge_busy (s : State) :
    (s.afterEdge).busy = s.busy := rfl
@[simp] theorem State.afterEdge_done (s : State) :
    (s.afterEdge).done = s.done := rfl
@[simp] theorem State.afterEdge_status (s : State) :
    (s.afterEdge).status = s.status := rfl
@[simp] theorem State.afterEdge_y (s : State) :
    (s.afterEdge).y = s.y := rfl
@[simp] theorem State.afterEdge_yaux (s : State) :
    (s.afterEdge).yaux = s.yaux := rfl
@[simp] theorem State.afterEdge_ops (s : State) :
    (s.afterEdge).ops = s.ops := rfl
@[simp] theorem State.afterEdge_left (s : State) :
    (s.afterEdge).left = s.left := rfl
@[simp] theorem State.afterEdge_resets (s : State) :
    (s.afterEdge).resets = s.resets := rfl
@[simp] theorem State.afterEdge_host (s : State) :
    (s.afterEdge).host = s.host.tail := rfl

@[simp] theorem State.accept_busy (s : State) (e : HostEdge) :
    (s.accept e).busy = true := rfl
@[simp] theorem State.accept_done (s : State) (e : HostEdge) :
    (s.accept e).done = false := rfl
@[simp] theorem State.accept_status (s : State) (e : HostEdge) :
    (s.accept e).status = s.status := rfl
@[simp] theorem State.accept_y (s : State) (e : HostEdge) :
    (s.accept e).y = s.y := rfl
@[simp] theorem State.accept_yaux (s : State) (e : HostEdge) :
    (s.accept e).yaux = s.yaux := rfl
@[simp] theorem State.accept_ops (s : State) (e : HostEdge) :
    (s.accept e).ops = ⟨e.cmd, e.opa, e.opb, e.sza, e.szb, e.k, e.em, e.tm⟩ := rfl
@[simp] theorem State.accept_left (s : State) (e : HostEdge) :
    (s.accept e).left = e.waits := rfl
@[simp] theorem State.accept_resets (s : State) (e : HostEdge) :
    (s.accept e).resets = s.resets := rfl
@[simp] theorem State.accept_host (s : State) (e : HostEdge) :
    (s.accept e).host = s.host := rfl

@[simp] theorem State.wait_busy (s : State) :
    (s.wait).busy = s.busy := rfl
@[simp] theorem State.wait_done (s : State) :
    (s.wait).done = s.done := rfl
@[simp] theorem State.wait_status (s : State) :
    (s.wait).status = s.status := rfl
@[simp] theorem State.wait_y (s : State) :
    (s.wait).y = s.y := rfl
@[simp] theorem State.wait_yaux (s : State) :
    (s.wait).yaux = s.yaux := rfl
@[simp] theorem State.wait_ops (s : State) :
    (s.wait).ops = s.ops := rfl
@[simp] theorem State.wait_left (s : State) :
    (s.wait).left = s.left - 1 := rfl
@[simp] theorem State.wait_resets (s : State) :
    (s.wait).resets = s.resets := rfl
@[simp] theorem State.wait_host (s : State) :
    (s.wait).host = s.host := rfl

@[simp] theorem State.resetEdge_busy (s : State) :
    (s.resetEdge).busy = false := rfl
@[simp] theorem State.resetEdge_done (s : State) :
    (s.resetEdge).done = false := rfl
@[simp] theorem State.resetEdge_status (s : State) :
    (s.resetEdge).status = 0xF#4 := rfl
@[simp] theorem State.resetEdge_y (s : State) :
    (s.resetEdge).y = 0#64 := rfl
@[simp] theorem State.resetEdge_yaux (s : State) :
    (s.resetEdge).yaux = 0#16 := rfl
@[simp] theorem State.resetEdge_ops (s : State) :
    (s.resetEdge).ops = unspecifiedOperands s.resets := rfl
@[simp] theorem State.resetEdge_left (s : State) :
    (s.resetEdge).left = 0 := rfl
@[simp] theorem State.resetEdge_resets (s : State) :
    (s.resetEdge).resets = s.resets + 1 := rfl
@[simp] theorem State.resetEdge_host (s : State) :
    (s.resetEdge).host = s.host := rfl

@[simp] theorem State.withCommandInFlight_busy (s : State) (nbits w : Nat) :
    (s.withCommandInFlight nbits w).busy = true := rfl
@[simp] theorem State.withCommandInFlight_done (s : State) (nbits w : Nat) :
    (s.withCommandInFlight nbits w).done = false := rfl
@[simp] theorem State.withCommandInFlight_status (s : State) (nbits w : Nat) :
    (s.withCommandInFlight nbits w).status = s.status := rfl
@[simp] theorem State.withCommandInFlight_y (s : State) (nbits w : Nat) :
    (s.withCommandInFlight nbits w).y = s.y := rfl
@[simp] theorem State.withCommandInFlight_yaux (s : State) (nbits w : Nat) :
    (s.withCommandInFlight nbits w).yaux = s.yaux := rfl
@[simp] theorem State.withCommandInFlight_ops (s : State) (nbits w : Nat) :
    (s.withCommandInFlight nbits w).ops = { s.ops with cmdl := BitVec.ofNat 16 (w % 2 ^ nbits) } := rfl
@[simp] theorem State.withCommandInFlight_left (s : State) (nbits w : Nat) :
    (s.withCommandInFlight nbits w).left = 0 := rfl
@[simp] theorem State.withCommandInFlight_resets (s : State) (nbits w : Nat) :
    (s.withCommandInFlight nbits w).resets = s.resets := rfl
@[simp] theorem State.withCommandInFlight_host (s : State) (nbits w : Nat) :
    (s.withCommandInFlight nbits w).host = HostEdge.idle :: s.host := rfl

/-- The ports at the coming edge are the head of the host's list. -/
@[simp] theorem State.ports_cons (s : State) (e : HostEdge) (rest : List HostEdge) :
    ({ s with host := e :: rest } : State).ports = e := rfl

/-- With the host's list used up, nothing is driven. -/
@[simp] theorem State.ports_nil (s : State) : ({ s with host := [] } : State).ports = HostEdge.idle := rfl

/-- The edges after the coming one. -/
@[simp] theorem State.afterEdge_cons (s : State) (e : HostEdge) (rest : List HostEdge) :
    ({ s with host := e :: rest } : State).afterEdge = { s with host := rest } := rfl

@[simp] theorem State.ports_withCommandInFlight (s : State) (nbits w : Nat) :
    (s.withCommandInFlight nbits w).ports = HostEdge.idle := rfl

end Sys2Proof.Machine
end

