-- ==== Sys2Proof/Laws/Exec.lean ====
section
/-! SUPPORT. What a command and a step can do, said once: every command completes with its result, and a step is one of
the five kinds. -/
namespace Sys2Proof.Machine

/-- (STATUS, Y, YAUX) of a command, as one function of the operand registers (30_encoding.md R110, R111). -/
def resultOf : Instr → OperandRegs → Result
  | .gfAdd f => gfAddResult f
  | .gfMul f => gfMulResult f
  | .gfDiv f => gfDivResult f
  | .gfPow f => gfPowResult f
  | .gfInv f => gfInvResult f
  | .gfMul2 f => gfMul2Result f
  | .expRd f => expRdResult f
  | .logRd f => logRdResult f
  | .genRd f => genRdResult f
  | .pScale f => pScaleResult f
  | .pMul f => pMulResult f
  | .pMulm f => pMulmResult f
  | .pMod f => pModResult f
  | .pEval f => pEvalResult f
  | .pDeriv f => pDerivResult f
  | .pOrder f => pOrderResult f
  | .pSize f => pSizeResult f
  | .rsEncode f => rsEncodeResult f
  | .rsSyndrome f => rsSyndromeResult f
  | .rsErasloc f => rsEraslocResult f
  | .rsFsynd f => rsFsyndResult f
  | .rsBm f => rsBmResult f
  | .rsChien f => rsChienResult f
  | .rsForney f => rsForneyResult f
  | .rsDecode f => rsDecodeResult f

/-- Every command completes, with its result. -/
theorem exec_eq (i : Instr) (s : State) : exec i s = .next (s.complete (resultOf i s.ops)) := by
  cases i <;> rfl

/-- What `exec` answers determines its next state. -/
theorem exec_next_iff (i : Instr) (s t : State) : exec i s = .next t ↔ t = s.complete (resultOf i s.ops) := by
  rw [exec_eq]
  constructor
  · intro h
    injection h with h
    exact h.symm
  · intro h
    rw [h]

/-- The edge that ends a LATENCY completes the command in flight, or completes it as illegal. -/
theorem completeEdge_eq (s : State) : completeEdge s = .next (s.complete
    (match decode s.ops.cmdl with
      | .ok i => resultOf i s.ops
      | .error _ => .fail .illegalCommand)) := by
  unfold completeEdge State.command
  cases decode s.ops.cmdl with
  | ok i => exact exec_eq i s
  | error e => rfl

/-- A step is one of the five kinds, with the condition of each (10_state.md R40). -/
theorem step_cases (s t : State) (h : step s = .next t) :
    (s.ports.rst = true ∧ t = s.afterEdge.resetEdge) ∨
    (s.ports.rst = false ∧ s.busy = false ∧ s.ports.cmdValid = true ∧ t = s.afterEdge.accept s.ports) ∨
    (s.ports.rst = false ∧ s.busy = true ∧ s.left = 0 ∧ t = s.afterEdge.complete
      (match decode s.ops.cmdl with
        | .ok i => resultOf i s.ops
        | .error _ => .fail .illegalCommand)) ∨
    (s.ports.rst = false ∧ s.busy = true ∧ s.left ≠ 0 ∧ t = s.afterEdge.wait) ∨
    (s.ports.rst = false ∧ s.busy = false ∧ s.ports.cmdValid = false ∧ t = s.afterEdge) := by
  cases hr : s.ports.rst <;> cases hb : s.busy <;> cases hv : s.ports.cmdValid <;>
    by_cases hl : s.left = 0 <;>
    simp [step, State.stepKind, hr, hb, hv, hl, completeEdge_eq] at h ⊢ <;> exact h.symm

/-- `ok(y, aux)` field by field (00_scope.md R11). -/
@[simp] theorem Result.okAux_status (y aux : Nat) : (Result.okAux y aux).status = 0x0#4 := rfl
@[simp] theorem Result.okAux_y (y aux : Nat) : (Result.okAux y aux).y = BitVec.ofNat 64 y := rfl
@[simp] theorem Result.okAux_yaux (y aux : Nat) : (Result.okAux y aux).yaux = BitVec.ofNat 16 aux := rfl

/-- `ok(y)` field by field (00_scope.md R11). -/
@[simp] theorem Result.ok_status (y : Nat) : (Result.ok y).status = 0x0#4 := rfl
@[simp] theorem Result.ok_y (y : Nat) : (Result.ok y).y = BitVec.ofNat 64 y := rfl
@[simp] theorem Result.ok_yaux (y : Nat) : (Result.ok y).yaux = 0#16 := rfl

/-- `fail(Code)` field by field (60_exceptions.md R333). -/
@[simp] theorem Result.fail_status (c : Code) : (Result.fail c).status = c.bits := rfl
@[simp] theorem Result.fail_y (c : Code) : (Result.fail c).y = 0#64 := rfl
@[simp] theorem Result.fail_yaux (c : Code) : (Result.fail c).yaux = 0#16 := rfl

/-- `fitOrFail` gives the product or refuses it (41_polynomial_engine.md R181). -/
theorem fitOrFail_cases (f : Field) (r : Nat) :
    (r < 2 ^ (f.slots * f.m) ∧ fitOrFail f r = .ok r) ∨
    (2 ^ (f.slots * f.m) ≤ r ∧ fitOrFail f r = .fail .preconditionViolated) := by
  unfold fitOrFail
  by_cases h : r < 2 ^ (f.slots * f.m)
  · left
    simp [Nat.shiftRight_eq_div_pow, Nat.div_eq_of_lt h, h]
  · right
    have h' : 2 ^ (f.slots * f.m) ≤ r := Nat.le_of_not_lt h
    have : r / 2 ^ (f.slots * f.m) ≠ 0 := Nat.ne_of_gt (Nat.div_pos h' (Nat.two_pow_pos _))
    simp [Nat.shiftRight_eq_div_pow, this, h']

end Sys2Proof.Machine
end

