-- ==== Sys2Proof/Laws/Operands.lean ====
section
/-! SUPPORT. The operand checks as bounds: a register's value passes a class check exactly when it is below a power of
two (30_encoding.md R103). -/
namespace Sys2Proof.Machine

/-- v[…:n] = 0 says that v < 2^n. -/
theorem shiftRight_beq_zero_iff (v n : Nat) : (v >>> n == 0) = true ↔ v < 2 ^ n := by
  rw [beq_iff_eq, Nat.shiftRight_eq_div_pow, Nat.div_eq_zero_iff]
  have := Nat.two_pow_pos n
  omega

theorem isScal_iff (f : Field) (v : Nat) : isScal f v = true ↔ v < 2 ^ f.m := shiftRight_beq_zero_iff v f.m

theorem isPoly_iff (f : Field) (v : Nat) : isPoly f v = true ↔ v < 2 ^ (f.slots * f.m) :=
  shiftRight_beq_zero_iff v (f.slots * f.m)

theorem isMask_iff (n v : Nat) : isMask n v = true ↔ v < 2 ^ n := shiftRight_beq_zero_iff v n

theorem isPow8_iff (v : Nat) : isPow8 v = true ↔ v < 256 := shiftRight_beq_zero_iff v 8

theorem fitsSize_iff (v size : Nat) : fitsSize v size = true ↔ v < 2 ^ size := shiftRight_beq_zero_iff v size

theorem isKchk_iff (f : Field) (v : Nat) : isKchk f v = true ↔ 1 ≤ v ∧ v ≤ f.kmax := by
  simp [isKchk]

theorem isPsize_iff (f : Field) (v : Nat) : isPsize f v = true ↔ v % f.m = 0 := by
  simp [isPsize]

theorem isRsize_iff (f : Field) (v : Nat) : isRsize f v = true ↔ v % f.m = 0 ∧ f.m ≤ v ∧ v ≤ f.n * f.m := by
  simp [isRsize, and_assoc]

theorem isIndex_iff (f : Field) (v : Nat) : isIndex f v = true ↔ v < f.t := by
  simp [isIndex]

/-- The 1 bits below n are at most n. -/
theorem onesBelow_le (v n : Nat) : onesBelow v n ≤ n := by
  induction n with
  | zero => exact Nat.le_refl 0
  | succ n ih =>
    unfold onesBelow
    split <;> omega

/-- popcount as the length of the list of the positions a mask names. -/
theorem onesBelow_eq_length (v n : Nat) :
    onesBelow v n = ((List.range n).filter fun j => v.testBit j).length := by
  induction n with
  | zero => rfl
  | succ n ih =>
    rw [onesBelow, ih, List.range_succ, List.filter_append, List.length_append]
    cases h : v.testBit n <;> simp [h]

end Sys2Proof.Machine
end

