-- ==== Sys2Proof/Laws/PerInstr.lean ====
section
/-! SUPPORT. A statement made per command: its encoded word is legal, and agrees with the command's row of
spec/opcode_table.json under the mask 0xFFDF (30_encoding.md R105). -/
namespace Sys2Proof.Laws.EncodedWordLegal

/-- The value of a command's row under the mask 0xFFDF (spec/opcode_table.json, "match"). -/
def tableMatch : Instr → Half
  | .gfAdd _ => 0x0001#16
  | .gfMul _ => 0x0002#16
  | .gfDiv _ => 0x0003#16
  | .gfPow _ => 0x0004#16
  | .gfInv _ => 0x0005#16
  | .gfMul2 _ => 0x0006#16
  | .expRd _ => 0x0007#16
  | .logRd _ => 0x0008#16
  | .genRd _ => 0x0009#16
  | .pScale _ => 0x0010#16
  | .pMul _ => 0x0011#16
  | .pMulm _ => 0x0012#16
  | .pMod _ => 0x0013#16
  | .pEval _ => 0x0014#16
  | .pDeriv _ => 0x0015#16
  | .pOrder _ => 0x0016#16
  | .pSize _ => 0x0017#16
  | .rsEncode _ => 0x0018#16
  | .rsSyndrome _ => 0x0019#16
  | .rsErasloc _ => 0x001A#16
  | .rsFsynd _ => 0x001B#16
  | .rsBm _ => 0x001C#16
  | .rsChien _ => 0x001D#16
  | .rsForney _ => 0x001E#16
  | .rsDecode _ => 0x001F#16

/-- The command is well formed, its word is legal, and its word has the row's fixed bits. -/
def Statement (i : Instr) : Prop :=
  i.wellFormed = true ∧ wordWellFormed (encode i) = true ∧ encode i &&& 0xFFDF#16 = tableMatch i

theorem gfAdd (f : Field) : Statement (.gfAdd f) := by
  refine ⟨rfl, ?_, ?_⟩ <;> cases f <;> decide
theorem gfMul (f : Field) : Statement (.gfMul f) := by
  refine ⟨rfl, ?_, ?_⟩ <;> cases f <;> decide
theorem gfDiv (f : Field) : Statement (.gfDiv f) := by
  refine ⟨rfl, ?_, ?_⟩ <;> cases f <;> decide
theorem gfPow (f : Field) : Statement (.gfPow f) := by
  refine ⟨rfl, ?_, ?_⟩ <;> cases f <;> decide
theorem gfInv (f : Field) : Statement (.gfInv f) := by
  refine ⟨rfl, ?_, ?_⟩ <;> cases f <;> decide
theorem gfMul2 (f : Field) : Statement (.gfMul2 f) := by
  refine ⟨rfl, ?_, ?_⟩ <;> cases f <;> decide
theorem expRd (f : Field) : Statement (.expRd f) := by
  refine ⟨rfl, ?_, ?_⟩ <;> cases f <;> decide
theorem logRd (f : Field) : Statement (.logRd f) := by
  refine ⟨rfl, ?_, ?_⟩ <;> cases f <;> decide
theorem genRd (f : Field) : Statement (.genRd f) := by
  refine ⟨rfl, ?_, ?_⟩ <;> cases f <;> decide
theorem pScale (f : Field) : Statement (.pScale f) := by
  refine ⟨rfl, ?_, ?_⟩ <;> cases f <;> decide
theorem pMul (f : Field) : Statement (.pMul f) := by
  refine ⟨rfl, ?_, ?_⟩ <;> cases f <;> decide
theorem pMulm (f : Field) : Statement (.pMulm f) := by
  refine ⟨rfl, ?_, ?_⟩ <;> cases f <;> decide
theorem pMod (f : Field) : Statement (.pMod f) := by
  refine ⟨rfl, ?_, ?_⟩ <;> cases f <;> decide
theorem pEval (f : Field) : Statement (.pEval f) := by
  refine ⟨rfl, ?_, ?_⟩ <;> cases f <;> decide
theorem pDeriv (f : Field) : Statement (.pDeriv f) := by
  refine ⟨rfl, ?_, ?_⟩ <;> cases f <;> decide
theorem pOrder (f : Field) : Statement (.pOrder f) := by
  refine ⟨rfl, ?_, ?_⟩ <;> cases f <;> decide
theorem pSize (f : Field) : Statement (.pSize f) := by
  refine ⟨rfl, ?_, ?_⟩ <;> cases f <;> decide
theorem rsEncode (f : Field) : Statement (.rsEncode f) := by
  refine ⟨rfl, ?_, ?_⟩ <;> cases f <;> decide
theorem rsSyndrome (f : Field) : Statement (.rsSyndrome f) := by
  refine ⟨rfl, ?_, ?_⟩ <;> cases f <;> decide
theorem rsErasloc (f : Field) : Statement (.rsErasloc f) := by
  refine ⟨rfl, ?_, ?_⟩ <;> cases f <;> decide
theorem rsFsynd (f : Field) : Statement (.rsFsynd f) := by
  refine ⟨rfl, ?_, ?_⟩ <;> cases f <;> decide
theorem rsBm (f : Field) : Statement (.rsBm f) := by
  refine ⟨rfl, ?_, ?_⟩ <;> cases f <;> decide
theorem rsChien (f : Field) : Statement (.rsChien f) := by
  refine ⟨rfl, ?_, ?_⟩ <;> cases f <;> decide
theorem rsForney (f : Field) : Statement (.rsForney f) := by
  refine ⟨rfl, ?_, ?_⟩ <;> cases f <;> decide
theorem rsDecode (f : Field) : Statement (.rsDecode f) := by
  refine ⟨rfl, ?_, ?_⟩ <;> cases f <;> decide

end Sys2Proof.Laws.EncodedWordLegal
end

