-- ==== Sys2Proof/Laws/Poly.lean ====
section
/-! SUPPORT. Field elements and packed polynomials, operation by operation: bounds, and the slots of each result
(00_scope.md R9, 41_polynomial_engine.md R179 to R185). -/
namespace Sys2Proof.Machine

/-! ## Field elements stay in range (40_field_engine.md R140) -/

theorem m_pos (f : Field) : 0 < f.m := by cases f <;> decide

theorem slots_pos (f : Field) : 0 < f.slots := by cases f <;> decide

/-- Every EXP entry is a field element. -/
theorem expRom_lt (f : Field) (i : Nat) : expRom f i < 2 ^ f.m := by
  have h : ∀ (l : List Nat) (b : Nat), 0 < b → (∀ x ∈ l, x < b) → l.getD i 0 < b := by
    intro l b hb hl
    rw [List.getD_eq_getElem?_getD]
    cases hi : l[i]? with
    | none => exact hb
    | some x => exact hl x (List.mem_of_getElem? hi)
  exact h _ _ (Nat.two_pow_pos _) (by cases f <;> decide)

theorem gfMul_lt (f : Field) (a b : Nat) : gfMul f a b < 2 ^ f.m := by
  unfold gfMul
  split
  · exact expRom_lt f _
  · exact Nat.two_pow_pos _

theorem gfDiv_lt (f : Field) (a b q : Nat) (h : gfDiv f a b = some q) : q < 2 ^ f.m := by
  unfold gfDiv at h
  split at h
  · cases h
  · cases h
    exact Nat.two_pow_pos _
  · cases h
    exact expRom_lt f _

/-! ## Slots -/

theorem slot_lt (f : Field) (p i : Nat) : slot f p i < 2 ^ f.m := Nat.mod_lt _ (Nat.two_pow_pos _)

@[simp] theorem slot_zero (f : Field) (i : Nat) : slot f 0 i = 0 := by simp [slot]

/-- Bit b of slot i is bit m·i + b of the word. -/
theorem testBit_slot (f : Field) (p i b : Nat) :
    (slot f p i).testBit b = (decide (b < f.m) && p.testBit (f.m * i + b)) := by
  simp [slot, Nat.testBit_mod_two_pow, Nat.testBit_shiftRight]

theorem slot_xor (f : Field) (p q i : Nat) : slot f (p ^^^ q) i = slot f p i ^^^ slot f q i := by
  apply Nat.eq_of_testBit_eq
  intro b
  simp only [testBit_slot, Nat.testBit_xor]
  cases decide (b < f.m) <;> simp

/-- Two words with the same slots everywhere are equal. -/
theorem eq_of_slots (f : Field) (p q : Nat) (h : ∀ i, slot f p i = slot f q i) : p = q := by
  apply Nat.eq_of_testBit_eq
  intro n
  have hn := congrArg (fun v => v.testBit (n % f.m)) (h (n / f.m))
  simp only [testBit_slot, Nat.mod_lt _ (m_pos f), decide_true, Bool.true_and, Nat.div_add_mod] at hn
  exact hn

/-- A word below 2^(m·n) has no slot at or above n. -/
theorem slot_eq_zero_of_lt (f : Field) (p n i : Nat) (h : p < 2 ^ (f.m * n)) (hi : n ≤ i) : slot f p i = 0 := by
  have : p < 2 ^ (f.m * i) := Nat.lt_of_lt_of_le h (Nat.pow_le_pow_right (by decide) (Nat.mul_le_mul_left _ hi))
  simp [slot, Nat.shiftRight_eq_div_pow, Nat.div_eq_of_lt this]

/-- Shifting by k slots moves slot i to slot i + k. -/
theorem slot_shiftLeft (f : Field) (p k i : Nat) :
    slot f (p <<< (f.m * k)) i = if k ≤ i then slot f p (i - k) else 0 := by
  apply Nat.eq_of_testBit_eq
  intro b
  rw [testBit_slot, Nat.testBit_shiftLeft]
  by_cases hb : b < f.m
  · by_cases hk : k ≤ i
    · obtain ⟨d, rfl⟩ := Nat.exists_eq_add_of_le hk
      have h1 : f.m * (k + d) + b ≥ f.m * k := by rw [Nat.mul_add]; omega
      have h2 : f.m * (k + d) + b - f.m * k = f.m * d + b := by rw [Nat.mul_add]; omega
      simp [hb, h1, h2, testBit_slot]
    · have h1 : ¬ f.m * k ≤ f.m * i + b := by
        have : f.m * (i + 1) ≤ f.m * k := Nat.mul_le_mul_left _ (by omega)
        rw [Nat.mul_add] at this
        omega
      simp [hk, h1]
  · simp only [hb, decide_false, Bool.false_and]
    split
    · simp [testBit_slot, hb]
    · simp

/-! ## Packing -/

theorem packUpTo_lt (f : Field) (g : Nat → Nat) (hg : ∀ i, g i < 2 ^ f.m) (n : Nat) :
    packUpTo f g n < 2 ^ (f.m * n) := by
  induction n with
  | zero => simp [packUpTo]
  | succ n ih =>
    rw [packUpTo, Nat.shiftLeft_eq, Nat.mul_add, Nat.mul_one, Nat.pow_add]
    have h1 : g n + 1 ≤ 2 ^ f.m := hg n
    have h2 : (g n + 1) * 2 ^ (f.m * n) ≤ 2 ^ f.m * 2 ^ (f.m * n) := Nat.mul_le_mul_right _ h1
    rw [Nat.add_mul, Nat.one_mul] at h2
    rw [Nat.mul_comm (2 ^ (f.m * n))]
    omega

/-- The slots of a packed word are what was packed. -/
theorem slot_packUpTo (f : Field) (g : Nat → Nat) (hg : ∀ i, g i < 2 ^ f.m) (n i : Nat) :
    slot f (packUpTo f g n) i = if i < n then g i else 0 := by
  induction n with
  | zero => simp [packUpTo]
  | succ n ih =>
    have hlt := packUpTo_lt f g hg n
    have hx : packUpTo f g n + g n <<< (f.m * n) = packUpTo f g n ^^^ (g n <<< (f.m * n)) := by
      rw [Nat.add_comm, Nat.shiftLeft_add_eq_or_of_lt hlt]
      apply Nat.eq_of_testBit_eq
      intro b
      rw [Nat.testBit_or, Nat.testBit_xor, Nat.testBit_shiftLeft]
      by_cases hb : f.m * n ≤ b
      · have : (packUpTo f g n).testBit b = false :=
          Nat.testBit_lt_two_pow (Nat.lt_of_lt_of_le hlt (Nat.pow_le_pow_right (by decide) hb))
        simp [this]
      · simp [hb]
    rw [packUpTo, hx, slot_xor, ih, slot_shiftLeft]
    rcases Nat.lt_trichotomy i n with h | h | h
    · simp [h, Nat.not_le.mpr h, Nat.lt_succ_of_lt h]
    · subst h
      simp [slot, Nat.mod_eq_of_lt (hg i)]
    · have h0 : slot f (g n) (i - n) = 0 :=
        slot_eq_zero_of_lt f (g n) 1 (i - n) (by simpa using hg n) (by omega)
      have h1 : ¬ i < n := by omega
      have h2 : ¬ i < n + 1 := by omega
      simp [h1, h2, Nat.le_of_lt h, h0]

theorem xorUpTo_lt (g : Nat → Nat) (w n : Nat) (hg : ∀ i, g i < 2 ^ w) : xorUpTo g n < 2 ^ w := by
  induction n with
  | zero => exact Nat.two_pow_pos _
  | succ n ih => exact Nat.xor_lt_two_pow ih (hg n)

/-! ## The operations on packed words -/

theorem scale_lt (f : Field) (p x : Nat) : scale f p x < 2 ^ (f.m * f.slots) :=
  packUpTo_lt f _ (fun _ => gfMul_lt f _ _) _

/-- scale multiplies each of the SLOTS_m slots (R180). -/
theorem slot_scale (f : Field) (p x i : Nat) :
    slot f (scale f p x) i = if i < f.slots then gfMul f (slot f p i) x else 0 :=
  slot_packUpTo f _ (fun _ => gfMul_lt f _ _) _ _

theorem prodCoeff_lt (f : Field) (p q n : Nat) : prodCoeff f p q n < 2 ^ f.m :=
  xorUpTo_lt _ _ _ (fun _ => gfMul_lt f _ _)

/-- The slots of prod are the product's coefficients (R179). -/
theorem slot_prod (f : Field) (p q n : Nat) :
    slot f (prod f p q) n = if n < 2 * f.slots - 1 then prodCoeff f p q n else 0 :=
  slot_packUpTo f _ (prodCoeff_lt f p q) _ _

theorem prod_lt (f : Field) (p q : Nat) : prod f p q < 2 ^ (f.m * (2 * f.slots - 1)) :=
  packUpTo_lt f _ (prodCoeff_lt f p q) _

/-- force1 sets slot 0 to 1 and keeps the others (R182). -/
theorem slot_force1 (f : Field) (q i : Nat) : slot f (force1 f q) i = if i = 0 then 1 else slot f q i := by
  apply Nat.eq_of_testBit_eq
  intro b
  rw [testBit_slot, force1, Nat.testBit_or, Nat.testBit_shiftLeft, Nat.testBit_shiftRight]
  by_cases hb : b < f.m
  · by_cases hi : i = 0
    · subst hi
      simp [hb]
    · have h1 : f.m ≤ f.m * i + b := by
        have : f.m * 1 ≤ f.m * i := Nat.mul_le_mul_left _ (by omega)
        omega
      have h2 : f.m + (f.m * i + b - f.m) = f.m * i + b := by omega
      have h3 : (1 : Nat).testBit (f.m * i + b) = false := by
        apply Nat.testBit_lt_two_pow
        calc 1 < 2 ^ 1 := by decide
          _ ≤ 2 ^ (f.m * i + b) := Nat.pow_le_pow_right (by decide) (Nat.le_trans (m_pos f) h1)
      simp [hb, hi, h1, h2, h3, testBit_slot]
  · simp only [hb, decide_false, Bool.false_and]
    split
    · symm
      apply Nat.testBit_lt_two_pow
      calc 1 < 2 ^ 1 := by decide
        _ ≤ 2 ^ b := Nat.pow_le_pow_right (by decide) (Nat.le_trans (m_pos f) (Nat.le_of_not_lt hb))
    · simp [testBit_slot, hb]

/-- lowk keeps the k low slots (43_decoder_stages.md R250). -/
theorem slot_lowk (f : Field) (v k i : Nat) : slot f (lowk f v k) i = if i < k then slot f v i else 0 := by
  apply Nat.eq_of_testBit_eq
  intro b
  rw [testBit_slot, lowk, Nat.testBit_mod_two_pow]
  by_cases hb : b < f.m
  · by_cases hi : i < k
    · have : f.m * i + b < k * f.m := by
        have := Nat.mul_le_mul_left f.m (show i + 1 ≤ k from hi)
        rw [Nat.mul_add, Nat.mul_comm f.m k] at this
        omega
      simp [hb, hi, this, testBit_slot]
    · have : ¬ f.m * i + b < k * f.m := by
        have := Nat.mul_le_mul_left f.m (Nat.le_of_not_lt hi)
        rw [Nat.mul_comm f.m k] at this
        omega
      simp [hi, this]
  · simp only [hb, decide_false, Bool.false_and]
    split
    · simp [testBit_slot, hb]
    · simp

theorem lowk_lt (f : Field) (v k : Nat) : lowk f v k < 2 ^ (k * f.m) := Nat.mod_lt _ (Nat.two_pow_pos _)

/-- The slots of the formal derivative (R185). -/
theorem slot_polyDeriv (f : Field) (p j : Nat) :
    slot f (polyDeriv f p) j = if j < f.slots then derivCoeff f p j else 0 := by
  apply slot_packUpTo
  intro i
  unfold derivCoeff
  split
  · exact slot_lt f _ _
  · exact Nat.two_pow_pos _

/-- The scan from the top finds the highest nonzero slot below n, or none (R186). -/
theorem degBelow_cases (f : Field) (p n : Nat) :
    (degBelow f p n = none ∧ ∀ i, i < n → slot f p i = 0) ∨
    (∃ d, degBelow f p n = some d ∧ d < n ∧ slot f p d ≠ 0 ∧ ∀ i, d < i → i < n → slot f p i = 0) := by
  induction n with
  | zero => exact .inl ⟨rfl, fun i hi => absurd hi (Nat.not_lt_zero i)⟩
  | succ n ih =>
    rw [degBelow]
    by_cases h : slot f p n = 0
    · simp only [ne_eq, h, not_true_eq_false, ↓reduceIte]
      rcases ih with ⟨h1, h2⟩ | ⟨d, h1, h2, h3, h4⟩
      · refine .inl ⟨h1, fun i hi => ?_⟩
        rcases Nat.lt_succ_iff_lt_or_eq.mp hi with hi | rfl
        · exact h2 i hi
        · exact h
      · refine .inr ⟨d, h1, Nat.lt_succ_of_lt h2, h3, fun i hi hn => ?_⟩
        rcases Nat.lt_succ_iff_lt_or_eq.mp hn with hn | rfl
        · exact h4 i hi hn
        · exact h
    · simp only [ne_eq, h, not_false_eq_true, ↓reduceIte]
      exact .inr ⟨n, rfl, Nat.lt_succ_self n, h, fun i h1 h2 => absurd h2 (by omega)⟩

end Sys2Proof.Machine
end

