-- ==== Sys2Proof/Tests/Slice0.lean ====
section
/-! SUPPORT. The model's own tests: words written out from the spec's encodings, vectors of 95_test_vectors.md, one step
each, and for every statement that has hypotheses a concrete state that meets them, clause by clause. -/
namespace Sys2Proof.Tests

open Sys2Proof.Machine Sys2Proof.Safety

/-- A state with the given operand registers, otherwise as after reset. -/
def opsState (a b sza szb k em tm : Nat) : State :=
  { State.reset with ops := ⟨0#16, BitVec.ofNat 64 a, BitVec.ofNat 64 b, BitVec.ofNat 8 sza, BitVec.ofNat 8 szb,
      BitVec.ofNat 8 k, BitVec.ofNat 16 em, BitVec.ofNat 16 tm⟩ }

/-- A state with the command word w in flight, due at the next edge. -/
def inFlight (w : Nat) : State := State.reset.withFetchWord 16 w

/-- The outcome is a next state with this STATUS, Y and YAUX, BUSY = 0 and DONE = 1. -/
def yields (o : Host.Outcome State Fault Refusal) (code y aux : Nat) : Bool :=
  match o with
  | .next t => t.status.toNat == code && t.y.toNat == y && t.yaux.toNat == aux && !t.busy && t.done
  | .fault _ => false
  | .refused _ => false

/-- The outcome is a next state that passes the test. -/
def nextHas (o : Host.Outcome State Fault Refusal) (p : State → Bool) : Bool :=
  match o with
  | .next t => p t
  | .fault _ => false
  | .refused _ => false

/-! ## Well-formedness (30_encoding.md R102, R106): an ill-formed word for each check -/

/-- RSV bit 6 set beside GF_ADD: the RSV check refuses it, the OP check alone would not. -/
theorem test_rsvIsZero_refuses : rsvIsZero 0x0041#16 = false ∧ opIsAssigned 0x0041#16 = true := by decide

/-- Reserved opcode 0x0A: the OP check refuses it, the RSV check alone would not. -/
theorem test_opIsAssigned_refuses : opIsAssigned 0x000A#16 = false ∧ rsvIsZero 0x000A#16 = true := by decide

/-- A legal word passes both; the two ill-formed ones are not well formed. -/
theorem test_wordWellFormed : wordWellFormed 0x003F#16 = true ∧ wordWellFormed 0x8001#16 = false ∧
    wordWellFormed 0x0020#16 = false := by decide

/-! ## Decoding (30_encoding.md R100, R105): RSV (10 bits), F (1 bit), OP (5 bits) written out -/

theorem test_decode_gfAdd : decode 0b0000000000_0_00001#16 = .ok (.gfAdd .gf8) := by decide
theorem test_decode_logRd : decode 0b0000000000_1_01000#16 = .ok (.logRd .gf16) := by decide
theorem test_decode_pMod : decode 0b0000000000_1_10011#16 = .ok (.pMod .gf16) := by decide
theorem test_decode_rsEncode : decode 0b0000000000_0_11000#16 = .ok (.rsEncode .gf8) := by decide
theorem test_decode_rsBm : decode 0b0000000000_0_11100#16 = .ok (.rsBm .gf8) := by decide
theorem test_decode_rsDecode : decode 0b0000000000_1_11111#16 = .ok (.rsDecode .gf16) := by decide
theorem test_decode_rsv_first : decode 0b0000000001_0_01010#16 = .error .reservedField := by decide
theorem test_decode_reserved_op : decode 0b0000000000_1_01111#16 = .error .reservedOpcode := by decide
theorem test_decodeTableWord : decodeTableWord 16 0x0018 = some (.rsEncode .gf8) ∧ decodeTableWord 16 0x0000 = none := by
  decide
theorem test_encode_rsDecode : encode (.rsDecode .gf16) = 0x003F#16 := by decide

/-! ## Vectors of 95_test_vectors.md (the row's own text in each comment) -/

/-- L2.0: GF_ADD.16 A=0xC, B=0x5. -/
theorem test_gfAdd_ok : yields (exec (.gfAdd .gf16) (opsState 0xC 0x5 0 0 0 0 0)) 0 0x9 0 = true := by decide
/-- L2.1: A ≥ 2^m is refused. -/
theorem test_gfAdd_range : yields (exec (.gfAdd .gf8) (opsState 0o10 0o1 0 0 0 0 0)) 6 0 0 = true := by decide
/-- L2.1: GF_MUL.16 A=0xF, B=0xF. -/
theorem test_gfMul_ok : yields (exec (.gfMul .gf16) (opsState 0xF 0xF 0 0 0 0 0)) 0 0xA 0 = true := by decide
/-- L2.1: B ≥ 2^m is refused. -/
theorem test_gfMul_range : yields (exec (.gfMul .gf8) (opsState 0o7 0o20 0 0 0 0 0)) 6 0 0 = true := by decide
/-- L2.1: 1/α = α^14. -/
theorem test_gfDiv_ok : yields (exec (.gfDiv .gf16) (opsState 1 2 0 0 0 0 0)) 0 0x9 0 = true := by decide
/-- L2.1: b = 0 wins over a = 0. -/
theorem test_gfDiv_zero : yields (exec (.gfDiv .gf8) (opsState 0 0 0 0 0 0 0)) 1 0 0 = true := by decide
/-- L2.1: α^255 = 1. -/
theorem test_gfPow_ok : yields (exec (.gfPow .gf16) (opsState 2 0xFF 0 0 0 0 0)) 0 1 0 = true := by decide
/-- L2.1: x = 0 is refused, even with power 0. -/
theorem test_gfPow_zero : yields (exec (.gfPow .gf8) (opsState 0 0 0 0 0 0 0)) 5 0 0 = true := by decide
/-- L2.1: GF_INV.16 A=0x3. -/
theorem test_gfInv_ok : yields (exec (.gfInv .gf16) (opsState 3 0 0 0 0 0 0)) 0 0xE 0 = true := by decide
/-- L2.1: GF_INV.8 A=0o0. -/
theorem test_gfInv_zero : yields (exec (.gfInv .gf8) (opsState 0 0 0 0 0 0 0)) 5 0 0 = true := by decide
/-- L2.1: GF_MUL2.16 A=0xF. -/
theorem test_gfMul2_ok : yields (exec (.gfMul2 .gf16) (opsState 0xF 0 0 0 0 0 0)) 0 0xD 0 = true := by decide
/-- L2.1: GF_MUL2.8 A=0o10. -/
theorem test_gfMul2_range : yields (exec (.gfMul2 .gf8) (opsState 0o10 0 0 0 0 0 0)) 6 0 0 = true := by decide
/-- L2.1: the last entry. -/
theorem test_expRd_last : yields (exec (.expRd .gf16) (opsState 0x1D 0 0 0 0 0 0)) 0 0x9 0 = true := by decide
/-- L2.1: index ≥ T_4 = 30. -/
theorem test_expRd_range : yields (exec (.expRd .gf16) (opsState 0x1E 0 0 0 0 0 0)) 6 0 0 = true := by decide
/-- L2.1: LOG_RD.16 A=0x9. -/
theorem test_logRd_ok : yields (exec (.logRd .gf16) (opsState 0x9 0 0 0 0 0 0)) 0 0xE 0 = true := by decide
/-- L2.1: the sentinel. -/
theorem test_logRd_zero : yields (exec (.logRd .gf8) (opsState 0 0 0 0 0 0 0)) 5 0 0 = true := by decide
/-- L2.1: GEN_RD.16 K=14. -/
theorem test_genRd_last : yields (exec (.genRd .gf16) (opsState 0 0 0 0 14 0 0)) 0 0x111111111111111 0 = true := by decide
/-- L2.1: k > KMAX_3. -/
theorem test_genRd_range : yields (exec (.genRd .gf8) (opsState 0 0 0 0 7 0 0)) 6 0 0 = true := by decide
/-- L2.2: every slot times 3. -/
theorem test_pScale_ok : yields (exec (.pScale .gf8) (opsState 0o1230013 3 0 0 0 0 0)) 0 0o3650035 0 = true := by decide
/-- L2.2: bit 30 is outside the container. -/
theorem test_pScale_range : yields (exec (.pScale .gf8) (opsState 0o10000000000 1 0 0 0 0 0)) 6 0 0 = true := by decide
/-- L2.2: x^7·x^7 = x^14 fits. -/
theorem test_pMul_top : yields (exec (.pMul .gf16) (opsState 0x10000000 0x10000000 0 0 0 0 0)) 0 0x100000000000000 0 = true := by decide
/-- L2.2: x^7·x^8 = x^15 does not fit. -/
theorem test_pMul_overflow : yields (exec (.pMul .gf16) (opsState 0x10000000 0x100000000 0 0 0 0 0)) 6 0 0 = true := by decide
/-- L2.2: slot 0 of q taken as 1. -/
theorem test_pMulm_ok : yields (exec (.pMulm .gf8) (opsState 0o123 0o45 0 0 0 0 0)) 0 0o4253 0 = true := by decide
/-- L2.2: x^9·(1 + x) does not fit. -/
theorem test_pMulm_overflow : yields (exec (.pMulm .gf8) (opsState 0o1000000000 0o10 0 0 0 0 0)) 6 0 0 = true := by decide
/-- L2.2: the L1.5 check symbols. -/
theorem test_pMod_ok : yields (exec (.pMod .gf8) (opsState 0o1230000 0o13123 9 12 0 0 0)) 0 0o13 0 = true := by decide
/-- L2.2: t = 0 and p has a slot at t + k. -/
theorem test_pMod_wide : yields (exec (.pMod .gf8) (opsState 0o77 0o12 0 3 0 0 0)) 6 0 0 = true := by decide
/-- L2.2: only slots 0, 1. -/
theorem test_pEval_partial : yields (exec (.pEval .gf8) (opsState 0o1230013 2 6 0 0 0 0)) 0 1 0 = true := by decide
/-- L2.2: SZA > 30. -/
theorem test_pEval_range : yields (exec (.pEval .gf8) (opsState 0o1230013 1 33 0 0 0 0)) 6 0 0 = true := by decide
/-- L2.2: P_DERIV.16. -/
theorem test_pDeriv_ok : yields (exec (.pDeriv .gf16) (opsState 0xFEDCBA987654321 0 0 0 0 0 0)) 0 0xE0C0A08060402 0 = true := by decide
/-- L2.2: P_DERIV.8 A=0o7654321. -/
theorem test_pDeriv_ok8 : yields (exec (.pDeriv .gf8) (opsState 0o7654321 0 0 0 0 0 0)) 0 0o60402 0 = true := by decide
/-- L2.2: P_ORDER.16. -/
theorem test_pOrder_top : yields (exec (.pOrder .gf16) (opsState 0xF00000000000000 0 0 0 0 0 0)) 0 0xE 0 = true := by decide
/-- L2.2: zero polynomial. -/
theorem test_pOrder_zero : yields (exec (.pOrder .gf8) (opsState 0 0 0 0 0 0 0)) 5 0 0 = true := by decide
/-- L2.2: 60 bits. -/
theorem test_pSize_top : yields (exec (.pSize .gf16) (opsState 0xFEDCBA987654321 0 0 0 0 0 0)) 0 60 0 = true := by decide
/-- L2.2: P_SIZE(0) = 0. -/
theorem test_pSize_zero : yields (exec (.pSize .gf8) (opsState 0 0 0 0 0 0 0)) 0 0 0 = true := by decide
/-- L2.3: a full 11-symbol message. -/
theorem test_rsEncode_full : yields (exec (.rsEncode .gf16) (opsState 0x123456789AB 0 0 0 4 0 0)) 0 0x123456789ABBAE6 0 = true := by decide
/-- L2.3: bits above t·m = 9 are dropped. -/
theorem test_rsEncode_truncates : yields (exec (.rsEncode .gf8) (opsState 0o7777123 0 0 0 4 0 0)) 0 0o1230013 0 = true := by decide
/-- L2.4: slot 0 off by 3. -/
theorem test_rsSyndrome_ok : yields (exec (.rsSyndrome .gf16) (opsState 0x1232C7E 0 60 0 4 0 0)) 0 0x3333 0 = true := by decide
/-- L2.4: a codeword: YAUX bit 0 = 1. -/
theorem test_rsSyndrome_codeword : yields (exec (.rsSyndrome .gf8) (opsState 0o1230013 0 21 0 4 0 0)) 0 0 1 = true := by decide
/-- L2.4: 14 erasures fit. -/
theorem test_rsErasloc_full : yields (exec (.rsErasloc .gf16) (opsState 0 0 0 0 0 0x3FFF 0)) 0 0x24836CB5A7EFD91 0xE = true := by decide
/-- L2.4: 15 erasures do not fit. -/
theorem test_rsErasloc_overflow : yields (exec (.rsErasloc .gf16) (opsState 0 0 0 0 0 0x7FFF 0)) 6 0 0 = true := by decide
/-- L2.4: the P3 Forney syndromes. -/
theorem test_rsFsynd_ok : yields (exec (.rsFsynd .gf8) (opsState 0o4174 0o621 0 0 4 0 0)) 0 0o2144 0 = true := by decide
/-- L2.4: only k = 2 slots kept. -/
theorem test_rsFsynd_low : yields (exec (.rsFsynd .gf8) (opsState 0o2210 0o621 0 0 2 0 0)) 0 0o10 0 = true := by decide
/-- L2.4: the P3 locator, slots 2 and 3. -/
theorem test_rsBm_erasures : yields (exec (.rsBm .gf8) (opsState 0o2144 0 0 0 4 0b1100000 0)) 0 0o21 0x101 = true := by decide
/-- L2.4: L = 2 but deg C = 1. -/
theorem test_rsBm_cancelled : yields (exec (.rsBm .gf8) (opsState 0o7142 0 0 0 4 0 0)) 0 0o71 0x102 = true := by decide
/-- L2.4: position 6 not transmitted. -/
theorem test_rsChien_untransmitted : yields (exec (.rsChien .gf8) (opsState 0o621 0 21 0 0 0 0b111111)) 0 0b100000 1 = true := by decide
/-- L2.4: TM bit 6 ≥ n_r = 6. -/
theorem test_rsChien_range : yields (exec (.rsChien .gf8) (opsState 0o621 0 18 0 0 0 0b1111111)) 6 0 0 = true := by decide
/-- L2.4: the P3 magnitudes. -/
theorem test_rsForney_ok : yields (exec (.rsForney .gf8) (opsState 0o4174 0o7201 21 0 4 0b1100010 0)) 0 0o2500040 0 = true := by decide
/-- L2.4: Ψ = 1: Ψ′ = 0. -/
theorem test_rsForney_zero : yields (exec (.rsForney .gf8) (opsState 0o2210 1 21 0 4 1 0)) 1 0 0 = true := by decide
/-- L2.5: two erasures and one error. -/
theorem test_rsDecode_errata : yields (exec (.rsDecode .gf16) (opsState 0xE23456799ABBAE3 0 60 0 4 0x4001 0x7FFF)) 0 0x123456789ABBAE6 0x4081 = true := by decide +kernel
/-- L2.5: three errors (ROOT_COUNT_MISMATCH). -/
theorem test_rsDecode_mismatch : yields (exec (.rsDecode .gf8) (opsState 0o1230102 0 21 0 4 0 0b1111111)) 4 0 0 = true := by decide

/-! ## Steps (95_test_vectors.md P1, P4; 10_state.md R40) -/

/-- P1 edge 1: GF_MUL.16 A=3, B=5 is offered with one wait edge to come; then nothing is driven. -/
def offered : State :=
  { State.reset with host := [⟨false, true, 0x0022#16, 3#64, 5#64, 0#8, 0#8, 0#8, 0#16, 0#16, 1⟩] }

/-- P1: after the accept edge BUSY = 1, DONE = 0, and STATUS, Y and YAUX are as before. -/
theorem test_step_accepts : nextHas (step offered) (fun t => t.busy && !t.done && t.status == 0xF#4 &&
    t.ops.cmdl == 0x0022#16 && t.ops.b == 5#64 && t.left == 1) = true := by decide

/-- P1: with one wait edge, the third edge completes with OK, Y = 0xF. -/
theorem test_run_completes : yields (core.run 3 offered) 0 0xF 0 = true := by decide

/-- P4 step 1: RSV bit 6 set completes with ILLEGAL_COMMAND. -/
theorem test_step_illegal : yields (step (inFlight 0x0042)) 7 0 0 = true := by decide

/-- The placed word runs at the very next step: all operands are 0, so GF_DIV.8 divides by 0. -/
theorem test_step_runs_placed_word : yields (step (inFlight 0x0003)) 1 0 0 = true := by decide

/-- An edge with rst = 1. -/
def resetPorts : HostEdge := ⟨true, true, 0x0001#16, 1#64, 2#64, 0#8, 0#8, 0#8, 0#16, 0#16, 0⟩

/-- A command in flight with one wait edge left, and a host that resets at the coming edge. -/
def resetWhileBusy : State := { opsState 5 3 0 0 0 0 0 with busy := true, left := 1, y := 9#64, host := [resetPorts] }

/-- P4 step 6: reset abandons the command in flight and ignores cmd_valid. -/
theorem test_step_resets : nextHas (step resetWhileBusy) (fun t => !t.busy && !t.done && t.status == 0xF#4 &&
    t.y == 0#64 && t.yaux == 0#16) = true := by decide

/-! ## Witnesses: every statement's hypotheses are met, clause by clause -/

/-- A state due to complete the command word w at the next edge, with operands. -/
def dueWith (w : Nat) (s : State) : State :=
  { s with busy := true, left := 0, ops := { s.ops with cmdl := BitVec.ofNat 16 w } }

theorem witness_DecodeAndEncodeAgree :
    (∃ i : Instr, i.wellFormed = true) ∧ (∃ (w : Half) (i : Instr), decode w = .ok i) :=
  ⟨⟨.gfAdd .gf8, rfl⟩, ⟨0x003F#16, .rsDecode .gf16, by decide⟩⟩

/-- The lowest and the highest RSV bit, and the first and the last reserved opcode. -/
theorem witness_IllegalCommandsAcceptAndComplete :
    (∃ s : State, s.ports.rst = false ∧ s.busy = false ∧ s.ports.cmdValid = true ∧ s.ports.cmd.toNat / 2 ^ 6 ≠ 0) ∧
    (∃ s : State, s.ports.rst = false ∧ s.busy = false ∧ s.ports.cmdValid = true ∧
      s.ports.cmd.toNat % 32 ∈ [0x00, 0x0A, 0x0B, 0x0C, 0x0D, 0x0E, 0x0F]) ∧
    (∃ s : State, s.ops.cmdl.toNat / 2 ^ 6 ≠ 0) ∧
    (∃ s : State, s.ops.cmdl.toNat % 32 ∈ [0x00, 0x0A, 0x0B, 0x0C, 0x0D, 0x0E, 0x0F]) :=
  ⟨⟨{ State.reset with host := [⟨false, true, 0x0041#16, 0#64, 0#64, 0#8, 0#8, 0#8, 0#16, 0#16, 0⟩] }, by decide⟩,
    ⟨{ State.reset with host := [⟨false, true, 0x0020#16, 0#64, 0#64, 0#8, 0#8, 0#8, 0#16, 0#16, 0⟩] }, by decide⟩,
    ⟨inFlight 0x8001, by decide⟩, ⟨inFlight 0x000F, by decide⟩⟩

theorem witness_StepRunsTheDecodedCommand : ∃ (s : State) (i : Instr),
    s.ports.rst = false ∧ s.busy = true ∧ s.left = 0 ∧ decode s.ops.cmdl = .ok i :=
  ⟨inFlight 0x003F, .rsDecode .gf16, by decide⟩

/-- Two states that differ in every register GEN_RD does not list. -/
theorem witness_UnlistedOperandsAreIgnored : ∃ (i : Instr) (s t : State),
    AgreeOnListed i s.ops t.ops ∧ s.ops.a ≠ t.ops.a ∧ s.ops.tm ≠ t.ops.tm ∧ s.y ≠ t.y :=
  ⟨.genRd .gf8, opsState 1 2 3 4 6 5 6, { opsState 0 0 0 0 6 0 0 with y := 7#64 }, by decide⟩

theorem witness_EdgePerformsOneOfFiveSteps :
    (∃ s : State, s.ports.rst = true) ∧
    (∃ s : State, s.ports.rst = false ∧ s.busy = false ∧ s.ports.cmdValid = true) ∧
    (∃ s : State, s.ports.rst = false ∧ s.busy = true ∧ s.left = 0) ∧
    (∃ s : State, s.ports.rst = false ∧ s.busy = true ∧ s.left ≠ 0) ∧
    (∃ s : State, s.ports.rst = false ∧ s.busy = false ∧ s.ports.cmdValid = false) :=
  ⟨⟨resetWhileBusy, by decide⟩, ⟨offered, by decide⟩, ⟨inFlight 0x0001, by decide⟩,
    ⟨{ inFlight 0x0001 with left := 1 }, by decide⟩, ⟨State.reset, by decide⟩⟩

theorem witness_ResetGivesTheResetValues : ∃ s : State, s.ports.rst = true ∧ s.busy = true ∧ s.ports.cmdValid = true :=
  ⟨resetWhileBusy, by decide⟩

/-- A port change that could matter (another command, offered) while BUSY = 1, and one with no offer. -/
theorem witness_InputsAreSampledOnlyAtAccept :
    (∃ (s : State) (e e' : HostEdge), s.busy = true ∧ e.rst = e'.rst ∧ e ≠ e') ∧
    (∃ e e' : HostEdge, e.rst = e'.rst ∧ e.cmdValid = false ∧ e'.cmdValid = false ∧ e ≠ e') :=
  ⟨⟨inFlight 0x0001, HostEdge.idle, { HostEdge.idle with cmdValid := true, cmd := 0x001F#16 }, by decide⟩,
    ⟨HostEdge.idle, { HostEdge.idle with opa := 1#64 }, by decide⟩⟩

/-- An accept, which leaves BUSY = 1, and an idle edge after a completion. -/
theorem witness_ResultsStayUntilCompletionOrReset :
    (∃ s t : State, step s = .next t ∧ t.busy = true ∧ s.busy = false) ∧
    (∃ s t : State, step s = .next t ∧ s.busy = false ∧ s.done = true ∧ s.ports.rst = false ∧ s.ports.cmdValid = false) :=
  ⟨⟨offered, _, rfl, by decide⟩, ⟨{ State.reset with done := true, status := 0#4, y := 5#64 }, _, rfl, by decide⟩⟩

/-- An offer at a wait edge, and one at the completion edge. -/
theorem witness_OffersWhileBusyAcceptNothing :
    (∃ (s : State) (e : HostEdge), s.busy = true ∧ e.cmdValid = true ∧ e.rst = false ∧ s.left = 1) ∧
    (∃ (s : State) (e : HostEdge), s.busy = true ∧ e.cmdValid = true ∧ e.rst = false ∧ s.left = 0) :=
  ⟨⟨{ inFlight 0x0001 with left := 1 }, { HostEdge.idle with cmdValid := true, cmd := 0x001F#16 }, by decide⟩,
    ⟨inFlight 0x0001, { HostEdge.idle with cmdValid := true, cmd := 0x001F#16 }, by decide⟩⟩

/-- One wait edge, and a second offer at it. -/
theorem witness_AcceptedCommandCompletesAfterItsLatency : ∃ (s : State) (i : Instr),
    s.busy = false ∧ s.ports.rst = false ∧ s.ports.cmdValid = true ∧
    (∀ e ∈ s.host.take (s.ports.waits + 2), e.rst = false) ∧ decode s.ports.cmd = .ok i ∧ s.ports.waits = 1 :=
  ⟨{ offered with host := offered.host ++ [{ HostEdge.idle with cmdValid := true, cmd := 0x001F#16 }] },
    .gfMul .gf16, by decide⟩

theorem witness_StepKeepsTheRegisterInvariant : ∃ s t : State, Inv s ∧ step s = .next t ∧ s.busy = true :=
  ⟨{ inFlight 0x0001 with left := 1 }, _, by decide, rfl, rfl⟩

/-- A command that fails, and an illegal word. -/
theorem witness_CommandsChangeOnlyTheResultRegisters :
    (∃ (i : Instr) (s t : State), exec i s = .next t ∧ t.status ≠ 0x0#4) ∧
    (∃ s t : State, completeEdge s = .next t ∧ t.status = 0x7#4) :=
  ⟨⟨.gfAdd .gf8, opsState 8 1 0 0 0 0 0, _, rfl, by decide⟩, ⟨inFlight 0x0000, _, rfl, by decide⟩⟩

theorem witness_CompletionCodesOfTheOtherCommands : ∃ (i : Instr) (s t : State),
    (∀ f : Field, i ≠ .rsDecode f) ∧ exec i s = .next t ∧ t.status = 0x1#4 :=
  ⟨.gfDiv .gf8, opsState 5 0 0 0 0 0 0, _, by intro f; cases f <;> decide, rfl, by decide⟩

theorem witness_DecodeNeverDividesByZero : ∃ (f : Field) (s t : State),
    exec (.rsDecode f) s = .next t ∧ t.status = 0x0#4 :=
  ⟨.gf8, opsState 0o30013 0 21 0 4 0 0b1111111, _, rfl, by decide⟩

/-- The last element of each class, and k = 1 and k = KMAX. -/
theorem witness_RomsHoldTheirContents :
    (∃ (f : Field) (i : Nat), i < f.t ∧ f.n ≤ i) ∧ (∃ (f : Field) (v : Nat), 1 ≤ v ∧ v = 2 ^ f.m - 1) ∧
    (∃ f : Field, IsCount f 1) ∧ (∃ f : Field, IsCount f 14) :=
  ⟨⟨.gf8, 13, by decide⟩, ⟨.gf16, 15, by decide⟩, ⟨.gf8, by decide⟩, ⟨.gf16, by decide⟩⟩

/-- Both branches, at 2^m − 1 and at 2^m. -/
theorem witness_GfAddXorsTheElements :
    (∃ (f : Field) (s : State), IsElement f s.ops.a.toNat ∧ IsElement f s.ops.b.toNat) ∧
    (∃ (f : Field) (s : State), ¬(IsElement f s.ops.a.toNat ∧ IsElement f s.ops.b.toNat)) :=
  ⟨⟨.gf8, opsState 7 7 0 0 0 0 0, by decide⟩, ⟨.gf16, opsState 15 16 0 0 0 0 0, by decide⟩⟩

/-- A zero factor; the largest sum of exponents, 6 + 6; and an operand 2^m. -/
theorem witness_GfMulAddsTheLogarithms :
    (∃ (f : Field) (s : State), IsElement f s.ops.a.toNat ∧ IsElement f s.ops.b.toNat ∧
      (s.ops.a = 0#64 ∨ s.ops.b = 0#64)) ∧
    (∃ (f : Field) (s : State) (i j : Nat), i < f.n ∧ j < f.n ∧ s.ops.a.toNat = alphaIter f i ∧
      s.ops.b.toNat = alphaIter f j ∧ i + j = 2 * f.n - 2) ∧
    (∃ (f : Field) (s : State), ¬(IsElement f s.ops.a.toNat ∧ IsElement f s.ops.b.toNat)) :=
  ⟨⟨.gf8, opsState 0 7 0 0 0 0 0, by decide⟩, ⟨.gf8, opsState 5 5 0 0 0 0 0, 6, 6, by decide⟩,
    ⟨.gf8, opsState 8 7 0 0 0 0 0, by decide⟩⟩

theorem witness_GfMulIsTheBasisProduct :
    (∃ (f : Field) (s : State), IsElement f s.ops.a.toNat ∧ IsElement f s.ops.b.toNat) ∧
    (∃ (f : Field) (s : State), ¬(IsElement f s.ops.a.toNat ∧ IsElement f s.ops.b.toNat)) :=
  ⟨⟨.gf16, opsState 15 15 0 0 0 0 0, by decide⟩, ⟨.gf8, opsState 8 7 0 0 0 0 0, by decide⟩⟩

/-- 0/0; 0/1; the index N + 0 − 6 = 1, the smallest; and an operand 2^m. -/
theorem witness_GfDivSubtractsTheLogarithms :
    (∃ (f : Field) (s : State), IsElement f s.ops.a.toNat ∧ s.ops.b = 0#64) ∧
    (∃ (f : Field) (s : State), s.ops.a = 0#64 ∧ IsElement f s.ops.b.toNat ∧ s.ops.b ≠ 0#64) ∧
    (∃ (f : Field) (s : State) (i j : Nat), i < f.n ∧ j < f.n ∧ s.ops.a.toNat = alphaIter f i ∧
      s.ops.b.toNat = alphaIter f j ∧ i + f.n - j = 1) ∧
    (∃ (f : Field) (s : State), ¬(IsElement f s.ops.a.toNat ∧ IsElement f s.ops.b.toNat)) :=
  ⟨⟨.gf8, opsState 0 0 0 0 0 0 0, by decide⟩, ⟨.gf8, opsState 0 1 0 0 0 0 0, by decide⟩,
    ⟨.gf8, opsState 1 5 0 0 0 0 0, 0, 6, by decide⟩, ⟨.gf16, opsState 16 0 0 0 0 0 0, by decide⟩⟩

theorem witness_GfDivGivesTheQuotient :
    (∃ (f : Field) (s : State), IsElement f s.ops.a.toNat ∧ IsElement f s.ops.b.toNat ∧ s.ops.b ≠ 0#64) ∧
    (∃ (f : Field) (s : State), IsElement f s.ops.a.toNat ∧ s.ops.b = 0#64) ∧
    (∃ (f : Field) (s : State), ¬(IsElement f s.ops.a.toNat ∧ IsElement f s.ops.b.toNat)) :=
  ⟨⟨.gf8, opsState 0 1 0 0 0 0 0, by decide⟩, ⟨.gf8, opsState 0 0 0 0 0 0 0, by decide⟩,
    ⟨.gf16, opsState 16 0 0 0 0 0 0, by decide⟩⟩

/-- 0 to the power 0; α^14 to the power 255; and the power 256. -/
theorem witness_GfPowMultipliesTheLogarithm :
    (∃ s : State, s.ops.a = 0#64 ∧ s.ops.b.toNat < 256) ∧
    (∃ (f : Field) (s : State) (i : Nat), i < f.n ∧ s.ops.a.toNat = alphaIter f i ∧ s.ops.b.toNat < 256 ∧
      i * s.ops.b.toNat ≥ f.t) ∧
    (∃ (f : Field) (s : State), ¬(IsElement f s.ops.a.toNat ∧ s.ops.b.toNat < 256)) :=
  ⟨⟨opsState 0 0 0 0 0 0 0, by decide⟩, ⟨.gf16, opsState 9 255 0 0 0 0 0, 14, by decide⟩,
    ⟨.gf8, opsState 2 256 0 0 0 0 0, by decide⟩⟩

theorem witness_GfPowMultipliesOut :
    (∃ (f : Field) (s : State), ¬(IsElement f s.ops.a.toNat ∧ s.ops.b.toNat < 256)) ∧
    (∃ (f : Field) (s : State), IsElement f s.ops.a.toNat ∧ s.ops.b.toNat < 256 ∧ s.ops.a = 0#64) ∧
    (∃ (f : Field) (s : State), IsElement f s.ops.a.toNat ∧ s.ops.b.toNat < 256 ∧ s.ops.a ≠ 0#64) :=
  ⟨⟨.gf8, opsState 2 256 0 0 0 0 0, by decide⟩, ⟨.gf8, opsState 0 0 0 0 0 0 0, by decide⟩,
    ⟨.gf16, opsState 15 255 0 0 0 0 0, by decide⟩⟩

/-- 0; 1 = α^0, whose index is N; and 2^m. -/
theorem witness_GfInvNegatesTheLogarithm :
    (∃ s : State, s.ops.a = 0#64) ∧
    (∃ (f : Field) (s : State) (i : Nat), i < f.n ∧ s.ops.a.toNat = alphaIter f i ∧ f.n - i = f.n) ∧
    (∃ s : State, s.ops.a = 1#64) ∧ (∃ (f : Field) (s : State), ¬IsElement f s.ops.a.toNat) :=
  ⟨⟨opsState 0 0 0 0 0 0 0, by decide⟩, ⟨.gf8, opsState 1 0 0 0 0 0 0, 0, by decide⟩,
    ⟨opsState 1 0 0 0 0 0 0, by decide⟩, ⟨.gf16, opsState 16 0 0 0 0 0 0, by decide⟩⟩

theorem witness_GfInvGivesTheInverse :
    (∃ (f : Field) (s : State), IsElement f s.ops.a.toNat ∧ s.ops.a ≠ 0#64) ∧
    (∃ s : State, s.ops.a = 0#64) ∧ (∃ (f : Field) (s : State), ¬IsElement f s.ops.a.toNat) :=
  ⟨⟨.gf8, opsState 1 0 0 0 0 0 0, by decide⟩, ⟨opsState 0 0 0 0 0 0 0, by decide⟩,
    ⟨.gf16, opsState 16 0 0 0 0 0 0, by decide⟩⟩

/-- The three branches: 4 is the first element of GF(8) whose double leaves the field, 3 the last whose double does not. -/
theorem witness_GfMul2Doubles :
    (∃ (f : Field) (s : State), ¬IsElement f s.ops.a.toNat) ∧
    (∃ (f : Field) (s : State), IsElement f s.ops.a.toNat ∧ 2 * s.ops.a.toNat > 2 ^ f.m - 1) ∧
    (∃ (f : Field) (s : State), IsElement f s.ops.a.toNat ∧ ¬(2 * s.ops.a.toNat > 2 ^ f.m - 1)) ∧
    (∃ (f : Field) (a : Nat), IsElement f a ∧ 2 * a > 2 ^ f.m - 1) :=
  ⟨⟨.gf8, opsState 8 0 0 0 0 0 0, by decide⟩, ⟨.gf8, opsState 4 0 0 0 0 0 0, by decide⟩,
    ⟨.gf8, opsState 3 0 0 0 0 0 0, by decide⟩, ⟨.gf16, 15, by decide⟩⟩

theorem witness_ExpRdReadsThePowersOfAlpha :
    (∃ (f : Field) (s : State), s.ops.a.toNat < f.t) ∧ (∃ (f : Field) (s : State), ¬(s.ops.a.toNat < f.t)) ∧
    (∃ (f : Field) (i : Nat), i < f.t ∧ f.n ≤ i) ∧ (∃ (f : Field) (i : Nat), i < f.n) :=
  ⟨⟨.gf8, opsState 13 0 0 0 0 0 0, by decide⟩, ⟨.gf8, opsState 14 0 0 0 0 0 0, by decide⟩, ⟨.gf16, 29, by decide⟩,
    ⟨.gf16, 14, by decide⟩⟩

theorem witness_LogRdInvertsThePowersOfAlpha :
    (∃ (f : Field) (s : State), IsElement f s.ops.a.toNat ∧ s.ops.a ≠ 0#64) ∧
    (∃ s : State, s.ops.a = 0#64) ∧ (∃ (f : Field) (s : State), ¬IsElement f s.ops.a.toNat) :=
  ⟨⟨.gf16, opsState 15 0 0 0 0 0 0, by decide⟩, ⟨opsState 0 0 0 0 0 0 0, by decide⟩,
    ⟨.gf8, opsState 8 0 0 0 0 0 0, by decide⟩⟩

theorem witness_GenRdReadsTheGeneratorProduct :
    (∃ (f : Field) (s : State), IsCount f s.ops.k.toNat) ∧ (∃ (f : Field) (s : State), ¬IsCount f s.ops.k.toNat) :=
  ⟨⟨.gf16, opsState 0 0 0 0 14 0 0, by decide⟩, ⟨.gf16, opsState 0 0 0 0 0 0 0, by decide⟩⟩

theorem witness_FieldLawsHold :
    (∃ (f : Field) (a b c : Nat), IsElement f a ∧ IsElement f b ∧ IsElement f c) ∧
    (∃ (f : Field) (a b : Nat), IsElement f a ∧ IsElement f b ∧ b ≠ 0 ∧ a = 0) ∧
    (∃ (f : Field) (a : Nat), IsElement f a ∧ a ≠ 0) :=
  ⟨⟨.gf16, 15, 1, 0, by decide⟩, ⟨.gf8, 0, 7, by decide⟩, ⟨.gf16, 15, by decide⟩⟩

/-- x^e has degree e. -/
theorem hasDegree_monomial (f : Field) (e : Nat) : HasDegree f (1 <<< (f.m * e)) e := by
  constructor
  · rw [slot_shiftLeft]
    cases f <;> simp [slot, Field.m]
  · intro i hi
    apply slot_eq_zero_of_lt f _ (e + 1) i _ hi
    rw [Nat.shiftLeft_eq, Nat.one_mul, Nat.mul_add, Nat.mul_one]
    exact Nat.pow_lt_pow_right (by decide) (by have := m_pos f; omega)

theorem witness_PScaleScalesEverySlot :
    (∃ (f : Field) (s : State), IsPacked f s.ops.a.toNat ∧ IsElement f s.ops.b.toNat) ∧
    (∃ (f : Field) (s : State), IsPacked f s.ops.a.toNat ∧ IsElement f s.ops.b.toNat ∧ s.ops.b ≠ 0#64 ∧
      HasDegree f s.ops.a.toNat 0) ∧
    (∃ (f : Field) (s : State), ¬(IsPacked f s.ops.a.toNat ∧ IsElement f s.ops.b.toNat)) :=
  ⟨⟨.gf8, opsState 0o7777777777 7 0 0 0 0 0, by decide⟩,
    ⟨.gf8, opsState 1 7 0 0 0 0 0, by decide, by decide, by decide, hasDegree_monomial .gf8 0⟩,
    ⟨.gf8, opsState 0o10000000000 1 0 0 0 0 0, by decide⟩⟩

theorem witness_PScaleIsTheBitParallelForm : ∃ (f : Field) (s : State),
    IsPacked f s.ops.a.toNat ∧ IsElement f s.ops.b.toNat :=
  ⟨.gf16, opsState 0xFFFFFFFFFFFFFFF 15 0 0 0 0 0, by decide⟩

/-- x^4·x^5 fits in ten slots, x^5·x^5 does not. -/
theorem witness_PMulGivesTheProductThatFits :
    (∃ (f : Field) (s : State), IsPacked f s.ops.a.toNat ∧ IsPacked f s.ops.b.toNat ∧
      (∀ n : Nat, f.slots ≤ n → n ≤ 2 * f.slots - 2 →
        conv f (slot f s.ops.a.toNat) (slot f s.ops.b.toNat) n = 0)) ∧
    (∃ (f : Field) (s : State), ∃ n : Nat, f.slots ≤ n ∧ n ≤ 2 * f.slots - 2 ∧
      conv f (slot f s.ops.a.toNat) (slot f s.ops.b.toNat) n ≠ 0) ∧
    (∃ (f : Field) (s : State), ¬(IsPacked f s.ops.a.toNat ∧ IsPacked f s.ops.b.toNat)) ∧
    (∃ (f : Field) (s : State) (dp dq : Nat), IsPacked f s.ops.a.toNat ∧ IsPacked f s.ops.b.toNat ∧
      HasDegree f s.ops.a.toNat dp ∧ HasDegree f s.ops.b.toNat dq ∧ f.slots - 1 < dp + dq) :=
  ⟨⟨.gf8, opsState 0o10000 0o100000 0 0 0 0 0, by decide⟩,
    ⟨.gf8, opsState 0o100000 0o100000 0 0 0 0 0, 10, by decide⟩,
    ⟨.gf8, opsState 1 0o10000000000 0 0 0 0 0, by decide⟩,
    ⟨.gf8, opsState 0o100000 0o100000 0 0 0 0 0, 5, 5, by decide, by decide, hasDegree_monomial .gf8 5,
      hasDegree_monomial .gf8 5, by decide⟩⟩

/-- Degrees 4 and 5, which add up to DMAX = 9 in GF(8). -/
theorem witness_PMulAddsDegrees : ∃ (f : Field) (s : State) (dp dq : Nat),
    IsPacked f s.ops.a.toNat ∧ IsPacked f s.ops.b.toNat ∧ HasDegree f s.ops.a.toNat dp ∧
    HasDegree f s.ops.b.toNat dq ∧ dp + dq < f.slots :=
  ⟨.gf8, opsState 0o10000 0o100000 0 0 0 0 0, 4, 5, by decide, by decide, hasDegree_monomial .gf8 4,
    hasDegree_monomial .gf8 5, by decide⟩

theorem witness_PMulmTakesSlotZeroAsOne :
    (∃ (f : Field) (s : State), IsPacked f s.ops.a.toNat ∧ IsPacked f s.ops.b.toNat ∧
      (∀ n : Nat, f.slots ≤ n → n ≤ 2 * f.slots - 2 →
        conv f (slot f s.ops.a.toNat) (oneAtZero (slot f s.ops.b.toNat)) n = 0) ∧
      slot f s.ops.b.toNat 0 ≠ 1) ∧
    (∃ (f : Field) (s : State), ∃ n : Nat, f.slots ≤ n ∧ n ≤ 2 * f.slots - 2 ∧
      conv f (slot f s.ops.a.toNat) (oneAtZero (slot f s.ops.b.toNat)) n ≠ 0) ∧
    (∃ (f : Field) (s : State), ¬(IsPacked f s.ops.a.toNat ∧ IsPacked f s.ops.b.toNat)) :=
  ⟨⟨.gf8, opsState 0o123 0o45 0 0 0 0 0, by decide⟩,
    ⟨.gf8, opsState 0o1000000000 0o10 0 0 0 0 0, 10, by decide⟩,
    ⟨.gf8, opsState 1 0o10000000000 0 0 0 0 0, by decide⟩⟩

/-- t + k = 10 slots exactly; t = 0; k = 0 with q = 1; and a divisor that is not monic. -/
theorem witness_PModGivesTheRemainder :
    (∃ (f : Field) (s : State), ModOperands f s.ops ∧ s.ops.sza.toNat / f.m + s.ops.szb.toNat / f.m = f.slots) ∧
    (∃ (f : Field) (s : State), ModOperands f s.ops ∧ s.ops.sza = 0#8) ∧
    (∃ (f : Field) (s : State), ModOperands f s.ops ∧ s.ops.szb = 0#8) ∧
    (∃ (f : Field) (s : State), ¬ModOperands f s.ops) :=
  ⟨⟨.gf8, opsState 0o7777777777 0o13123 18 12 0 0 0, by decide⟩, ⟨.gf8, opsState 7 0o12 0 3 0 0 0, by decide⟩,
    ⟨.gf8, opsState 5 1 3 0 0 0 0, by decide⟩, ⟨.gf8, opsState 0o1230000 0o23123 9 12 0 0 0, by decide⟩⟩

theorem witness_PEvalGivesTheValue :
    (∃ (f : Field) (s : State), IsPacked f s.ops.a.toNat ∧ IsElement f s.ops.b.toNat ∧ s.ops.sza.toNat % f.m = 0 ∧
      s.ops.sza.toNat ≤ f.slots * f.m) ∧
    (∃ (f : Field) (s : State), ¬(IsPacked f s.ops.a.toNat ∧ IsElement f s.ops.b.toNat ∧ s.ops.sza.toNat % f.m = 0 ∧
      s.ops.sza.toNat ≤ f.slots * f.m)) :=
  ⟨⟨.gf8, opsState 0o7777777777 7 30 0 0 0 0, by decide⟩, ⟨.gf8, opsState 0o1230013 1 20 0 0 0 0, by decide⟩⟩

theorem witness_EvaluationIsMultiplicative : ∃ (f : Field) (s t : State) (x : Word),
    exec (.pMul f) s = .next t ∧ t.status = 0x0#4 ∧ IsElement f x.toNat :=
  ⟨.gf8, opsState 0o12 0o13 0 0 0 0 0, _, 7#64, rfl, by decide, by decide⟩

theorem witness_PDerivMovesOddSlotsDown :
    (∃ (f : Field) (s : State), IsPacked f s.ops.a.toNat) ∧ (∃ (f : Field) (s : State), ¬IsPacked f s.ops.a.toNat) :=
  ⟨⟨.gf16, opsState 0xFEDCBA987654321 0 0 0 0 0 0, by decide⟩,
    ⟨.gf16, opsState 0x1000000000000000 0 0 0 0 0 0, by decide⟩⟩

theorem witness_POrderGivesTheDegree :
    (∃ (f : Field) (s : State), IsPacked f s.ops.a.toNat ∧ s.ops.a ≠ 0#64) ∧ (∃ s : State, s.ops.a = 0#64) ∧
    (∃ (f : Field) (s : State), ¬IsPacked f s.ops.a.toNat) :=
  ⟨⟨.gf16, opsState 0xF00000000000000 0 0 0 0 0 0, by decide⟩, ⟨opsState 0 0 0 0 0 0 0, by decide⟩,
    ⟨.gf16, opsState 0x1000000000000000 0 0 0 0 0 0, by decide⟩⟩

theorem witness_PSizeGivesTheBitSize :
    (∃ (f : Field) (s : State), IsPacked f s.ops.a.toNat ∧ s.ops.a ≠ 0#64) ∧ (∃ s : State, s.ops.a = 0#64) ∧
    (∃ (f : Field) (s : State), ¬IsPacked f s.ops.a.toNat) :=
  ⟨⟨.gf8, opsState 1 0 0 0 0 0 0, by decide⟩, ⟨opsState 0 0 0 0 0 0 0, by decide⟩,
    ⟨.gf8, opsState 0o10000000000 0 0 0 0 0 0, by decide⟩⟩

/-- A message wider than the N − k symbols (0o3123, cut to 0o123), with the state P_MOD runs in; and k = KMAX + 1. -/
theorem witness_RsEncodeAppendsTheRemainder :
    (∃ (f : Field) (s u : State), IsCount f s.ops.k.toNat ∧
      u.ops.a = BitVec.ofNat 64 (s.ops.a.toNat % 2 ^ ((f.n - s.ops.k.toNat) * f.m) * 2 ^ (s.ops.k.toNat * f.m)) ∧
      u.ops.sza = BitVec.ofNat 8 ((f.n - s.ops.k.toNat) * f.m) ∧
      u.ops.b = BitVec.ofNat 64 (genRom f s.ops.k.toNat) ∧ u.ops.szb = BitVec.ofNat 8 (s.ops.k.toNat * f.m)) ∧
    (∃ (f : Field) (s : State), ¬IsCount f s.ops.k.toNat) :=
  ⟨⟨.gf8, opsState 0o3123 0 0 0 4 0 0, opsState 0o1230000 0o13123 9 12 0 0 0, by decide⟩,
    ⟨.gf16, opsState 1 0 0 0 15 0 0, by decide⟩⟩

/-- k = KMAX, which leaves one message symbol, with the state P_MOD then runs in; and k = 0. -/
theorem witness_RsEncodeIsSystematicAndDivisible :
    (∃ (f : Field) (s u : State), IsCount f s.ops.k.toNat ∧ u.ops.a = 0o1111111#64 ∧
      u.ops.sza = BitVec.ofNat 8 ((f.n - s.ops.k.toNat) * f.m) ∧
      u.ops.b = BitVec.ofNat 64 (genRom f s.ops.k.toNat) ∧ u.ops.szb = BitVec.ofNat 8 (s.ops.k.toNat * f.m)) ∧
    (∃ (f : Field) (s : State), ¬IsCount f s.ops.k.toNat) :=
  ⟨⟨.gf8, opsState 1 0 0 0 6 0 0, opsState 0o1111111 0o1111111 3 18 0 0 0, by decide⟩,
    ⟨.gf8, opsState 1 0 0 0 0 0 0, by decide⟩⟩

theorem witness_EncodedWordsHaveZeroSyndromes : ∃ (f : Field) (s t u : State),
    exec (.rsEncode f) s = .next t ∧ t.status = 0x0#4 ∧ u.ops.a = t.y ∧
    u.ops.sza = BitVec.ofNat 8 (f.n * f.m) ∧ u.ops.k = s.ops.k :=
  ⟨.gf8, opsState 0o123 0 0 0 4 0 0, _, opsState 0o1230013 0 21 0 4 0 0, rfl, by decide, by decide, by decide, by decide⟩

theorem witness_RsEncodeIsLinear : ∃ (f : Field) (s : State), IsCount f s.ops.k.toNat :=
  ⟨.gf16, opsState 0 0 0 0 1 0 0, by decide⟩

/-- The longest and the shortest word, and a word with a bit at SZA. -/
theorem witness_RsSyndromeEvaluatesAtTheRoots :
    (∃ (f : Field) (s : State), IsCount f s.ops.k.toNat ∧ IsReceivedSize f s.ops.sza.toNat ∧
      s.ops.a.toNat < 2 ^ s.ops.sza.toNat ∧ s.ops.sza.toNat = f.n * f.m) ∧
    (∃ (f : Field) (s : State), IsCount f s.ops.k.toNat ∧ IsReceivedSize f s.ops.sza.toNat ∧
      s.ops.a.toNat < 2 ^ s.ops.sza.toNat ∧ s.ops.sza.toNat = f.m) ∧
    (∃ (f : Field) (s : State),
      ¬(IsCount f s.ops.k.toNat ∧ IsReceivedSize f s.ops.sza.toNat ∧ s.ops.a.toNat < 2 ^ s.ops.sza.toNat)) :=
  ⟨⟨.gf16, opsState 0xFFFFFFFFFFFFFFF 0 60 0 14 0 0, by decide⟩, ⟨.gf8, opsState 1 0 3 0 6 0 0, by decide⟩,
    ⟨.gf8, opsState 0o1000000 0 18 0 4 0 0, by decide⟩⟩

/-- 14 erasures in GF(16), the most that fit, and 15. -/
theorem witness_RsEraslocMultipliesTheFactors :
    (∃ (f : Field) (s : State), IsMaskBelow f.n s.ops.em.toNat ∧ weight s.ops.em ≤ f.slots - 1 ∧
      weight s.ops.em = 14) ∧
    (∃ (f : Field) (s : State), ¬(IsMaskBelow f.n s.ops.em.toNat ∧ weight s.ops.em ≤ f.slots - 1)) :=
  ⟨⟨.gf16, opsState 0 0 0 0 0 0x3FFF 0, by decide⟩, ⟨.gf16, opsState 0 0 0 0 0 0x7FFF 0, by decide⟩⟩

/-- An erased position and one that is not. -/
theorem witness_RsEraslocVanishesAtTheErasures : ∃ (f : Field) (s t : State),
    exec (.rsErasloc f) s = .next t ∧ t.status = 0x0#4 ∧ 6 < f.n ∧ s.ops.em.getLsbD 6 = true ∧
    s.ops.em.getLsbD 0 = false :=
  ⟨.gf8, opsState 0 0 0 0 0 0b1100000 0, _, rfl, by decide⟩

theorem witness_RsFsyndKeepsTheLowProductSlots :
    (∃ (f : Field) (s : State), IsCount f s.ops.k.toNat ∧ IsPacked f s.ops.a.toNat ∧ IsPacked f s.ops.b.toNat) ∧
    (∃ (f : Field) (s : State),
      ¬(IsCount f s.ops.k.toNat ∧ IsPacked f s.ops.a.toNat ∧ IsPacked f s.ops.b.toNat)) :=
  ⟨⟨.gf8, opsState 0o7777777777 0o7777777777 0 0 6 0 0, by decide⟩, ⟨.gf8, opsState 1 1 0 0 7 0 0, by decide⟩⟩

/-- ρ = k (no step at all), ρ < k with L = 2, so that shorter lengths exist, and ρ > k. -/
theorem witness_RsBmGivesARecurrenceOfTheSequence :
    (∃ (f : Field) (s : State), IsCount f s.ops.k.toNat ∧ IsPacked f s.ops.a.toNat ∧
      IsMaskBelow f.n s.ops.em.toNat ∧ weight s.ops.em = s.ops.k.toNat) ∧
    (∃ (f : Field) (s : State), IsCount f s.ops.k.toNat ∧ IsPacked f s.ops.a.toNat ∧
      IsMaskBelow f.n s.ops.em.toNat ∧ weight s.ops.em < s.ops.k.toNat ∧
      nextHas (exec (.rsBm f) s) (fun t => t.yaux.toNat % 256 == 2) = true) ∧
    (∃ (f : Field) (c : Nat → Nat) (l : Nat), (∀ i : Nat, IsElement f (c i)) ∧ l < 2) ∧
    (∃ (f : Field) (s : State),
      ¬(IsCount f s.ops.k.toNat ∧ IsPacked f s.ops.a.toNat ∧ IsMaskBelow f.n s.ops.em.toNat ∧
        weight s.ops.em ≤ s.ops.k.toNat)) :=
  ⟨⟨.gf8, opsState 0o2210 0 0 0 4 0b1111 0, by decide⟩, ⟨.gf8, opsState 0o7142 0 0 0 4 0 0, by decide⟩,
    ⟨.gf8, fun _ => 7, 1, fun _ => (by decide : 7 < 2 ^ 3), by decide⟩,
    ⟨.gf8, opsState 0o2210 0 0 0 4 0b11111 0, by decide⟩⟩

theorem witness_RsChienMarksTheEligibleRoots :
    (∃ (f : Field) (s : State), IsPacked f s.ops.a.toNat ∧ IsReceivedSize f s.ops.sza.toNat ∧
      IsMaskBelow (s.ops.sza.toNat / f.m) s.ops.em.toNat ∧ IsMaskBelow (s.ops.sza.toNat / f.m) s.ops.tm.toNat) ∧
    (∃ (f : Field) (s : State),
      ¬(IsPacked f s.ops.a.toNat ∧ IsReceivedSize f s.ops.sza.toNat ∧
        IsMaskBelow (s.ops.sza.toNat / f.m) s.ops.em.toNat ∧ IsMaskBelow (s.ops.sza.toNat / f.m) s.ops.tm.toNat)) ∧
    (∃ (f : Field) (i j : Nat), i < f.n ∧ j < f.n ∧ alphaInv f i = alphaInv f j) :=
  ⟨⟨.gf8, opsState 0o621 0 21 0 0 0b1000000 0b1111111, by decide⟩,
    ⟨.gf8, opsState 0o621 0 18 0 0 0 0b1111111, by decide⟩, ⟨.gf16, 14, 14, by decide⟩⟩

/-- Nonzero denominators at positions 5 and 6; a zero one at position 0; a mask bit at n_r. -/
theorem witness_RsForneyDividesAtTheMaskedPositions :
    (∃ (f : Field) (s : State), IsCount f s.ops.k.toNat ∧ IsPacked f s.ops.a.toNat ∧ IsPacked f s.ops.b.toNat ∧
      IsReceivedSize f s.ops.sza.toNat ∧ IsMaskBelow (s.ops.sza.toNat / f.m) s.ops.em.toNat ∧ s.ops.em ≠ 0#16 ∧
      ∀ j : Nat, s.ops.em.getLsbD j = true →
        valueAt f (derivative f (slot f s.ops.b.toNat)) f.slots (alphaInv f j) ≠ 0) ∧
    (∃ (f : Field) (s : State), IsCount f s.ops.k.toNat ∧ IsPacked f s.ops.a.toNat ∧ IsPacked f s.ops.b.toNat ∧
      IsReceivedSize f s.ops.sza.toNat ∧ IsMaskBelow (s.ops.sza.toNat / f.m) s.ops.em.toNat ∧
      ∃ j : Nat, s.ops.em.getLsbD j = true ∧
        valueAt f (derivative f (slot f s.ops.b.toNat)) f.slots (alphaInv f j) = 0) ∧
    (∃ (f : Field) (s : State),
      ¬(IsCount f s.ops.k.toNat ∧ IsPacked f s.ops.a.toNat ∧ IsPacked f s.ops.b.toNat ∧
        IsReceivedSize f s.ops.sza.toNat ∧ IsMaskBelow (s.ops.sza.toNat / f.m) s.ops.em.toNat)) := by
  refine ⟨⟨.gf8, opsState 0o2210 0o621 21 0 4 0b1100000 0, by decide, by decide, by decide, by decide, by decide,
      by decide, ?_⟩,
    ⟨.gf8, opsState 0o2210 1 21 0 4 1 0, by decide, by decide, by decide, by decide, by decide, 0, by decide⟩,
    ⟨.gf8, opsState 0o2210 0o621 18 0 4 0b1100000 0, by decide⟩⟩
  have h : ∀ j : Nat, j < 16 → (opsState 0o2210 0o621 21 0 4 0b1100000 0).ops.em.getLsbD j = true →
      valueAt .gf8 (derivative .gf8 (slot .gf8 (opsState 0o2210 0o621 21 0 4 0b1100000 0).ops.b.toNat)) 10
        (alphaInv .gf8 j) ≠ 0 := by decide
  exact fun j hj => h j (BitVec.lt_of_getLsbD hj) hj

/-- n_r = N with a bit of EM at n_r; and five erasures against k = 4. -/
theorem witness_RsDecodeChecksInOrder :
    (∃ (f : Field) (s : State), ¬DecodeOperands f s.ops) ∧
    (∃ (f : Field) (s : State), DecodeOperands f s.ops ∧ s.ops.k.toNat < weight s.ops.em) :=
  ⟨⟨.gf8, opsState 0o1230013 0 21 0 4 0b10000000 0b1111111, by decide⟩,
    ⟨.gf8, opsState 0o1230013 0 21 0 4 0b11111 0b1111111, by decide⟩⟩

/-- The source's codeword with ρ = k = 4. -/
theorem witness_RsDecodeReturnsCodewordsUnchanged : ∃ (f : Field) (s : State),
    DecodeOperands f s.ops ∧ weight s.ops.em ≤ s.ops.k.toNat ∧
    IsCodeword f s.ops.a.toNat (s.ops.sza.toNat / f.m) s.ops.k.toNat :=
  ⟨.gf8, opsState 0o1230013 0 21 0 4 0b1111 0b1111111, by decide⟩

/-- An OK result of stage 10 (errata named) and one of stage 2 (none). -/
theorem witness_RsDecodeCorrectsOnlyNamedPositions :
    (∃ (f : Field) (s t : State), exec (.rsDecode f) s = .next t ∧ t.status = 0x0#4 ∧ t.yaux ≠ 0#16) ∧
    (∃ (f : Field) (s t : State), exec (.rsDecode f) s = .next t ∧ t.status = 0x0#4 ∧ t.yaux = 0#16) :=
  ⟨⟨.gf8, opsState 0o3730053 0 21 0 4 0b1100000 0b1111111, _, rfl, by decide, by decide⟩,
    ⟨.gf8, opsState 0o1230013 0 21 0 4 0 0b1111111, _, rfl, by decide, by decide⟩⟩

theorem witness_RsDecodeEqualsTheStageCommands : ∃ (f : Field) (s : State), DecodeOperands f s.ops :=
  ⟨.gf8, opsState 0o3730053 0 21 0 4 0b1100000 0b1111111, by decide⟩

/-- 95_test_vectors.md P5: an OK result that is another codeword than the one sent. -/
theorem witness_RsDecodeOkResultsAreCodewords : ∃ (f : Field) (s t : State),
    exec (.rsDecode f) s = .next t ∧ t.status = 0x0#4 ∧ t.y = 0o1033202#64 :=
  ⟨.gf8, opsState 0o1230202 0 21 0 4 0 0b1111111, _, rfl, by decide, by decide⟩

/-- 95_test_vectors.md P3: two erasures and one error, ρ + 2ν = 4 = k. -/
theorem witness_RsDecodeCorrectsWithinCapacity : ∃ (f : Field) (s : State) (c : Word),
    DecodeOperands f s.ops ∧ c.toNat < 2 ^ s.ops.sza.toNat ∧
    IsCodeword f c.toNat (s.ops.sza.toNat / f.m) s.ops.k.toNat ∧
    (∀ j : Nat, slot f s.ops.a.toNat j ≠ slot f c.toNat j → s.ops.em.getLsbD j = false →
      s.ops.tm.getLsbD j = true) ∧
    weight s.ops.em + 2 * ((List.range f.n).filter fun j =>
      slot f s.ops.a.toNat j != slot f c.toNat j && !s.ops.em.getLsbD j).length = s.ops.k.toNat := by
  refine ⟨.gf8, opsState 0o3730053 0 21 0 4 0b1100000 0b1111111, 0o1230013#64, by decide, by decide, by decide, ?_,
    by decide⟩
  intro j hne _
  by_cases hj : j < 7
  · have h : ∀ j : Nat, j < 7 → (opsState 0o3730053 0 21 0 4 0b1100000 0b1111111).ops.tm.getLsbD j = true := by decide
    exact h j hj
  · exact absurd ((slot_eq_zero_of_lt .gf8 _ 7 j (by decide) (Nat.le_of_not_lt hj)).trans
      (slot_eq_zero_of_lt .gf8 _ 7 j (by decide) (Nat.le_of_not_lt hj)).symm) hne

end Sys2Proof.Tests
end

section
/-! The ROM contents against the algebra of Sys2Proof/Safety.lean (20_memory.md R61 to R66): each table is checked once
against the recursion that defines its contents, and induction does the rest. -/
namespace Sys2Proof.Proofs

open Sys2Proof.Machine Sys2Proof.Safety

/-! ## EXP_m (R61) -/

theorem t_eq_two_mul_n (f : Field) : f.t = 2 * f.n := by cases f <;> rfl

theorem n_pos (f : Field) : 0 < f.n := by cases f <;> decide

theorem mod_n_lt_t (f : Field) (i : Nat) : i % f.n < f.t := by
  have hn := n_pos f
  have hmod := Nat.mod_lt i hn
  rw [t_eq_two_mul_n]
  omega

theorem expRom_zero (f : Field) : expRom f 0 = 1 := by cases f <;> rfl

/-- Each EXP entry is the one before it, doubled. -/
theorem expRom_succ (f : Field) : ∀ i : Nat, i + 1 < f.t → expRom f (i + 1) = double f (expRom f i) := by
  have table : ∀ i : Nat, i < f.t → i + 1 < f.t → expRom f (i + 1) = double f (expRom f i) := by
    cases f <;> decide
  exact fun i hi => table i (Nat.lt_of_succ_lt hi) hi

theorem expRom_eq_alphaIter (f : Field) (i : Nat) (hi : i < f.t) : expRom f i = alphaIter f i := by
  induction i with
  | zero => exact expRom_zero f
  | succ i ih => rw [expRom_succ f i hi, ih (Nat.lt_of_succ_lt hi), alphaIter]

/-- EXP holds the powers of α twice over. -/
theorem expRom_mod_n (f : Field) : ∀ i : Nat, i < f.t → expRom f (i % f.n) = expRom f i := by
  cases f <;> decide

theorem expRom_eq_alphaIter_mod (f : Field) (i : Nat) (hi : i < f.t) : expRom f i = alphaIter f (i % f.n) :=
  calc expRom f i = expRom f (i % f.n) := (expRom_mod_n f i hi).symm
    _ = alphaIter f (i % f.n) := expRom_eq_alphaIter f _ (mod_n_lt_t f i)

/-! ## LOG_m (R63) -/

@[simp] theorem logRom_zero (f : Field) : logRom f 0 = none := by cases f <;> rfl

/-- LOG undoes EXP below N_m. -/
theorem logRom_expRom (f : Field) : ∀ e : Nat, e < f.n → logRom f (expRom f e) = some e := by
  cases f <;> decide

/-- EXP reaches every nonzero element below N_m: α is primitive. -/
theorem exists_expRom_eq (f : Field) : ∀ v : Nat, v < 2 ^ f.m → 1 ≤ v → ∃ e : Nat, e < f.n ∧ expRom f e = v := by
  cases f <;> decide

theorem expRom_injOn (f : Field) (d e : Nat) (hd : d < f.n) (he : e < f.n) (h : expRom f d = expRom f e) : d = e :=
  Option.some.inj (by rw [← logRom_expRom f d hd, h, logRom_expRom f e he])

/-! ## GEN_m (R65) -/

/-- The slots of the first generator are the coefficients of x + α. -/
theorem slot_genRom_one (f : Field) : ∀ i : Nat, i ≤ f.kmax → slot f (genRom f 1) i = genCoeff f 1 i := by
  cases f <;> decide

/-- Each generator is the one before it, times x + α^(k + 1). -/
theorem slot_genRom_succ (f : Field) : ∀ k : Nat, k < f.kmax → 1 ≤ k → ∀ i : Nat, i ≤ f.kmax →
    slot f (genRom f (k + 1)) i =
      basisMul f (slot f (genRom f k) i) (alphaIter f (k + 1)) ^^^
        (if i = 0 then 0 else slot f (genRom f k) (i - 1)) := by
  cases f <;> decide

theorem slot_genRom_eq_genCoeff (f : Field) (k : Nat) (hk : 1 ≤ k) (hmax : k ≤ f.kmax) (i : Nat) (hi : i ≤ f.kmax) :
    slot f (genRom f k) i = genCoeff f k i := by
  induction k, hk using Nat.le_induction generalizing i with
  | base => exact slot_genRom_one f i hi
  | succ k hk ih =>
    have hprev : ∀ j : Nat, j ≤ f.kmax → slot f (genRom f k) j = genCoeff f k j := ih (Nat.le_of_lt hmax)
    rw [slot_genRom_succ f k hmax hk i hi, genCoeff, hprev i hi, hprev (i - 1) ((Nat.sub_le i 1).trans hi)]

/-- g_k is monic of degree k. -/
theorem slot_genRom_top (f : Field) : ∀ k : Nat, k ≤ f.kmax → 1 ≤ k → slot f (genRom f k) k = 1 := by
  cases f <;> decide

theorem genRom_lt (f : Field) : ∀ k : Nat, k ≤ f.kmax → 1 ≤ k → genRom f k < 2 ^ ((k + 1) * f.m) := by
  cases f <;> decide

/-- Settles O18: EXP by induction on the index, LOG as the inverse of EXP, GEN by induction on k. -/
theorem romsHoldTheirContents : Obligations.RomsHoldTheirContents := by
  refine ⟨fun f => ⟨t_eq_two_mul_n f, expRom_eq_alphaIter_mod f⟩, ?log, logRom_zero, ?gen⟩
  case log =>
    intro f v hpos hle
    obtain ⟨e, he, rfl⟩ := exists_expRom_eq f v (Nat.lt_of_le_pred (Nat.two_pow_pos _) hle) hpos
    exact ⟨e, logRom_expRom f e he, he, rfl, fun d hd hde => expRom_injOn f d e hd he hde⟩
  case gen =>
    intro f k ⟨hk, hmax⟩
    exact ⟨slot_genRom_top f k hmax hk, genRom_lt f k hmax hk,
      fun i hi => slot_genRom_eq_genCoeff f k hk hmax i (hi.trans hmax)⟩

end Sys2Proof.Proofs
end

section
/-! The decoder, field by field (30_encoding.md R100 to R110): which words are commands, which are illegal, and what the
core does with an illegal one. -/
namespace Sys2Proof.Proofs

open Sys2Proof.Machine Sys2Proof.Safety

/-! ## The fields of a command word (R100) -/

theorem opField_toNat (w : Half) : (opField w).toNat = w.toNat % 32 := by
  simp [opField]

theorem rsvField_toNat (w : Half) : (rsvField w).toNat = w.toNat / 2 ^ 6 := by
  have hw := w.isLt
  rw [rsvField, BitVec.extractLsb'_toNat, Nat.shiftRight_eq_div_pow]
  omega

@[simp] theorem opField_append (rsv : BitVec 10) (b : BitVec 1) (op : BitVec 5) : opField (rsv ++ b ++ op) = op :=
  BitVec.extractLsb'_append_eq_right

@[simp] theorem rsvField_append (rsv : BitVec 10) (b : BitVec 1) (op : BitVec 5) : rsvField (rsv ++ b ++ op) = rsv := by
  rw [rsvField, BitVec.extractLsb'_append_eq_of_le (by decide)]
  exact BitVec.extractLsb'_append_eq_left

/-- The mask 0xFFDF keeps RSV and OP and clears F. -/
theorem and_decodeMask_eq_append (w : Half) : w &&& 0xFFDF#16 = rsvField w ++ 0#1 ++ opField w := by
  apply BitVec.eq_of_getLsbD_eq
  intro i hi
  rw [BitVec.getLsbD_and, BitVec.getLsbD_append, BitVec.getLsbD_append]
  interval_cases i <;> simp [rsvField, opField]

theorem setWidth_eq_append (op : BitVec 5) : op.setWidth 16 = 0#10 ++ 0#1 ++ op :=
  BitVec.setWidth_eq_append (by decide)

theorem and_decodeMask_eq_iff (w : Half) (op : BitVec 5) :
    w &&& 0xFFDF#16 = op.setWidth 16 ↔ rsvField w = 0#10 ∧ opField w = op := by
  rw [and_decodeMask_eq_append, setWidth_eq_append]
  constructor
  · intro h
    exact ⟨by simpa only [rsvField_append] using congrArg rsvField h,
      by simpa only [opField_append] using congrArg opField h⟩
  · rintro ⟨hrsv, hop⟩
    rw [hrsv, hop]

/-! ## The opcode map (R105, R106) -/

theorem decodeOp_opcodeOf (i : Instr) : decodeOp (opcodeOf i) (fieldOfInstr i) = .ok i := by
  cases i <;> rfl

/-- The map is one to one: an opcode decodes to no command but the one whose opcode it is. -/
theorem decodeOp_eq_ok_iff (op : BitVec 5) (f : Field) (i : Instr) :
    decodeOp op f = .ok i ↔ op = opcodeOf i ∧ f = fieldOfInstr i := by
  constructor
  · intro h
    unfold decodeOp at h
    split at h <;> cases h <;> exact ⟨rfl, rfl⟩
  · rintro ⟨rfl, rfl⟩
    exact decodeOp_opcodeOf i

theorem decodeOp_of_reserved (f : Field) : ∀ op : BitVec 5,
    op.toNat ∈ [0x00, 0x0A, 0x0B, 0x0C, 0x0D, 0x0E, 0x0F] → decodeOp op f = .error .reservedOpcode := by
  cases f <;> decide

/-! ## The decoder (R102, R110) -/

theorem decode_of_rsvField_ne_zero (w : Half) (h : rsvField w ≠ 0#10) : decode w = .error .reservedField := by
  simp [decode, h]

theorem decode_of_rsvField_eq_zero (w : Half) (h : rsvField w = 0#10) :
    decode w = decodeOp (opField w) (fieldOf w) := by
  simp [decode, h]

theorem decode_eq_ok_iff (w : Half) (i : Instr) :
    decode w = .ok i ↔ rsvField w = 0#10 ∧ opField w = opcodeOf i ∧ fieldOf w = fieldOfInstr i := by
  by_cases hrsv : rsvField w = 0#10
  · simp [decode_of_rsvField_eq_zero w hrsv, decodeOp_eq_ok_iff, hrsv]
  · simp [decode_of_rsvField_ne_zero w hrsv, hrsv]

/-- R102 and R106, on the word's value. -/
theorem decode_eq_error_of_reserved (w : Half)
    (h : w.toNat / 2 ^ 6 ≠ 0 ∨ w.toNat % 32 ∈ [0x00, 0x0A, 0x0B, 0x0C, 0x0D, 0x0E, 0x0F]) :
    ∃ e : Illegal, decode w = .error e := by
  rw [← rsvField_toNat, ← opField_toNat] at h
  by_cases hrsv : rsvField w = 0#10
  · have hop := h.resolve_left (by simp [hrsv])
    exact ⟨_, (decode_of_rsvField_eq_zero w hrsv).trans (decodeOp_of_reserved _ _ hop)⟩
  · exact ⟨_, decode_of_rsvField_ne_zero w hrsv⟩

/-- The mask 0xFFDF singles out the words of a command, and F its field (R105). -/
theorem decode_eq_ok_iff_and_decodeMask (w : Half) (i : Instr) :
    decode w = .ok i ↔ w &&& 0xFFDF#16 = (opcodeOf i).setWidth 16 ∧ fieldOfInstr i = fieldOf w := by
  rw [decode_eq_ok_iff, and_decodeMask_eq_iff, and_assoc, eq_comm (a := fieldOf w)]

/-! ## The edges of a command (10_state.md R31, R40) -/

/-- The accept edge does not look at the word it samples. -/
theorem step_of_offer (s : State) (hrst : s.ports.rst = false) (hbusy : s.busy = false)
    (hvalid : s.ports.cmdValid = true) : step s = .next (s.afterEdge.accept s.ports) := by
  simp [step, State.stepKind, hrst, hbusy, hvalid]

theorem completeEdge_of_decode_eq_error (s : State) (e : Illegal) (h : decode s.ops.cmdl = .error e) :
    completeEdge s = .next (completed s 0x7#4 0#64 0#16) := by
  rw [completeEdge_eq, h]
  rfl

/-- Settles O3: the accept edge is the same for every word, and both ways of being illegal end in
`State.completeIllegal`. -/
theorem illegalCommandsAcceptAndComplete : Obligations.IllegalCommandsAcceptAndComplete := by
  constructor
  case left =>
    intro s hrst hbusy hvalid _
    exact ⟨_, step_of_offer s hrst hbusy hvalid, rfl, rfl, rfl⟩
  case right =>
    intro s hword
    obtain ⟨e, he⟩ := decode_eq_error_of_reserved s.ops.cmdl hword
    exact completeEdge_of_decode_eq_error s e he

/-- Settles O1: the 32 rows of the map are read off the decoder, and the mask keeps exactly RSV and OP. -/
theorem opcodeMapDecodes : Obligations.OpcodeMapDecodes := by
  unfold Obligations.OpcodeMapDecodes
  iterate 32 refine ⟨⟨rfl, rfl⟩, ?_⟩
  exact decode_eq_ok_iff_and_decodeMask

end Sys2Proof.Proofs
end

section
/-! The commands of the field engine on the logarithms of their operands (40_field_engine.md R140 to R148): the operand
check and the operation of each command, said once, and what the operations give for zero and for powers of α. -/
namespace Sys2Proof.Proofs

open Sys2Proof.Machine Sys2Proof.Safety

/-! ## A command whose result is known (00_scope.md R11) -/

theorem exec_of_result_ok {i : Instr} {s : State} {v : Nat} (h : resultOf i s.ops = .ok v) :
    exec i s = .next (completed s 0x0#4 (BitVec.ofNat 64 v) 0#16) := by
  rw [exec_eq, h]
  rfl

theorem exec_of_result_fail {i : Instr} {s : State} {c : Code} (h : resultOf i s.ops = .fail c) :
    exec i s = .next (completed s c.bits 0#64 0#16) := by
  rw [exec_eq, h]
  rfl

/-! ## The operand check comes first (R140) -/

theorem ite_not_isScal {α : Type} (f : Field) (a : Nat) (x y : α) :
    (if !isScal f a then x else y) = if IsElement f a then y else x := by
  simp only [Bool.not_eq_true', ← Bool.not_eq_true, isScal_iff, ite_not]

theorem ite_not_isScal_and {α : Type} (f : Field) (a b : Nat) (x y : α) :
    (if !(isScal f a && isScal f b) then x else y) = if IsElement f a ∧ IsElement f b then y else x := by
  simp only [Bool.not_eq_true', ← Bool.not_eq_true, Bool.and_eq_true, isScal_iff, ite_not]

theorem resultOf_gfAdd (f : Field) (o : OperandRegs) :
    resultOf (.gfAdd f) o = if IsElement f o.a.toNat ∧ IsElement f o.b.toNat then .ok (gfAdd o.a.toNat o.b.toNat)
      else .fail .preconditionViolated :=
  ite_not_isScal_and f _ _ _ _

theorem resultOf_gfMul (f : Field) (o : OperandRegs) :
    resultOf (.gfMul f) o = if IsElement f o.a.toNat ∧ IsElement f o.b.toNat then .ok (gfMul f o.a.toNat o.b.toNat)
      else .fail .preconditionViolated :=
  ite_not_isScal_and f _ _ _ _

theorem resultOf_gfDiv (f : Field) (o : OperandRegs) :
    resultOf (.gfDiv f) o = if IsElement f o.a.toNat ∧ IsElement f o.b.toNat then
        (gfDiv f o.a.toNat o.b.toNat).elim (.fail .divisionByZero) .ok
      else .fail .preconditionViolated := by
  rw [resultOf, gfDivResult, ite_not_isScal_and]
  cases gfDiv f o.a.toNat o.b.toNat <;> rfl

theorem resultOf_gfInv (f : Field) (o : OperandRegs) :
    resultOf (.gfInv f) o = if IsElement f o.a.toNat then (gfInv f o.a.toNat).elim (.fail .invalidOperand) .ok
      else .fail .preconditionViolated := by
  rw [resultOf, gfInvResult, ite_not_isScal]
  cases gfInv f o.a.toNat <;> rfl

theorem resultOf_logRd (f : Field) (o : OperandRegs) :
    resultOf (.logRd f) o = if IsElement f o.a.toNat then (logRom f o.a.toNat).elim (.fail .invalidOperand) .ok
      else .fail .preconditionViolated := by
  rw [resultOf, logRdResult, ite_not_isScal]
  cases logRom f o.a.toNat <;> rfl

/-- EXP_RD checks an index and not a field element (R147). -/
theorem resultOf_expRd (f : Field) (o : OperandRegs) :
    resultOf (.expRd f) o = if o.a.toNat < f.t then .ok (expRom f o.a.toNat) else .fail .preconditionViolated := by
  simp only [resultOf, expRdResult, Bool.not_eq_true', ← Bool.not_eq_true, isIndex_iff, ite_not]

/-! ## Sums and differences of logarithms are indices of EXP_m (R142, R143, R145) -/

theorem add_lt_t {f : Field} {i j : Nat} (hi : i < f.n) (hj : j < f.n) : i + j < f.t := by
  rw [t_eq_two_mul_n]
  omega

theorem lt_t_of_lt_n {f : Field} {i : Nat} (hi : i < f.n) : i < f.t := add_lt_t hi (n_pos f)

/-- The offset N_m keeps the difference of two logarithms inside EXP_m. -/
theorem add_n_sub_lt_t {f : Field} {i : Nat} (hi : i < f.n) (j : Nat) : i + f.n - j < f.t := by
  rw [t_eq_two_mul_n]
  omega

theorem n_sub_lt_t (f : Field) (j : Nat) : f.n - j < f.t := by
  simpa only [Nat.zero_add] using add_n_sub_lt_t (n_pos f) j

/-! ## The powers of α (20_memory.md R61, R63) -/

theorem isElement_zero (f : Field) : IsElement f 0 := Nat.two_pow_pos _

theorem isElement_alphaIter {f : Field} {i : Nat} (hi : i < f.n) : IsElement f (alphaIter f i) := by
  rw [← expRom_eq_alphaIter f i (lt_t_of_lt_n hi)]
  exact expRom_lt f i

theorem logRom_alphaIter {f : Field} {i : Nat} (hi : i < f.n) : logRom f (alphaIter f i) = some i := by
  rw [← expRom_eq_alphaIter f i (lt_t_of_lt_n hi), logRom_expRom f i hi]

theorem exists_alphaIter_eq {f : Field} {v : Nat} (hv : IsElement f v) (hpos : v ≠ 0) :
    ∃ e : Nat, e < f.n ∧ alphaIter f e = v := by
  obtain ⟨e, he, hev⟩ := exists_expRom_eq f v hv (Nat.one_le_iff_ne_zero.mpr hpos)
  exact ⟨e, he, by rw [← expRom_eq_alphaIter f e (lt_t_of_lt_n he), hev]⟩

/-- The powers of α come back to 1 after N_m. -/
theorem alphaIter_n (f : Field) : alphaIter f f.n = 1 := by
  have hn : f.n < f.t := n_sub_lt_t f 0
  rw [← expRom_eq_alphaIter f f.n hn, ← expRom_mod_n f f.n hn, Nat.mod_self, expRom_zero]

theorem expRom_ne_zero {f : Field} {i : Nat} (hi : i < f.t) : expRom f i ≠ 0 := by
  intro h
  have hlog := logRom_expRom f (i % f.n) (Nat.mod_lt i (n_pos f))
  rw [expRom_mod_n f i hi, h, logRom_zero] at hlog
  cases hlog

theorem expRom_add_n {f : Field} {i : Nat} (hi : i < f.n) : expRom f (i + f.n) = expRom f i := by
  have hin : i + f.n < f.t := add_n_sub_lt_t hi 0
  rw [← expRom_mod_n f _ hin, Nat.add_mod_right, Nat.mod_eq_of_lt hi]

/-! ## The operations on zero and on powers of α (R142, R143, R145) -/

@[simp] theorem gfMul_zero_left (f : Field) (b : Nat) : gfMul f 0 b = 0 := by
  rw [gfMul, logRom_zero]

@[simp] theorem gfMul_zero_right (f : Field) (a : Nat) : gfMul f a 0 = 0 := by
  rw [gfMul, logRom_zero]
  cases logRom f a <;> rfl

theorem gfMul_alphaIter {f : Field} {i j : Nat} (hi : i < f.n) (hj : j < f.n) :
    gfMul f (alphaIter f i) (alphaIter f j) = alphaIter f (i + j) := by
  rw [gfMul, logRom_alphaIter hi, logRom_alphaIter hj, ← expRom_eq_alphaIter f _ (add_lt_t hi hj)]

/-- The divisor is tested first. -/
@[simp] theorem gfDiv_zero_right (f : Field) (a : Nat) : gfDiv f a 0 = none := by
  rw [gfDiv, logRom_zero]

theorem gfDiv_zero_alphaIter {f : Field} {j : Nat} (hj : j < f.n) : gfDiv f 0 (alphaIter f j) = some 0 := by
  rw [gfDiv, logRom_alphaIter hj, logRom_zero]

theorem gfDiv_alphaIter {f : Field} {i j : Nat} (hi : i < f.n) (hj : j < f.n) :
    gfDiv f (alphaIter f i) (alphaIter f j) = some (alphaIter f (i + f.n - j)) := by
  rw [gfDiv, logRom_alphaIter hi, logRom_alphaIter hj, ← expRom_eq_alphaIter f _ (add_n_sub_lt_t hi j)]

@[simp] theorem gfInv_zero (f : Field) : gfInv f 0 = none := by
  rw [gfInv, logRom_zero, Option.map_none]

theorem gfInv_alphaIter {f : Field} {i : Nat} (hi : i < f.n) :
    gfInv f (alphaIter f i) = some (alphaIter f (f.n - i)) := by
  rw [gfInv, logRom_alphaIter hi, Option.map_some, expRom_eq_alphaIter f _ (n_sub_lt_t f i)]

/-! ## The commands -/

/-- Settles O19: the XOR of the registers' values is the value of the registers' XOR. -/
theorem gfAddXorsTheElements : Obligations.GfAddXorsTheElements := by
  refine ⟨⟨rfl, rfl⟩, fun f s => ?_⟩
  have hresult := resultOf_gfAdd f s.ops
  split_ifs with hab
  · rw [if_pos hab, gfAdd, ← BitVec.toNat_xor] at hresult
    rw [exec_of_result_ok hresult, BitVec.ofNat_toNat, BitVec.setWidth_eq]
  · exact exec_of_result_fail (hresult.trans (if_neg hab))

/-- Settles O20: a zero factor has no logarithm, and the logarithm of α^i is i. -/
theorem gfMulAddsTheLogarithms : Obligations.GfMulAddsTheLogarithms := by
  refine ⟨⟨rfl, rfl⟩, ?zero, ?powers, ?refused⟩
  case zero =>
    intro f s ha hb hzero
    have hprod : gfMul f s.ops.a.toNat s.ops.b.toNat = 0 := by
      obtain h | h := hzero <;> simp [h]
    exact exec_of_result_ok (by rw [resultOf_gfMul, if_pos ⟨ha, hb⟩, hprod])
  case powers =>
    intro f s i j hi hj ha hb
    refine ⟨by omega, exec_of_result_ok ?_⟩
    rw [resultOf_gfMul, ha, hb, if_pos ⟨isElement_alphaIter hi, isElement_alphaIter hj⟩,
      gfMul_alphaIter hi hj]
  case refused =>
    intro f s hab
    exact exec_of_result_fail ((resultOf_gfMul f s.ops).trans (if_neg hab))

/-- Settles O22: the divisor's logarithm is read first, and a nonzero divisor is a power of α. -/
theorem gfDivSubtractsTheLogarithms : Obligations.GfDivSubtractsTheLogarithms := by
  refine ⟨⟨rfl, rfl⟩, ?byZero, ?ofZero, ?powers, ?refused⟩
  case byZero =>
    intro f s ha hb
    have hb0 : s.ops.b.toNat = 0 := by simp [hb]
    refine exec_of_result_fail (c := .divisionByZero) ?_
    rw [resultOf_gfDiv, hb0, if_pos ⟨ha, isElement_zero f⟩, gfDiv_zero_right, Option.elim_none]
  case ofZero =>
    intro f s ha hb hbne
    have ha0 : s.ops.a.toNat = 0 := by simp [ha]
    obtain ⟨j, hj, hbj⟩ := exists_alphaIter_eq hb (BitVec.toNat_ne_iff_ne.mpr hbne)
    refine exec_of_result_ok ?_
    rw [resultOf_gfDiv, if_pos ⟨ha0 ▸ isElement_zero f, hb⟩, ha0, ← hbj, gfDiv_zero_alphaIter hj,
      Option.elim_some]
  case powers =>
    intro f s i j hi hj ha hb
    refine ⟨add_n_sub_lt_t hi j, exec_of_result_ok ?_⟩
    rw [resultOf_gfDiv, ha, hb, if_pos ⟨isElement_alphaIter hi, isElement_alphaIter hj⟩,
      gfDiv_alphaIter hi hj, Option.elim_some]
  case refused =>
    intro f s hab
    exact exec_of_result_fail ((resultOf_gfDiv f s.ops).trans (if_neg hab))

/-- The inverse of a power of α, the power 1 = α^0 included. -/
theorem exec_gfInv_alphaIter {f : Field} {s : State} {i : Nat} (hi : i < f.n) (ha : s.ops.a.toNat = alphaIter f i) :
    exec (.gfInv f) s = .next (completed s 0x0#4 (BitVec.ofNat 64 (alphaIter f (f.n - i))) 0#16) := by
  refine exec_of_result_ok ?_
  rw [resultOf_gfInv, ha, if_pos (isElement_alphaIter hi), gfInv_alphaIter hi, Option.elim_some]

/-- Settles O26: 1 is α^0, whose negated logarithm N_m is read as α^N_m = 1. -/
theorem gfInvNegatesTheLogarithm : Obligations.GfInvNegatesTheLogarithm := by
  refine ⟨⟨rfl, rfl⟩, ?zero, ?powers, ?one, ?refused⟩
  case zero =>
    intro f s ha
    have ha0 : s.ops.a.toNat = 0 := by simp [ha]
    refine exec_of_result_fail (c := .invalidOperand) ?_
    rw [resultOf_gfInv, ha0, if_pos (isElement_zero f), gfInv_zero, Option.elim_none]
  case powers =>
    intro f s i hi ha
    exact ⟨n_sub_lt_t f i, exec_gfInv_alphaIter hi ha⟩
  case one =>
    intro f s ha
    have ha1 : s.ops.a.toNat = alphaIter f 0 := by simp [ha, alphaIter]
    rw [exec_gfInv_alphaIter (n_pos f) ha1, Nat.sub_zero, alphaIter_n]
  case refused =>
    intro f s ha
    exact exec_of_result_fail ((resultOf_gfInv f s.ops).trans (if_neg ha))

/-- Settles O29: EXP_RD reads EXP, whose entries have logarithms and so are not 0. -/
theorem expRdReadsThePowersOfAlpha : Obligations.ExpRdReadsThePowersOfAlpha := by
  refine ⟨⟨rfl, rfl⟩, ?command, fun f i hi => ⟨expRom_eq_alphaIter f i hi, expRom_ne_zero hi⟩,
    fun f i hi => expRom_add_n hi⟩
  intro f s
  have hresult := resultOf_expRd f s.ops
  split_ifs with ha
  · rw [if_pos ha, expRom_eq_alphaIter f _ ha] at hresult
    exact exec_of_result_ok hresult
  · exact exec_of_result_fail (hresult.trans (if_neg ha))

theorem toNat_ofNat_of_lt_n {f : Field} {e : Nat} (he : e < f.n) : (BitVec.ofNat 64 e).toNat = e := by
  have hn : f.n < 2 ^ 64 := by cases f <;> decide
  exact (BitVec.toNat_ofNat e 64).trans (Nat.mod_eq_of_lt (he.trans hn))

/-- Settles O30: a nonzero element is a power of α below N_m, and LOG undoes it. -/
theorem logRdInvertsThePowersOfAlpha : Obligations.LogRdInvertsThePowersOfAlpha := by
  refine ⟨⟨rfl, rfl⟩, ?element, ?zero, ?refused⟩
  case element =>
    intro f s ha hane
    obtain ⟨e, he, hae⟩ := exists_alphaIter_eq ha (BitVec.toNat_ne_iff_ne.mpr hane)
    have hlog : logRom f s.ops.a.toNat = some e := by rw [← hae, logRom_alphaIter he]
    refine ⟨BitVec.ofNat 64 e, exec_of_result_ok ?_, ?_, ?_⟩
    · rw [resultOf_logRd, if_pos ha, hlog, Option.elim_some]
    · rwa [toNat_ofNat_of_lt_n he]
    · rw [toNat_ofNat_of_lt_n he, hae]
  case zero =>
    intro f s ha
    have ha0 : s.ops.a.toNat = 0 := by simp [ha]
    refine exec_of_result_fail (c := .invalidOperand) ?_
    rw [resultOf_logRd, ha0, if_pos (isElement_zero f), logRom_zero, Option.elim_none]
  case refused =>
    intro f s ha
    exact exec_of_result_fail ((resultOf_logRd f s.ops).trans (if_neg ha))

end Sys2Proof.Proofs
end

section
/-! The product of field elements as an algebra (40_field_engine.md R142, R150): the log and EXP tables give the product of
the polynomial basis, which is commutative, associative and additive. -/
namespace Sys2Proof.Proofs

open Sys2Proof.Machine Sys2Proof.Safety

/-! ## The powers of α have period N_m, so their exponents add without a bound -/

theorem alphaIter_add_n (f : Field) (i : Nat) : alphaIter f (i + f.n) = alphaIter f i := by
  induction i with
  | zero => rw [Nat.zero_add, alphaIter_n, alphaIter]
  | succ i ih => rw [Nat.add_right_comm, alphaIter, ih, alphaIter]

theorem alphaIter_mod_n (f : Field) (i : Nat) : alphaIter f (i % f.n) = alphaIter f i :=
  Function.Periodic.map_mod_nat (alphaIter_add_n f) i

theorem gfMul_alphaIter_alphaIter (f : Field) (i j : Nat) :
    gfMul f (alphaIter f i) (alphaIter f j) = alphaIter f (i + j) :=
  calc gfMul f (alphaIter f i) (alphaIter f j)
      = gfMul f (alphaIter f (i % f.n)) (alphaIter f (j % f.n)) := by simp only [alphaIter_mod_n]
    _ = alphaIter f (i % f.n + j % f.n) := gfMul_alphaIter (Nat.mod_lt i (n_pos f)) (Nat.mod_lt j (n_pos f))
    _ = alphaIter f (i + j) := by rw [← alphaIter_mod_n, ← Nat.add_mod, alphaIter_mod_n]

theorem eq_zero_or_eq_alphaIter {f : Field} {v : Nat} (hv : IsElement f v) : v = 0 ∨ ∃ i : Nat, v = alphaIter f i := by
  by_cases hzero : v = 0
  · exact .inl hzero
  · obtain ⟨i, -, hi⟩ := exists_alphaIter_eq hv hzero
    exact .inr ⟨i, hi.symm⟩

/-! ## gf_mul (R150, the multiplicative group) -/

theorem gfMul_comm (f : Field) (a b : Nat) : gfMul f a b = gfMul f b a := by
  unfold gfMul
  cases logRom f a <;> cases logRom f b <;> simp only [Nat.add_comm]

theorem gfMul_one {f : Field} {a : Nat} (ha : IsElement f a) : gfMul f a 1 = a := by
  obtain rfl | ⟨i, rfl⟩ := eq_zero_or_eq_alphaIter ha
  · exact gfMul_zero_left f 1
  · exact gfMul_alphaIter_alphaIter f i 0

theorem gfMul_assoc {f : Field} {a b c : Nat} (ha : IsElement f a) (hb : IsElement f b) (hc : IsElement f c) :
    gfMul f (gfMul f a b) c = gfMul f a (gfMul f b c) := by
  obtain rfl | ⟨i, rfl⟩ := eq_zero_or_eq_alphaIter ha
  · simp only [gfMul_zero_left]
  obtain rfl | ⟨j, rfl⟩ := eq_zero_or_eq_alphaIter hb
  · simp only [gfMul_zero_left, gfMul_zero_right]
  obtain rfl | ⟨k, rfl⟩ := eq_zero_or_eq_alphaIter hc
  · simp only [gfMul_zero_right]
  simp only [gfMul_alphaIter_alphaIter, Nat.add_assoc]

/-! ## The product in the polynomial basis (R150 "basis") -/

/-- The two multiplication tables agree entry by entry. -/
theorem gfMul_eq_basisMul {f : Field} {a b : Nat} (ha : IsElement f a) (hb : IsElement f b) :
    gfMul f a b = basisMul f a b := by
  have tables : ∀ a : Nat, a < 2 ^ f.m → ∀ b : Nat, b < 2 ^ f.m → gfMul f a b = basisMul f a b := by
    cases f <;> decide
  exact tables a ha b hb

theorem isElement_basisMul {f : Field} {a b : Nat} (ha : IsElement f a) (hb : IsElement f b) :
    IsElement f (basisMul f a b) :=
  gfMul_eq_basisMul ha hb ▸ gfMul_lt f a b

theorem basisMul_comm {f : Field} {a b : Nat} (ha : IsElement f a) (hb : IsElement f b) :
    basisMul f a b = basisMul f b a := by
  rw [← gfMul_eq_basisMul ha hb, ← gfMul_eq_basisMul hb ha, gfMul_comm]

theorem isElement_one (f : Field) : IsElement f 1 := Nat.one_lt_two_pow (m_pos f).ne'

theorem basisMul_one {f : Field} {a : Nat} (ha : IsElement f a) : basisMul f a 1 = a := by
  rw [← gfMul_eq_basisMul ha (isElement_one f), gfMul_one ha]

theorem basisMul_zero_left {f : Field} {b : Nat} (hb : IsElement f b) : basisMul f 0 b = 0 := by
  rw [← gfMul_eq_basisMul (isElement_zero f) hb, gfMul_zero_left]

theorem basisMul_assoc {f : Field} {a b c : Nat} (ha : IsElement f a) (hb : IsElement f b) (hc : IsElement f c) :
    basisMul f (basisMul f a b) c = basisMul f a (basisMul f b c) := by
  rw [← gfMul_eq_basisMul (isElement_basisMul ha hb) hc, ← gfMul_eq_basisMul ha (isElement_basisMul hb hc),
    ← gfMul_eq_basisMul ha hb, ← gfMul_eq_basisMul hb hc, gfMul_assoc ha hb hc]

theorem isElement_basisPow {f : Field} {x : Nat} (hx : IsElement f x) (i : Nat) : IsElement f (basisPow f x i) := by
  induction i with
  | zero => exact isElement_one f
  | succ i ih => exact isElement_basisMul ih hx

/-! ## The basis product is additive: XOR passes through the shifts and through the reduction -/

theorem xorUpTo_congr {g h : Nat → Nat} {n : Nat} (hgh : ∀ i : Nat, i < n → g i = h i) : xorUpTo g n = xorUpTo h n := by
  induction n with
  | zero => rfl
  | succ n ih => rw [xorUpTo, xorUpTo, ih fun i hi => hgh i (Nat.lt_succ_of_lt hi), hgh n (Nat.lt_succ_self n)]

theorem xorUpTo_xor (g h : Nat → Nat) (n : Nat) : xorUpTo (fun i => g i ^^^ h i) n = xorUpTo g n ^^^ xorUpTo h n := by
  induction n with
  | zero => exact (Nat.xor_self 0).symm
  | succ n ih =>
    simp only [xorUpTo, ih]
    ac_rfl

theorem carryless_xor_left (f : Field) (a b c : Nat) :
    carryless f (a ^^^ b) c = carryless f a c ^^^ carryless f b c := by
  simp only [carryless, ← xorUpTo_xor]
  refine xorUpTo_congr fun j _ => ?_
  split
  · exact Nat.shiftLeft_xor_distrib
  · rfl

/-- Whether POLY_m is XORed in depends on the top bit, and the top bit of v ⊕ w is the XOR of the two. -/
theorem reduce_xor (f : Field) (n v w : Nat) : reduce f n (v ^^^ w) = reduce f n v ^^^ reduce f n w := by
  induction n generalizing v w with
  | zero => rfl
  | succ n ih =>
    simp only [reduce, Nat.testBit_xor, ← ih]
    congr 1
    cases v.testBit (f.m + n) with
    | false => cases w.testBit (f.m + n) <;> simp [Nat.xor_assoc]
    | true => cases w.testBit (f.m + n) <;> simp [Nat.xor_assoc, Nat.xor_comm, Nat.xor_left_comm]

theorem basisMul_xor_left (f : Field) (a b c : Nat) :
    basisMul f (a ^^^ b) c = basisMul f a c ^^^ basisMul f b c := by
  rw [basisMul, carryless_xor_left, reduce_xor, basisMul, basisMul]

end Sys2Proof.Proofs
end

section
/-! Packed polynomials as coefficient sequences (00_scope.md R9, 41_polynomial_engine.md R179 to R187): the machine's
product, its Horner loop and its degree scan against the algebra of Sys2Proof/Safety.lean. -/
namespace Sys2Proof.Proofs

open Sys2Proof.Machine Sys2Proof.Safety

/-! ## Words that fit -/

/-- A word below 2^(m·n) is one whose slots from n on are 0. -/
theorem lt_two_pow_iff_slots (f : Field) (p n : Nat) : p < 2 ^ (n * f.m) ↔ ∀ i : Nat, n ≤ i → slot f p i = 0 := by
  constructor
  case mp =>
    intro hp i hi
    exact slot_eq_zero_of_lt f p n i (Nat.mul_comm n f.m ▸ hp) hi
  case mpr =>
    intro hslots
    have hlow : p = lowk f p n := by
      refine eq_of_slots f _ _ fun i => ?_
      rw [slot_lowk]
      split_ifs with hi
      · rfl
      · exact hslots i (Nat.le_of_not_lt hi)
    exact hlow ▸ lowk_lt f p n

theorem toNat_ofNat_of_lt {v : Nat} (hv : v < 2 ^ 64) : (BitVec.ofNat 64 v).toNat = v :=
  (BitVec.toNat_ofNat v 64).trans (Nat.mod_eq_of_lt hv)

/-- A packed polynomial fits the 64 bits of Y (R9). -/
theorem toNat_ofNat_of_isPacked {f : Field} {v : Nat} (hv : IsPacked f v) : (BitVec.ofNat 64 v).toNat = v := by
  have hsize : 2 ^ (f.slots * f.m) ≤ 2 ^ 64 := Nat.pow_le_pow_right (by decide) (by cases f <;> decide)
  exact toNat_ofNat_of_lt (hv.trans_le hsize)

theorem isPacked_zero (f : Field) : IsPacked f 0 := Nat.two_pow_pos _

theorem toNat_ofNat_of_lt_slots {f : Field} {d : Nat} (hd : d < f.slots) : (BitVec.ofNat 64 d).toNat = d := by
  have hslots : f.slots < 2 ^ 64 := by cases f <;> decide
  exact toNat_ofNat_of_lt (hd.trans hslots)

/-! ## The product (R179, R182) -/

theorem prodCoeff_eq_conv (f : Field) (p q n : Nat) : prodCoeff f p q n = conv f (slot f p) (slot f q) n :=
  xorUpTo_congr fun _ _ => gfMul_eq_basisMul (slot_lt f _ _) (slot_lt f _ _)

theorem slot_prod_eq_conv (f : Field) (p q : Nat) {n : Nat} (hn : n ≤ 2 * f.slots - 2) :
    slot f (prod f p q) n = conv f (slot f p) (slot f q) n := by
  have hpos := slots_pos f
  rw [slot_prod, if_pos (by omega), prodCoeff_eq_conv]

theorem isPacked_prod_iff (f : Field) (p q : Nat) :
    IsPacked f (prod f p q) ↔
      ∀ n : Nat, f.slots ≤ n → n ≤ 2 * f.slots - 2 → conv f (slot f p) (slot f q) n = 0 := by
  refine (lt_two_pow_iff_slots f _ _).trans (forall₂_congr fun n hlow => ?_)
  by_cases hn : n ≤ 2 * f.slots - 2
  · rw [slot_prod_eq_conv f p q hn, forall_prop_of_true hn]
  · rw [slot_prod, if_neg (by omega)]
    exact ⟨fun _ h => absurd h hn, fun _ => rfl⟩

theorem fitOrFail_of_isPacked {f : Field} {r : Nat} (hr : IsPacked f r) : fitOrFail f r = .ok r := by
  obtain ⟨-, h⟩ | ⟨hle, -⟩ := fitOrFail_cases f r
  · exact h
  · exact absurd hr (Nat.not_lt.mpr hle)

theorem fitOrFail_of_not_isPacked {f : Field} {r : Nat} (hr : ¬IsPacked f r) :
    fitOrFail f r = .fail .preconditionViolated := by
  obtain ⟨hlt, -⟩ | ⟨-, h⟩ := fitOrFail_cases f r
  · exact absurd hlt hr
  · exact h

/-- force1 sets coefficient 0 to 1. -/
theorem slot_force1_eq_oneAtZero (f : Field) (q : Nat) : slot f (force1 f q) = oneAtZero (slot f q) :=
  funext (slot_force1 f q)

theorem isPacked_prod_force1_iff (f : Field) (p q : Nat) :
    IsPacked f (prod f p (force1 f q)) ↔
      ∀ n : Nat, f.slots ≤ n → n ≤ 2 * f.slots - 2 → conv f (slot f p) (oneAtZero (slot f q)) n = 0 := by
  rw [← slot_force1_eq_oneAtZero]
  exact isPacked_prod_iff f p (force1 f q)

/-! ## The derivative (R185) -/

theorem isPacked_polyDeriv (f : Field) (p : Nat) : IsPacked f (polyDeriv f p) := by
  refine (lt_two_pow_iff_slots f _ _).mpr fun i hi => ?_
  rw [slot_polyDeriv, if_neg (Nat.not_lt.mpr hi)]

/-! ## Horner's method (R184) -/

/-- The loop over t slots multiplies its start value by x^t and adds the value of those slots. -/
theorem hornerLoop_eq {f : Field} {x : Nat} (hx : IsElement f x) (p t r : Nat) (hr : IsElement f r) :
    hornerLoop f p x t r = basisMul f r (basisPow f x t) ^^^ valueAt f (slot f p) t x := by
  induction t generalizing r with
  | zero =>
    change r = basisMul f r 1 ^^^ 0
    rw [basisMul_one hr, Nat.xor_zero]
  | succ t ih =>
    have hpow : IsElement f (basisPow f x t) := isElement_basisPow hx t
    have hnext : IsElement f (gfAdd (gfMul f r x) (slot f p t)) :=
      Nat.xor_lt_two_pow (gfMul_lt f r x) (slot_lt f p t)
    have hstart : basisMul f (basisMul f r x) (basisPow f x t) = basisMul f r (basisPow f x (t + 1)) := by
      rw [basisMul_assoc hr hx hpow, basisMul_comm hx hpow, basisPow]
    calc hornerLoop f p x (t + 1) r
        = basisMul f (gfAdd (gfMul f r x) (slot f p t)) (basisPow f x t) ^^^ valueAt f (slot f p) t x := ih _ hnext
      _ = basisMul f r (basisPow f x (t + 1)) ^^^ basisMul f (slot f p t) (basisPow f x t) ^^^
            valueAt f (slot f p) t x := by
          rw [gfAdd, basisMul_xor_left, gfMul_eq_basisMul hr hx, hstart]
      _ = basisMul f r (basisPow f x (t + 1)) ^^^ valueAt f (slot f p) (t + 1) x := by
          rw [Nat.xor_assoc, Nat.xor_comm (basisMul f (slot f p t) _), valueAt, valueAt, xorUpTo]

theorem polyEval_eq_valueAt {f : Field} {x : Nat} (hx : IsElement f x) (p t : Nat) :
    polyEval f p t x = valueAt f (slot f p) t x := by
  rw [polyEval, hornerLoop_eq hx p t 0 (isElement_zero f), basisMul_zero_left (isElement_basisPow hx t), Nat.zero_xor]

/-! ## The degree (R9, R186) -/

@[simp] theorem deg_zero (f : Field) : deg f 0 = none := by
  obtain ⟨hnone, -⟩ | ⟨d, -, -, hd, -⟩ := degBelow_cases f 0 f.slots
  · exact hnone
  · exact absurd (slot_zero f d) hd

/-- A nonzero packed word has a degree, and the scan finds it: all its slots from SLOTS_m on are 0. -/
theorem exists_deg_eq_some {f : Field} {p : Nat} (hp : IsPacked f p) (hne : p ≠ 0) :
    ∃ d : Nat, deg f p = some d ∧ d < f.slots ∧ HasDegree f p d := by
  have hhigh := (lt_two_pow_iff_slots f p f.slots).mp hp
  obtain ⟨-, hzero⟩ | ⟨d, hd, hlt, hslot, habove⟩ := degBelow_cases f p f.slots
  · refine absurd (eq_of_slots f p 0 fun i => ?_) hne
    rw [slot_zero]
    exact (Nat.lt_or_ge i f.slots).elim (hzero i) (hhigh i)
  · exact ⟨d, hd, hlt, hslot, fun i hi => (Nat.lt_or_ge i f.slots).elim (habove i hi) (hhigh i)⟩

end Sys2Proof.Proofs
end

section
/-! The commands of the polynomial engine (41_polynomial_engine.md R182 to R187): the operand check and the operation of
each command, said once, and the statements about them. -/
namespace Sys2Proof.Proofs

open Sys2Proof.Machine Sys2Proof.Safety

/-! ## The operand check comes first -/

theorem ite_not_isPoly {α : Type} (f : Field) (a : Nat) (x y : α) :
    (if !isPoly f a then x else y) = if IsPacked f a then y else x := by
  simp only [Bool.not_eq_true', ← Bool.not_eq_true, isPoly_iff, ite_not]

theorem resultOf_pMulm (f : Field) (o : OperandRegs) :
    resultOf (.pMulm f) o = if IsPacked f o.a.toNat ∧ IsPacked f o.b.toNat then
        fitOrFail f (prod f o.a.toNat (force1 f o.b.toNat))
      else .fail .preconditionViolated := by
  simp only [resultOf, pMulmResult, Bool.not_eq_true', ← Bool.not_eq_true, Bool.and_eq_true, isPoly_iff, ite_not]

/-- The two checks of P_EVAL fail with the same code, and so are one (R184). -/
theorem resultOf_pEval (f : Field) (o : OperandRegs) :
    resultOf (.pEval f) o =
      if IsPacked f o.a.toNat ∧ IsElement f o.b.toNat ∧ o.sza.toNat % f.m = 0 ∧ o.sza.toNat ≤ f.slots * f.m then
        .ok (polyEval f o.a.toNat (o.sza.toNat / f.m) o.b.toNat)
      else .fail .preconditionViolated := by
  have hsize : (!isPsize f o.sza.toNat || decide (o.sza.toNat > f.slots * f.m)) = true ↔
      ¬(o.sza.toNat % f.m = 0 ∧ o.sza.toNat ≤ f.slots * f.m) := by
    rw [Bool.or_eq_true, Bool.not_eq_true', ← Bool.not_eq_true, isPsize_iff, decide_eq_true_iff, gt_iff_lt, ← not_le,
      not_and_or]
  have hclass : (!(isPoly f o.a.toNat && isScal f o.b.toNat)) = true ↔
      ¬(IsPacked f o.a.toNat ∧ IsElement f o.b.toNat) := by
    rw [Bool.not_eq_true', ← Bool.not_eq_true, Bool.and_eq_true, isPoly_iff, isScal_iff]
  simp only [resultOf, pEvalResult, hsize, hclass, ite_not, ← ite_and, and_assoc]

theorem resultOf_pDeriv (f : Field) (o : OperandRegs) :
    resultOf (.pDeriv f) o = if IsPacked f o.a.toNat then .ok (polyDeriv f o.a.toNat) else .fail .preconditionViolated :=
  ite_not_isPoly f _ _ _

theorem resultOf_pOrder (f : Field) (o : OperandRegs) :
    resultOf (.pOrder f) o = if IsPacked f o.a.toNat then (deg f o.a.toNat).elim (.fail .invalidOperand) .ok
      else .fail .preconditionViolated := by
  rw [resultOf, pOrderResult, ite_not_isPoly]
  cases deg f o.a.toNat <;> rfl

theorem resultOf_pSize (f : Field) (o : OperandRegs) :
    resultOf (.pSize f) o = if IsPacked f o.a.toNat then
        (deg f o.a.toNat).elim (.ok 0) fun d => .ok ((d + 1) * f.m)
      else .fail .preconditionViolated := by
  rw [resultOf, pSizeResult, ite_not_isPoly]
  cases deg f o.a.toNat <;> rfl

/-! ## The commands -/

/-- Settles O37: force1 is coefficient 0 taken as 1, and the container check reads the coefficients from SLOTS_m on. -/
theorem pMulmTakesSlotZeroAsOne : Obligations.PMulmTakesSlotZeroAsOne := by
  refine ⟨⟨rfl, rfl⟩, ?fits, ?overflow, ?refused⟩
  case fits =>
    intro f s ha hb hzero
    have hpacked := (isPacked_prod_force1_iff f s.ops.a.toNat s.ops.b.toNat).mpr hzero
    refine ⟨_, exec_of_result_ok (v := prod f s.ops.a.toNat (force1 f s.ops.b.toNat)) ?_, ?_⟩
    · rw [resultOf_pMulm, if_pos ⟨ha, hb⟩, fitOrFail_of_isPacked hpacked]
    · rw [toNat_ofNat_of_isPacked hpacked]
      refine ⟨hpacked, fun n hn => ?_⟩
      rw [slot_prod_eq_conv f _ _ (by omega), slot_force1_eq_oneAtZero]
  case overflow =>
    rintro f s ⟨n, hlow, hhigh, hne⟩
    have hover : ¬IsPacked f (prod f s.ops.a.toNat (force1 f s.ops.b.toNat)) :=
      fun hpacked => hne ((isPacked_prod_force1_iff f _ _).mp hpacked n hlow hhigh)
    refine exec_of_result_fail (c := .preconditionViolated) ?_
    rw [resultOf_pMulm, fitOrFail_of_not_isPacked hover, ite_self]
  case refused =>
    intro f s hab
    exact exec_of_result_fail ((resultOf_pMulm f s.ops).trans (if_neg hab))

/-- Settles O39: Horner's method from 0 gives the value. -/
theorem pEvalGivesTheValue : Obligations.PEvalGivesTheValue := by
  refine ⟨⟨rfl, rfl⟩, fun f s => ?_⟩
  have hresult := resultOf_pEval f s.ops
  split_ifs with hops
  · rw [if_pos hops] at hresult
    obtain ⟨-, hx, -⟩ := hops
    rw [polyEval_eq_valueAt hx] at hresult
    exact exec_of_result_ok hresult
  · exact exec_of_result_fail (hresult.trans (if_neg hops))

/-- Settles O41: the slots of the packed derivative are the ones R185 moves down. -/
theorem pDerivMovesOddSlotsDown : Obligations.PDerivMovesOddSlotsDown := by
  refine ⟨⟨rfl, rfl⟩, ?packed, ?refused⟩
  case packed =>
    intro f s ha
    refine ⟨_, exec_of_result_ok ((resultOf_pDeriv f s.ops).trans (if_pos ha)), ?_⟩
    rw [toNat_ofNat_of_isPacked (isPacked_polyDeriv f _)]
    refine ⟨isPacked_polyDeriv f _, fun j hj => ?_⟩
    rw [slot_polyDeriv, if_pos hj, derivCoeff]
  case refused =>
    intro f s ha
    exact exec_of_result_fail ((resultOf_pDeriv f s.ops).trans (if_neg ha))

/-- Settles O42: the scan finds the highest nonzero slot, and finds none in the word 0. -/
theorem pOrderGivesTheDegree : Obligations.POrderGivesTheDegree := by
  refine ⟨⟨rfl, rfl⟩, ?nonzero, ?zero, ?refused⟩
  case nonzero =>
    intro f s ha hne
    obtain ⟨d, hdeg, hlt, hhas⟩ := exists_deg_eq_some ha (BitVec.toNat_ne_iff_ne.mpr hne)
    refine ⟨_, exec_of_result_ok (v := d) ?_, ?_⟩
    · rw [resultOf_pOrder, if_pos ha, hdeg, Option.elim_some]
    · rw [toNat_ofNat_of_lt_slots hlt]
      exact ⟨hlt, hhas⟩
  case zero =>
    intro f s ha
    refine exec_of_result_fail (c := .invalidOperand) ?_
    rw [resultOf_pOrder, ha, BitVec.toNat_zero, if_pos (isPacked_zero f), deg_zero, Option.elim_none]
  case refused =>
    intro f s ha
    exact exec_of_result_fail ((resultOf_pOrder f s.ops).trans (if_neg ha))

/-- Settles O43: P_SIZE scans as P_ORDER does, and answers 0 where the scan finds nothing. -/
theorem pSizeGivesTheBitSize : Obligations.PSizeGivesTheBitSize := by
  refine ⟨⟨rfl, rfl⟩, ?nonzero, ?zero, ?refused⟩
  case nonzero =>
    intro f s ha hne
    obtain ⟨d, hdeg, hlt, hhas⟩ := exists_deg_eq_some ha (BitVec.toNat_ne_iff_ne.mpr hne)
    refine ⟨d, exec_of_result_ok ?_, hlt, hhas⟩
    rw [resultOf_pSize, if_pos ha, hdeg, Option.elim_some]
  case zero =>
    intro f s ha
    refine exec_of_result_ok (v := 0) ?_
    rw [resultOf_pSize, ha, BitVec.toNat_zero, if_pos (isPacked_zero f), deg_zero, Option.elim_none]
  case refused =>
    intro f s ha
    exact exec_of_result_fail ((resultOf_pSize f s.ops).trans (if_neg ha))

end Sys2Proof.Proofs
end

section
/-! RS_ENCODE (42_encoder.md R230): what P_MOD accepts and gives, what the encoder hands to it, and why it cannot fail
there. -/
namespace Sys2Proof.Proofs

open Sys2Proof.Machine Sys2Proof.Safety

/-! ## P_MOD (41_polynomial_engine.md R183) -/

theorem shiftRight_ne_zero_iff (v n : Nat) : v >>> n ≠ 0 ↔ ¬v < 2 ^ n := by
  rw [← shiftRight_beq_zero_iff, beq_iff_eq]

/-- The five checks of P_MOD fail with the same code, and so are one. -/
theorem resultOf_pMod (f : Field) (o : OperandRegs) :
    resultOf (.pMod f) o = if ModOperands f o then
        .ok (polyMod f o.a.toNat (o.sza.toNat / f.m) o.b.toNat (o.szb.toNat / f.m))
      else .fail .preconditionViolated := by
  have hclass : (!(isPoly f o.a.toNat && isPoly f o.b.toNat)) = true ↔
      ¬(IsPacked f o.a.toNat ∧ IsPacked f o.b.toNat) := by
    rw [Bool.not_eq_true', ← Bool.not_eq_true, Bool.and_eq_true, isPoly_iff, isPoly_iff]
  have hsizes : (!(isPsize f o.sza.toNat && isPsize f o.szb.toNat)) = true ↔
      ¬(o.sza.toNat % f.m = 0 ∧ o.szb.toNat % f.m = 0) := by
    rw [Bool.not_eq_true', ← Bool.not_eq_true, Bool.and_eq_true, isPsize_iff, isPsize_iff]
  have hslots (n : Nat) : n > f.slots ↔ ¬n ≤ f.slots := not_le.symm
  simp only [resultOf, pModResult, ModOperands, hclass, hsizes, hslots, shiftRight_ne_zero_iff, ← not_and_or,
    ite_not, ← ite_and, and_assoc]

/-! ## The generator as divisor (20_memory.md R65) -/

theorem count_lt_n {f : Field} {k : Nat} (hk : IsCount f k) : k < f.n := by
  have hmax : f.kmax < f.n := by cases f <;> decide
  exact hk.2.trans_lt hmax

theorem n_le_slots (f : Field) : f.n ≤ f.slots := by cases f <;> decide

/-- A word of at most SLOTS_m slots is packed. -/
theorem isPacked_of_lt_two_pow {f : Field} {v n : Nat} (hv : v < 2 ^ (n * f.m)) (hn : n ≤ f.slots) : IsPacked f v :=
  hv.trans_le (Nat.pow_le_pow_right Nat.two_pos (Nat.mul_le_mul_right f.m hn))

/-- A size register holds the size of up to N_m slots. -/
theorem toNat_ofNat_size {f : Field} {n : Nat} (hn : n ≤ f.n) : (BitVec.ofNat 8 (n * f.m)).toNat = n * f.m := by
  have hsize : f.n * f.m < 2 ^ 8 := by cases f <;> decide
  rw [BitVec.toNat_ofNat, Nat.mod_eq_of_lt ((Nat.mul_le_mul_right f.m hn).trans_lt hsize)]

theorem isPacked_genRom {f : Field} {k : Nat} (hk : IsCount f k) : IsPacked f (genRom f k) :=
  isPacked_of_lt_two_pow (genRom_lt f k hk.2 hk.1) ((count_lt_n hk).trans_le (n_le_slots f))

/-- P_MOD of a word of N_m slots by g_k, with N_m − k quotient slots: g_k is monic of degree k, so no check fails. -/
theorem exec_pMod_genRom {f : Field} {u : State} {k : Nat} (hk : IsCount f k) (ha : u.ops.a.toNat < 2 ^ (f.n * f.m))
    (hsza : u.ops.sza = BitVec.ofNat 8 ((f.n - k) * f.m)) (hb : u.ops.b = BitVec.ofNat 64 (genRom f k))
    (hszb : u.ops.szb = BitVec.ofNat 8 (k * f.m)) :
    exec (.pMod f) u =
      .next (completed u 0x0#4 (BitVec.ofNat 64 (polyMod f u.ops.a.toNat (f.n - k) (genRom f k) k)) 0#16) := by
  have hkn : k ≤ f.n := (count_lt_n hk).le
  have hgen : (BitVec.ofNat 64 (genRom f k)).toNat = genRom f k := toNat_ofNat_of_isPacked (isPacked_genRom hk)
  have hslots : f.n - k + k = f.n := Nat.sub_add_cancel hkn
  have hops : ModOperands f u.ops := by
    rw [ModOperands, hsza, hb, hszb, hgen, toNat_ofNat_size (Nat.sub_le f.n k), toNat_ofNat_size hkn,
      Nat.mul_div_cancel _ (m_pos f), Nat.mul_div_cancel _ (m_pos f), hslots]
    exact ⟨isPacked_of_lt_two_pow ha (n_le_slots f), isPacked_genRom hk, Nat.mul_mod_left _ _, Nat.mul_mod_left _ _,
      n_le_slots f, slot_genRom_top f k hk.2 hk.1, genRom_lt f k hk.2 hk.1, ha⟩
  refine exec_of_result_ok ((resultOf_pMod f u.ops).trans ?_)
  rw [if_pos hops, hsza, hb, hszb, hgen, toNat_ofNat_size (Nat.sub_le f.n k), toNat_ofNat_size hkn,
    Nat.mul_div_cancel _ (m_pos f), Nat.mul_div_cancel _ (m_pos f)]

/-! ## The encoder -/

/-- The message cut to N_m − k symbols and shifted up by k slots (R230, step 1). -/
def shiftedMessage (f : Field) (message k : Nat) : Nat := message % 2 ^ ((f.n - k) * f.m) * 2 ^ (k * f.m)

theorem encodeWord_eq (f : Field) (message k : Nat) :
    encodeWord f message k =
      shiftedMessage f message k ||| polyMod f (shiftedMessage f message k) (f.n - k) (genRom f k) k := by
  rw [shiftedMessage, ← Nat.shiftLeft_eq, encodeWord]

theorem shiftedMessage_lt {f : Field} {k : Nat} (hk : k ≤ f.n) (message : Nat) :
    shiftedMessage f message k < 2 ^ (f.n * f.m) := by
  have hsize : 2 ^ (f.n * f.m) = 2 ^ ((f.n - k) * f.m) * 2 ^ (k * f.m) := by
    rw [← pow_add, ← Nat.add_mul, Nat.sub_add_cancel hk]
  rw [hsize]
  exact Nat.mul_lt_mul_of_pos_right (Nat.mod_lt _ (Nat.two_pow_pos _)) (Nat.two_pow_pos _)

theorem polyMod_lt (f : Field) (p t q k : Nat) : polyMod f p t q k < 2 ^ (k * f.m) := lowk_lt f _ k

theorem resultOf_rsEncode (f : Field) (o : OperandRegs) :
    resultOf (.rsEncode f) o =
      if IsCount f o.k.toNat then .ok (encodeWord f o.a.toNat o.k.toNat) else .fail .preconditionViolated := by
  simp only [resultOf, rsEncodeResult, Bool.not_eq_true', ← Bool.not_eq_true, isKchk_iff, ite_not]

/-- Settles O44: the shifted message has N_m slots and g_k is monic of degree k, so P_MOD answers, with what the encoder
appends. -/
theorem rsEncodeAppendsTheRemainder : Obligations.RsEncodeAppendsTheRemainder := by
  refine ⟨⟨rfl, rfl⟩, ?appends, ?refused⟩
  case appends =>
    intro f s u hk ha hsza hb hszb
    have hkn := count_lt_n hk
    have hlt : shiftedMessage f s.ops.a.toNat s.ops.k.toNat < 2 ^ (f.n * f.m) := shiftedMessage_lt hkn.le _
    have hmsg : u.ops.a.toNat = shiftedMessage f s.ops.a.toNat s.ops.k.toNat := by
      rw [ha]
      exact toNat_ofNat_of_isPacked (isPacked_of_lt_two_pow hlt (n_le_slots f))
    refine ⟨_, exec_pMod_genRom hk (hmsg ▸ hlt) hsza hb hszb, ?_, ?_⟩
    · have hchecks := polyMod_lt f u.ops.a.toNat (f.n - s.ops.k.toNat) (genRom f s.ops.k.toNat) s.ops.k.toNat
      have hpacked := isPacked_of_lt_two_pow hchecks (hkn.le.trans (n_le_slots f))
      rwa [toNat_ofNat_of_isPacked hpacked]
    · rw [exec_of_result_ok ((resultOf_rsEncode f s.ops).trans (if_pos hk)), encodeWord_eq, ← hmsg, BitVec.ofNat_or,
        BitVec.ofNat_toNat, BitVec.setWidth_eq]
  case refused =>
    intro f s hk
    exact exec_of_result_fail ((resultOf_rsEncode f s.ops).trans (if_neg hk))

end Sys2Proof.Proofs
end

section
/-! RS_SYNDROME and RS_FSYND (43_decoder_stages.md R251, R253): the syndrome loop as the packing of the received word's
values at the roots, and the errata evaluator as the low slots of a product. -/
namespace Sys2Proof.Proofs

open Sys2Proof.Machine Sys2Proof.Safety

/-! ## Results of k slots -/

theorem exec_of_result_okAux {i : Instr} {s : State} {v aux : Nat} (h : resultOf i s.ops = .okAux v aux) :
    exec i s = .next (completed s 0x0#4 (BitVec.ofNat 64 v) (BitVec.ofNat 16 aux)) := by
  rw [exec_eq, h]
  rfl

theorem count_lt_slots {f : Field} {k : Nat} (hk : IsCount f k) : k < f.slots :=
  (count_lt_n hk).trans_le (n_le_slots f)

/-- A result of k slots, k a check-symbol count, fits the 64 bits of Y. -/
theorem toNat_ofNat_of_lt_count {f : Field} {v k : Nat} (hk : IsCount f k) (hv : v < 2 ^ (k * f.m)) :
    (BitVec.ofNat 64 v).toNat = v :=
  toNat_ofNat_of_isPacked (isPacked_of_lt_two_pow hv (count_lt_slots hk).le)

/-! ## The syndromes (R251) -/

theorem isElement_valueAt {f : Field} {x : Nat} (hx : IsElement f x) (p t : Nat) :
    IsElement f (valueAt f (slot f p) t x) :=
  xorUpTo_lt _ _ _ fun i => isElement_basisMul (slot_lt f p i) (isElement_basisPow hx i)

theorem polyEval_expRom_lt (f : Field) (r nr i : Nat) : polyEval f r nr (expRom f i) < 2 ^ f.m := by
  have hx : IsElement f (expRom f i) := expRom_lt f i
  rw [polyEval_eq_valueAt hx]
  exact isElement_valueAt hx r nr

/-- Each turn shifts what it has by one slot, so n turns put the values at α^1 .. α^n below the start value. -/
theorem syndromeLoop_eq (f : Field) (r nr n s : Nat) :
    syndromeLoop f r nr n s =
      packUpTo f (fun i => polyEval f r nr (expRom f (i + 1))) n + s <<< (f.m * n) := by
  induction n generalizing s with
  | zero => rw [syndromeLoop, packUpTo, Nat.mul_zero, Nat.shiftLeft_zero, Nat.zero_add]
  | succ n ih =>
    rw [syndromeLoop, ih, packUpTo, ← Nat.shiftLeft_add_eq_or_of_lt (polyEval_expRom_lt f r nr (n + 1))]
    simp only [Nat.shiftLeft_eq, Nat.mul_succ, pow_add]
    ring

theorem syndrome_eq_packUpTo (f : Field) (r nr k : Nat) :
    syndrome f r nr k = packUpTo f (fun i => polyEval f r nr (expRom f (i + 1))) k := by
  rw [syndrome, syndromeLoop_eq, Nat.zero_shiftLeft, Nat.add_zero]

theorem syndrome_lt (f : Field) (r nr k : Nat) : syndrome f r nr k < 2 ^ (k * f.m) := by
  rw [syndrome_eq_packUpTo, Nat.mul_comm]
  exact packUpTo_lt f _ (fun i => polyEval_expRom_lt f r nr (i + 1)) k

/-- Slot i of S is R(α^(i+1)). -/
theorem slot_syndrome {f : Field} {k i : Nat} (hk : IsCount f k) (hi : i < k) (r nr : Nat) :
    slot f (syndrome f r nr k) i = valueAt f (slot f r) nr (alphaIter f (i + 1)) := by
  have hexp : expRom f (i + 1) = alphaIter f (i + 1) :=
    expRom_eq_alphaIter f (i + 1) (lt_t_of_lt_n (Nat.lt_of_le_of_lt hi (count_lt_n hk)))
  rw [syndrome_eq_packUpTo, slot_packUpTo f _ (fun i => polyEval_expRom_lt f r nr (i + 1)), if_pos hi,
    polyEval_eq_valueAt (expRom_lt f (i + 1)), hexp]

/-- The three checks of RS_SYNDROME fail with the same code, and so are one. -/
theorem resultOf_rsSyndrome (f : Field) (o : OperandRegs) :
    resultOf (.rsSyndrome f) o =
      if IsCount f o.k.toNat ∧ IsReceivedSize f o.sza.toNat ∧ o.a.toNat < 2 ^ o.sza.toNat then
        .okAux (syndrome f o.a.toNat (o.sza.toNat / f.m) o.k.toNat)
          (allZeroFlag (syndrome f o.a.toNat (o.sza.toNat / f.m) o.k.toNat))
      else .fail .preconditionViolated := by
  simp only [resultOf, rsSyndromeResult, Bool.not_eq_true', ← Bool.not_eq_true, isKchk_iff, isRsize_iff, fitsSize_iff,
    ite_not, ← ite_and]

/-- The flag of R251, read off the Y register: S fits Y, so Y = 0 only for S = 0. -/
theorem ofNat_allZeroFlag {syn : Nat} (hsyn : (BitVec.ofNat 64 syn).toNat = syn) :
    BitVec.ofNat 16 (allZeroFlag syn) = if BitVec.ofNat 64 syn = 0#64 then 1#16 else 0#16 := by
  have hzero : BitVec.ofNat 64 syn = 0#64 ↔ syn = 0 := by
    rw [← BitVec.toNat_inj, hsyn, BitVec.toNat_zero]
  rw [allZeroFlag, apply_ite (BitVec.ofNat 16)]
  exact if_congr hzero.symm rfl rfl

/-- Settles O48: the loop packs the values at the roots, and those k slots fit Y. -/
theorem rsSyndromeEvaluatesAtTheRoots : Obligations.RsSyndromeEvaluatesAtTheRoots := by
  refine ⟨⟨rfl, rfl⟩, ?accepted, ?refused⟩
  case accepted =>
    intro f s hk hsize ha
    have hlt := syndrome_lt f s.ops.a.toNat (s.ops.sza.toNat / f.m) s.ops.k.toNat
    have hy := toNat_ofNat_of_lt_count hk hlt
    refine ⟨BitVec.ofNat 64 (syndrome f s.ops.a.toNat (s.ops.sza.toNat / f.m) s.ops.k.toNat), ?_, ?_⟩
    · rw [← ofNat_allZeroFlag hy]
      exact exec_of_result_okAux ((resultOf_rsSyndrome f s.ops).trans (if_pos ⟨hk, hsize, ha⟩))
    · rw [hy]
      exact ⟨hlt, fun i hi => slot_syndrome hk hi _ _⟩
  case refused =>
    intro f s hops
    exact exec_of_result_fail ((resultOf_rsSyndrome f s.ops).trans (if_neg hops))

/-! ## The errata evaluator (R253) -/

theorem errataEvaluator_lt (f : Field) (s g k : Nat) : errataEvaluator f s g k < 2 ^ (k * f.m) := lowk_lt f _ k

/-- The k low slots lie inside the product, whatever lies above the container. -/
theorem slot_errataEvaluator {f : Field} {k n : Nat} (hk : IsCount f k) (hn : n < k) (s g : Nat) :
    slot f (errataEvaluator f s g k) n = conv f (slot f s) (oneAtZero (slot f g)) n := by
  have hslots := count_lt_slots hk
  rw [errataEvaluator, slot_lowk, if_pos hn, slot_prod_eq_conv f _ _ (by omega), slot_force1_eq_oneAtZero]

/-- The two checks of RS_FSYND fail with the same code, and so are one. -/
theorem resultOf_rsFsynd (f : Field) (o : OperandRegs) :
    resultOf (.rsFsynd f) o = if IsCount f o.k.toNat ∧ IsPacked f o.a.toNat ∧ IsPacked f o.b.toNat then
        .ok (errataEvaluator f o.a.toNat o.b.toNat o.k.toNat)
      else .fail .preconditionViolated := by
  simp only [resultOf, rsFsyndResult, Bool.not_eq_true', ← Bool.not_eq_true, Bool.and_eq_true, isKchk_iff, isPoly_iff,
    ite_not, ← ite_and]

/-- Settles O51: the k low slots of the product are those of the convolution, and they fit Y. -/
theorem rsFsyndKeepsTheLowProductSlots : Obligations.RsFsyndKeepsTheLowProductSlots := by
  refine ⟨⟨rfl, rfl⟩, ?accepted, ?refused⟩
  case accepted =>
    intro f s hk ha hb
    have hlt := errataEvaluator_lt f s.ops.a.toNat s.ops.b.toNat s.ops.k.toNat
    refine ⟨_, exec_of_result_ok ((resultOf_rsFsynd f s.ops).trans (if_pos ⟨hk, ha, hb⟩)), ?_⟩
    rw [toNat_ofNat_of_lt_count hk hlt]
    exact ⟨hlt, fun n hn => slot_errataEvaluator hk hn _ _⟩
  case refused =>
    intro f s hops
    exact exec_of_result_fail ((resultOf_rsFsynd f s.ops).trans (if_neg hops))

end Sys2Proof.Proofs
end

section
/-! The frame of a completion (60_exceptions.md R333, O15): a command ends in `ok` or in `fail`, and the result registers
are all that either one writes. -/
namespace Sys2Proof.Proofs

open Sys2Proof.Machine Sys2Proof.Safety

/-! ## `ok` and `fail` are the two ways in which a command ends (00_scope.md R11) -/

/-- The result is `ok(y, aux)` or `fail(Code)`. -/
inductive IsOkOrFail : Result → Prop
  | okAux (y aux : Nat) : IsOkOrFail (.okAux y aux)
  | fail (c : Code) : IsOkOrFail (.fail c)

theorem IsOkOrFail.ok (y : Nat) : IsOkOrFail (.ok y) := .okAux y 0

/-- An operand check fails the command or lets it go on. -/
theorem IsOkOrFail.check {p : Prop} {_ : Decidable p} {c : Code} {r : Result} (hr : IsOkOrFail r) :
    IsOkOrFail (if p then .fail c else r) := by
  split
  · exact .fail c
  · exact hr

/-- R333: a failure's Y and YAUX are 0. -/
theorem IsOkOrFail.zero_of_status_ne_ok {r : Result} (hr : IsOkOrFail r) (hfailed : r.status ≠ 0x0#4) :
    r.y = 0#64 ∧ r.yaux = 0#16 := by
  cases hr with
  | okAux y aux => exact absurd (Result.okAux_status y aux) hfailed
  | fail c => exact ⟨Result.fail_y c, Result.fail_yaux c⟩

/-! ## Every command's result is one of the two -/

theorem isOkOrFail_fitOrFail (f : Field) (v : Nat) : IsOkOrFail (fitOrFail f v) := .check (.ok v)

theorem isOkOrFail_decodeCorrect (f : Field) (a s lam gam k comb : Nat) :
    IsOkOrFail (decodeCorrect f a s lam gam k comb) := by
  unfold decodeCorrect
  split
  · exact .fail _
  · exact .okAux _ _

theorem isOkOrFail_decodeLocate (f : Field) (a nr k em tm s : Nat) : IsOkOrFail (decodeLocate f a nr k em tm s) :=
  .check (.check (isOkOrFail_decodeCorrect ..))

theorem isOkOrFail_decodeStages (f : Field) (a nr k em tm : Nat) : IsOkOrFail (decodeStages f a nr k em tm) := by
  refine .check ?_
  split
  · exact .okAux a 0
  · exact isOkOrFail_decodeLocate ..

/-- The cases are grouped by how many checks a command makes and what stands after the last one. -/
theorem isOkOrFail_resultOf (i : Instr) (o : OperandRegs) : IsOkOrFail (resultOf i o) := by
  cases i
  case gfAdd | gfMul | gfMul2 | expRd | genRd | pScale | pDeriv | rsEncode => exact .check (.ok _)
  case pEval | rsFsynd => exact .check (.check (.ok _))
  case pMod => exact .check (.check (.check (.check (.check (.ok _)))))
  case pMul | pMulm => exact .check (isOkOrFail_fitOrFail ..)
  case rsErasloc => exact .check (.check (.okAux _ _))
  case rsSyndrome | rsBm | rsChien => exact .check (.check (.check (.okAux _ _)))
  case rsDecode => exact .check (.check (.check (.check (isOkOrFail_decodeStages ..))))
  case gfDiv | gfPow | gfInv | logRd | pOrder =>
    refine .check ?_
    split
    · exact .fail _
    · exact .ok _
  case pSize =>
    refine .check ?_
    split <;> exact .ok _
  case rsForney =>
    refine .check (.check (.check (.check ?_)))
    split
    · exact .fail _
    · exact .ok _

/-! ## A completion writes such a result and nothing else -/

theorem exec_next_eq_complete {i : Instr} {s t : State} (h : exec i s = .next t) :
    ∃ r : Result, IsOkOrFail r ∧ t = s.complete r :=
  ⟨resultOf i s.ops, isOkOrFail_resultOf i s.ops, (exec_next_iff i s t).mp h⟩

/-- The command in flight completes with its result, an illegal word with `fail(ILLEGAL_COMMAND)`. -/
theorem completeEdge_next_eq_complete {s t : State} (h : completeEdge s = .next t) :
    ∃ r : Result, IsOkOrFail r ∧ t = s.complete r := by
  rw [completeEdge_eq] at h
  cases h
  refine ⟨_, ?_, rfl⟩
  split
  · exact isOkOrFail_resultOf ..
  · exact .fail .illegalCommand

/-- Settles O15: either kind of completion is `State.complete` of an `ok` or of a `fail`. -/
theorem commandsChangeOnlyTheResultRegisters : Obligations.CommandsChangeOnlyTheResultRegisters := by
  intro s t h
  have hcomplete : ∃ r : Result, IsOkOrFail r ∧ t = s.complete r := by
    rcases h with ⟨i, hexec⟩ | hedge
    · exact exec_next_eq_complete hexec
    · exact completeEdge_next_eq_complete hedge
  obtain ⟨r, hr, rfl⟩ := hcomplete
  exact ⟨rfl, rfl, rfl, rfl, rfl, rfl, rfl, hr.zero_of_status_ne_ok⟩

end Sys2Proof.Proofs
end

section
/-! Reset and the hazards of the ports (70_reset_and_hazards.md R370 to R376): what an edge does when it resets, and what
it does when it does not accept. -/
namespace Sys2Proof.Proofs

open Sys2Proof.Machine

/-! ## The edges that sample nothing (10_state.md R40) -/

/-- Reset has priority over an offer and over the command in flight. -/
theorem step_of_reset (s : State) (hrst : s.ports.rst = true) : step s = .next s.afterEdge.resetEdge := by
  simp [step, State.stepKind, hrst]

/-- Unless it accepts, an edge reads `rst` alone of the ports. -/
theorem step_of_not_accepting (s : State) (h : s.busy = true ∨ s.ports.cmdValid = false) :
    step s =
      if s.ports.rst then .next s.afterEdge.resetEdge
      else if s.busy then (if s.left = 0 then completeEdge s.afterEdge else .next s.afterEdge.wait)
      else .next s.afterEdge := by
  unfold step State.stepKind
  cases s.ports.rst with
  | true => rfl
  | false =>
    cases hbusy : s.busy with
    | true => by_cases hleft : s.left = 0 <;> simp [hleft]
    | false => simp [h.resolve_left (by simp [hbusy])]

/-- So two host edges with the same `rst`, neither of them accepted, are interchangeable. -/
theorem step_congr_of_not_accepting {s : State} {e e' : HostEdge} (rest : List HostEdge) (hrst : e.rst = e'.rst)
    (h : s.busy = true ∨ e.cmdValid = false) (h' : s.busy = true ∨ e'.cmdValid = false) :
    step { s with host := e :: rest } = step { s with host := e' :: rest } := by
  rw [step_of_not_accepting _ h, step_of_not_accepting _ h', State.ports_cons, State.ports_cons, hrst]
  rfl

/-- While BUSY = 1 and rst = 0, the command in flight waits or completes, whatever is offered. -/
theorem step_of_busy (s : State) (hbusy : s.busy = true) (hrst : s.ports.rst = false) :
    step s = if s.left = 0 then completeEdge s.afterEdge else .next s.afterEdge.wait := by
  simp [step_of_not_accepting s (.inl hbusy), hrst, hbusy]

/-! ## The statements -/

/-- Settles O7: the reset edge writes the constants of `State.reset`. -/
theorem resetGivesTheResetValues : Obligations.ResetGivesTheResetValues := by
  constructor
  case left => exact ⟨rfl, rfl, rfl, rfl, rfl, rfl⟩
  case right =>
    intro s hrst
    exact ⟨_, step_of_reset s hrst, rfl, rfl, rfl, rfl, rfl, rfl⟩

/-- Settles O8: in both cases neither of the two edges accepts. -/
theorem inputsAreSampledOnlyAtAccept : Obligations.InputsAreSampledOnlyAtAccept := by
  constructor
  case left =>
    intro s e e' rest hbusy hrst
    exact step_congr_of_not_accepting rest hrst (.inl hbusy) (.inl hbusy)
  case right =>
    intro s e e' rest hrst hvalid hvalid'
    exact step_congr_of_not_accepting rest hrst (.inr hvalid) (.inr hvalid')

/-- Settles O9: only a reset and a completion write the result registers, and both leave BUSY = 0; with BUSY = 0, no
reset and no offer, the edge is idle. -/
theorem resultsStayUntilCompletionOrReset : Obligations.ResultsStayUntilCompletionOrReset := by
  constructor
  case left =>
    intro s t hstep hbusy
    obtain ⟨-, hreset⟩ | ⟨-, -, -, haccept⟩ | ⟨-, -, -, hcomplete⟩ | ⟨-, -, -, hwait⟩ | ⟨-, -, -, hidle⟩ :=
      step_cases s t hstep
    · simp [hreset] at hbusy
    · exact haccept ▸ ⟨rfl, rfl, rfl⟩
    · simp [hcomplete] at hbusy
    · exact hwait ▸ ⟨rfl, rfl, rfl⟩
    · exact hidle ▸ ⟨rfl, rfl, rfl⟩
  case right =>
    intro s t hstep hbusy hdone hrst hvalid
    have hidle : step s = .next s.afterEdge := by
      simp [step_of_not_accepting s (.inr hvalid), hrst, hbusy]
    rw [hidle] at hstep
    cases hstep
    exact ⟨hdone, rfl, rfl, rfl⟩

/-- Settles O10: the offer is as good as an idle edge, and the edge completes the command in flight or lets it wait. -/
theorem offersWhileBusyAcceptNothing : Obligations.OffersWhileBusyAcceptNothing := by
  intro s e rest hbusy _ hrst
  refine ⟨by simp [State.cmdReady, hbusy], step_congr_of_not_accepting rest hrst (.inl hbusy) (.inl hbusy), ?_⟩
  rw [step_of_busy { s with host := e :: rest } hbusy hrst]
  by_cases hleft : s.left = 0
  case pos =>
    rw [if_pos hleft, completeEdge_eq]
    exact ⟨_, rfl, rfl, rfl, .inr ⟨rfl, rfl⟩⟩
  case neg =>
    rw [if_neg hleft]
    exact ⟨_, rfl, rfl, rfl, .inl ⟨hbusy, rfl⟩⟩

end Sys2Proof.Proofs
end

section
/-! The command words and the edges of the core as a whole (30_encoding.md R100 to R113, 10_state.md R31 to R40,
60_exceptions.md R330 to R336): encoding against decoding, which registers and which codes belong to a command, and the
invariant of the control and result registers. -/
namespace Sys2Proof.Proofs

open Sys2Proof.Machine Sys2Proof.Safety

/-! ## The encoder (30_encoding.md R100, R105) -/

@[simp] theorem fieldOf_append_fieldBit (f : Field) (rsv : BitVec 10) (op : BitVec 5) :
    fieldOf (rsv ++ fieldBit f ++ op) = f := by
  rw [fieldOf, BitVec.getLsbD_append, BitVec.getLsbD_append]
  cases f <;> rfl

/-- A command word is its three fields, side by side. -/
theorem eq_append_fields (w : Half) : w = rsvField w ++ fieldBit (fieldOf w) ++ opField w := by
  apply BitVec.eq_of_getLsbD_eq
  intro i hi
  have hbit : (fieldBit (fieldOf w)).getLsbD 0 = w.getLsbD 5 := by
    rw [fieldOf]
    cases w.getLsbD 5 <;> rfl
  rw [BitVec.getLsbD_append, BitVec.getLsbD_append]
  obtain hop | rfl | hrsv : i < 5 ∨ i = 5 ∨ 5 < i := by omega
  · simp [hop, opField]
  · simpa using hbit.symm
  · have hone : ¬i - 5 < 1 := by omega
    have hpos : 6 + (i - 5 - 1) = i := by omega
    simp [show ¬i < 5 by omega, hone, rsvField, hpos, show i - 5 - 1 < 10 by omega]

theorem decode_eq_ok_iff_encode (w : Half) (i : Instr) : decode w = .ok i ↔ encode i = w := by
  rw [decode_eq_ok_iff, encode]
  constructor
  · rintro ⟨hrsv, hop, hfield⟩
    rw [← hrsv, ← hop, ← hfield, ← eq_append_fields]
  · rintro rfl
    exact ⟨rsvField_append .., opField_append .., fieldOf_append_fieldBit ..⟩

/-! ## The well-formed words (30_encoding.md R102, R106) -/

theorem rsvIsZero_iff (w : Half) : rsvIsZero w = true ↔ rsvField w = 0#10 := by
  have hmask : w &&& 0xFFC0#16 = rsvField w ++ 0#6 := by
    apply BitVec.eq_of_getLsbD_eq
    intro i hi
    rw [BitVec.getLsbD_and, BitVec.getLsbD_append]
    interval_cases i <;> simp [rsvField]
  rw [rsvIsZero, beq_iff_eq, hmask, show (0#16 : Half) = 0#10 ++ 0#6 from rfl]
  constructor
  · intro h
    simpa only [BitVec.extractLsb'_append_eq_left] using congrArg (BitVec.extractLsb' 6 10) h
  · intro h
    rw [h]

/-- The mask 0x001F keeps OP. -/
theorem and_opMask_eq (w : Half) : w &&& 0x001F#16 = (opField w).setWidth 16 := by
  apply BitVec.eq_of_toNat_eq
  rw [BitVec.toNat_and, BitVec.toNat_setWidth_of_le (by decide), opField_toNat]
  exact Nat.and_two_pow_sub_one_eq_mod w.toNat 5

/-- The reserved opcodes are those that no command has. -/
theorem opIsAssigned_iff (w : Half) : opIsAssigned w = true ↔ ∃ i : Instr, decodeOp (opField w) (fieldOf w) = .ok i := by
  have table (f : Field) : ∀ op : BitVec 5,
      (!([0x00#16, 0x0A#16, 0x0B#16, 0x0C#16, 0x0D#16, 0x0E#16, 0x0F#16].contains (op.setWidth 16))) =
        (decodeOp op f).toBool := by
    cases f <;> decide
  rw [opIsAssigned, and_opMask_eq, table (fieldOf w)]
  cases decodeOp (opField w) (fieldOf w) <;> simp [Except.toBool]

theorem exists_decode_eq_ok_iff (w : Half) : (∃ i : Instr, decode w = .ok i) ↔ wordWellFormed w = true := by
  rw [wordWellFormed, Bool.and_eq_true, rsvIsZero_iff, opIsAssigned_iff]
  by_cases hrsv : rsvField w = 0#10
  · simp [decode_of_rsvField_eq_zero w hrsv, hrsv]
  · simp [decode_of_rsvField_ne_zero w hrsv, hrsv]

/-- Settles O2: a word is its fields, and the encoder writes the fields that the decoder reads. -/
theorem decodeAndEncodeAgree : Obligations.DecodeAndEncodeAgree :=
  ⟨fun i _ => (decode_eq_ok_iff_encode _ i).mpr rfl, fun w i => (decode_eq_ok_iff_encode w i).mp, exists_decode_eq_ok_iff⟩

/-! ## The codes of a command (60_exceptions.md R330, R331) -/

/-- The STATUS of the result is one of the codes. -/
def StatusIn (codes : List Nat) (r : Result) : Prop := r.status.toNat ∈ codes

theorem StatusIn.check {codes : List Nat} {p : Prop} {_ : Decidable p} {c : Code} {r : Result}
    (hc : c.bits.toNat ∈ codes) (hr : StatusIn codes r) : StatusIn codes (if p then .fail c else r) := by
  split
  · exact hc
  · exact hr

/-- Every command but RS_DECODE, grouped by its checks as in `isOkOrFail_resultOf`. -/
theorem statusIn_codesOf {i : Instr} (hi : ∀ f : Field, i ≠ .rsDecode f) (o : OperandRegs) :
    StatusIn (codesOf i) (resultOf i o) := by
  have hok (y aux : Nat) {codes : List Nat} (h : 0 ∈ codes) : StatusIn codes (.okAux y aux) := h
  have hfail (c : Code) {codes : List Nat} (h : c.bits.toNat ∈ codes) : StatusIn codes (.fail c) := h
  cases i
  case gfAdd | gfMul | gfMul2 | expRd | genRd | pScale | pDeriv | rsEncode =>
    change StatusIn [0, 6] _
    exact .check (by decide) (hok _ _ (by decide))
  case pEval | rsFsynd | rsErasloc =>
    change StatusIn [0, 6] _
    exact .check (by decide) (.check (by decide) (hok _ _ (by decide)))
  case rsSyndrome | rsBm | rsChien =>
    change StatusIn [0, 6] _
    exact .check (by decide) (.check (by decide) (.check (by decide) (hok _ _ (by decide))))
  case pMod =>
    change StatusIn [0, 6] _
    exact .check (by decide) (.check (by decide) (.check (by decide) (.check (by decide) (.check (by decide)
      (hok _ _ (by decide))))))
  case pMul | pMulm =>
    change StatusIn [0, 6] _
    exact .check (by decide) (.check (by decide) (hok _ _ (by decide)))
  case gfDiv =>
    change StatusIn [0, 1, 6] _
    refine .check (by decide) ?_
    split
    · exact hfail _ (by decide)
    · exact hok _ _ (by decide)
  case gfPow | gfInv | logRd | pOrder =>
    change StatusIn [0, 5, 6] _
    refine .check (by decide) ?_
    split
    · exact hfail _ (by decide)
    · exact hok _ _ (by decide)
  case pSize =>
    change StatusIn [0, 6] _
    refine .check (by decide) ?_
    split <;> exact hok _ _ (by decide)
  case rsForney =>
    change StatusIn [0, 1, 6] _
    refine .check (by decide) (.check (by decide) (.check (by decide) (.check (by decide) ?_)))
    split
    · exact hfail _ (by decide)
    · exact hok _ _ (by decide)
  case rsDecode f => exact absurd rfl (hi f)

/-- RS_DECODE, its DIVISION_BY_ZERO check included (44_decoder_pipeline.md R300). -/
theorem statusIn_rsDecode (f : Field) (o : OperandRegs) :
    StatusIn (1 :: codesOf (.rsDecode f)) (resultOf (.rsDecode f) o) := by
  change StatusIn [1, 0, 2, 3, 4, 6] _
  refine .check (by decide) (.check (by decide) (.check (by decide) (.check (by decide) (.check (by decide) ?_))))
  split
  · exact List.mem_cons_of_mem 1 List.mem_cons_self
  · refine .check (by decide) (.check (by decide) ?_)
    unfold decodeCorrect
    split
    · exact List.mem_cons_self
    · exact List.mem_cons_of_mem 1 List.mem_cons_self

/-- No command writes NONE. -/
theorem status_resultOf_le_seven (i : Instr) (o : OperandRegs) : (resultOf i o).status.toNat ≤ 7 := by
  have hle (codes : List Nat) (hcodes : ∀ c ∈ codes, c ≤ 7) (h : StatusIn codes (resultOf i o)) :
      (resultOf i o).status.toNat ≤ 7 := hcodes _ h
  by_cases hi : ∀ f : Field, i ≠ .rsDecode f
  · exact hle (codesOf i) (by cases i <;> simp [codesOf]) (statusIn_codesOf hi o)
  · push Not at hi
    obtain ⟨f, rfl⟩ := hi
    exact hle (1 :: codesOf (.rsDecode f)) (show ∀ c ∈ [1, 0, 2, 3, 4, 6], c ≤ 7 by decide) (statusIn_rsDecode f o)

/-- Settles O16: the checks of a command and what stands after the last one. -/
theorem completionCodesOfTheOtherCommands : Obligations.CompletionCodesOfTheOtherCommands := by
  intro i s t hi hexec
  rw [(exec_next_iff i s t).mp hexec]
  exact statusIn_codesOf hi s.ops

/-! ## The listed registers (30_encoding.md R104) -/

/-- A command's result reads no register but the listed ones; the cases are the rows of R104. -/
theorem resultOf_congr {i : Instr} {o p : OperandRegs} (h : AgreeOnListed i o p) : resultOf i o = resultOf i p := by
  obtain ⟨ha, hb, hsza, hszb, hk, hem, htm⟩ := h
  cases i
  case gfAdd | gfMul | gfDiv | gfPow | pScale | pMul | pMulm =>
    simp only [resultOf, gfAddResult, gfMulResult, gfDivResult, gfPowResult, pScaleResult, pMulResult, pMulmResult,
      ha rfl, hb rfl]
  case gfInv | gfMul2 | expRd | logRd | pDeriv | pOrder | pSize =>
    simp only [resultOf, gfInvResult, gfMul2Result, expRdResult, logRdResult, pDerivResult, pOrderResult, pSizeResult,
      ha rfl]
  case genRd => simp only [resultOf, genRdResult, hk rfl]
  case pMod => simp only [resultOf, pModResult, ha rfl, hb rfl, hsza rfl, hszb rfl]
  case pEval => simp only [resultOf, pEvalResult, ha rfl, hb rfl, hsza rfl]
  case rsEncode => simp only [resultOf, rsEncodeResult, ha rfl, hk rfl]
  case rsSyndrome => simp only [resultOf, rsSyndromeResult, ha rfl, hsza rfl, hk rfl]
  case rsErasloc => simp only [resultOf, rsEraslocResult, hem rfl]
  case rsFsynd => simp only [resultOf, rsFsyndResult, ha rfl, hb rfl, hk rfl]
  case rsBm => simp only [resultOf, rsBmResult, ha rfl, hk rfl, hem rfl]
  case rsChien => simp only [resultOf, rsChienResult, ha rfl, hsza rfl, hem rfl, htm rfl]
  case rsForney => simp only [resultOf, rsForneyResult, ha rfl, hb rfl, hsza rfl, hk rfl, hem rfl]
  case rsDecode => simp only [resultOf, rsDecodeResult, ha rfl, hsza rfl, hk rfl, hem rfl, htm rfl]

theorem exec_eq_completed (i : Instr) (s : State) :
    exec i s = .next (completed s (resultOf i s.ops).status (resultOf i s.ops).y (resultOf i s.ops).yaux) :=
  exec_eq i s

/-- Settles O5: the two states complete with one and the same result. -/
theorem unlistedOperandsAreIgnored : Obligations.UnlistedOperandsAreIgnored := by
  intro i s t hagree
  exact ⟨_, _, _, exec_eq_completed i s, resultOf_congr hagree ▸ exec_eq_completed i t⟩

/-! ## One edge (10_state.md R40) -/

theorem step_of_elapsed {s : State} (hrst : s.ports.rst = false) (hbusy : s.busy = true) (hleft : s.left = 0) :
    step s = completeEdge s.afterEdge :=
  (step_of_busy s hbusy hrst).trans (if_pos hleft)

theorem step_of_waiting {s : State} (hrst : s.ports.rst = false) (hbusy : s.busy = true) (hleft : s.left ≠ 0) :
    step s = .next s.afterEdge.wait :=
  (step_of_busy s hbusy hrst).trans (if_neg hleft)

theorem completeEdge_of_decode_eq_ok {s : State} {i : Instr} (h : decode s.ops.cmdl = .ok i) :
    completeEdge s = exec i s := by
  rw [completeEdge, State.command, h]

/-- Settles O4: the completion edge dispatches on what CMDL decodes to. -/
theorem stepRunsTheDecodedCommand : Obligations.StepRunsTheDecodedCommand := by
  intro s i hrst hbusy hleft hdecode
  rw [step_of_elapsed hrst hbusy hleft]
  exact completeEdge_of_decode_eq_ok hdecode

/-- What the completion edge writes, as a function of CMDL and the operand registers (30_encoding.md R110). -/
def completionOf (o : OperandRegs) : Result :=
  match decode o.cmdl with
  | .ok i => resultOf i o
  | .error _ => .fail .illegalCommand

theorem completeEdge_eq_complete (s : State) : completeEdge s = .next (s.complete (completionOf s.ops)) :=
  completeEdge_eq s

theorem isOkOrFail_completionOf (o : OperandRegs) : IsOkOrFail (completionOf o) := by
  unfold completionOf
  split
  · exact isOkOrFail_resultOf ..
  · exact .fail .illegalCommand

theorem status_completionOf_le_seven (o : OperandRegs) : (completionOf o).status.toNat ≤ 7 := by
  unfold completionOf
  split
  · exact status_resultOf_le_seven ..
  · decide

/-- Settles O6: the conditions of the five steps exclude one another, and each step is one update of the state. -/
theorem edgePerformsOneOfFiveSteps : Obligations.EdgePerformsOneOfFiveSteps := by
  refine ⟨fun s hrst => ⟨_, _, step_of_reset s hrst⟩, step_of_offer, ?complete, fun s hrst hbusy hleft => ?wait, ?idle⟩
  case complete =>
    exact ⟨fun o => ((completionOf o).status, (completionOf o).y, (completionOf o).yaux),
      fun s hrst hbusy hleft => ⟨step_of_elapsed hrst hbusy hleft, completeEdge_eq_complete s⟩⟩
  case wait => exact step_of_waiting hrst hbusy hleft
  case idle =>
    intro s hrst hbusy hvalid
    rw [step_of_not_accepting s (.inr hvalid), hrst, hbusy]
    rfl

/-- Settles O12: each of the five kinds of step answers a state, a completion included. -/
theorem everyStepAnswersANextState : Obligations.EveryStepAnswersANextState := by
  intro s
  rw [step]
  cases s.stepKind with
  | complete => exact ⟨_, completeEdge_eq_complete _⟩
  | reset | accept | wait | idle => exact ⟨_, rfl⟩

/-! ## The invariant of the control and result registers (10_state.md section 2) -/

/-- Settles O14: the reset values are BUSY = DONE = 0, NONE, and zeros. -/
theorem resetHasTheRegisterInvariant : Obligations.ResetHasTheRegisterInvariant := by
  rw [Obligations.ResetHasTheRegisterInvariant]
  decide

/-- A completion gives the invariant to any state whose LATENCY has elapsed. -/
theorem inv_complete {s : State} {r : Result} (hleft : s.left = 0) (hcode : r.status.toNat ≤ 7) (hr : IsOkOrFail r) :
    Inv (s.complete r) := by
  have hnone : r.status ≠ 0xF#4 := by
    intro h
    rw [h] at hcode
    exact absurd hcode (by decide)
  exact ⟨by simp, fun _ => hleft, .inl hcode, fun _ => hnone, hr.zero_of_status_ne_ok⟩

/-- Settles O13: a reset and a completion write registers that agree with each other, an accept and a wait leave BUSY = 1,
and no other edge writes anything. -/
theorem stepKeepsTheRegisterInvariant : Obligations.StepKeepsTheRegisterInvariant := by
  intro s t ⟨hflags, hidle, hcode, hdone, hresult⟩ hstep
  obtain ⟨-, rfl⟩ | ⟨-, -, -, rfl⟩ | ⟨-, -, hleft, rfl⟩ | ⟨-, hbusy, -, rfl⟩ | ⟨-, -, -, rfl⟩ := step_cases s t hstep
  case inl => exact ⟨by simp, fun _ => rfl, .inr rfl, by simp, fun _ => ⟨rfl, rfl⟩⟩
  case inr.inl => exact ⟨by simp, by simp, hcode, by simp, hresult⟩
  case inr.inr.inl =>
    exact inv_complete (s := s.afterEdge) hleft (status_completionOf_le_seven s.ops) (isOkOrFail_completionOf s.ops)
  case inr.inr.inr.inl => exact ⟨hflags, fun h => absurd hbusy (by simpa using h), hcode, hdone, hresult⟩
  case inr.inr.inr.inr => exact ⟨hflags, hidle, hcode, hdone, hresult⟩

/-! ## A command over its LATENCY (70_reset_and_hazards.md R380) -/

/-- No reset at the coming k + 1 edges: none at the next one, and none at the k after it. -/
theorem noReset_succ {s : State} {k : Nat} (h : ∀ e ∈ s.host.take (k + 1), e.rst = false) :
    s.ports.rst = false ∧ ∀ e ∈ s.host.tail.take k, e.rst = false := by
  rw [State.ports]
  cases hhost : s.host with
  | nil => exact ⟨rfl, by simp⟩
  | cons e rest =>
    rw [hhost, List.take_succ_cons] at h
    exact ⟨h e List.mem_cons_self, fun e' he' => h e' (List.mem_cons_of_mem e he')⟩

theorem run_succ_of_core_step (M : Host.Core) {s t : M.State} (h : M.step s = .next t) (n : Nat) :
    M.run (n + 1) s = M.run n t := by
  rw [Host.Core.run, h]

theorem run_succ_of_step {s t : State} (h : step s = .next t) (n : Nat) : core.run (n + 1) s = core.run n t :=
  run_succ_of_core_step core h n

/-- k edges of a command in flight, none of them a reset, use up k edges of its LATENCY and nothing else. -/
theorem run_of_waiting {s : State} (hbusy : s.busy = true) {k : Nat} (hk : k ≤ s.left)
    (hrst : ∀ e ∈ s.host.take k, e.rst = false) (n : Nat) :
    core.run (k + n) s = core.run n { s with left := s.left - k, host := s.host.drop k } := by
  induction k generalizing s with
  | zero => rw [Nat.zero_add, List.drop_zero, Nat.sub_zero]
  | succ k ih =>
    obtain ⟨hnow, hlater⟩ := noReset_succ hrst
    have hwait : step s = .next s.afterEdge.wait := step_of_waiting hnow hbusy (by omega)
    have hleft : k ≤ s.afterEdge.wait.left := by
      rw [State.wait_left, State.afterEdge_left]
      omega
    have hrest := ih (s := s.afterEdge.wait) hbusy hleft hlater
    rw [Nat.add_right_comm, run_succ_of_step hwait, hrest]
    simp only [State.afterEdge, State.wait, List.drop_tail, Nat.sub_sub, Nat.add_comm 1 k]

/-- The one edge that ends a LATENCY is the command's own. -/
theorem run_one_of_elapsed {s : State} {i : Instr} (hrst : s.ports.rst = false) (hbusy : s.busy = true)
    (hleft : s.left = 0) (hdecode : decode s.ops.cmdl = .ok i) : core.run 1 s = exec i s.afterEdge := by
  have hstep : step s = exec i s.afterEdge :=
    (step_of_elapsed hrst hbusy hleft).trans (completeEdge_of_decode_eq_ok hdecode)
  rw [exec_eq] at hstep ⊢
  exact run_succ_of_step hstep 0

/-- Settles O11: the accept edge loads LATENCY, the wait edges count it down, and the next edge completes. -/
theorem acceptedCommandCompletesAfterItsLatency : Obligations.AcceptedCommandCompletesAfterItsLatency := by
  intro s hbusy hrst hvalid hnoReset
  obtain ⟨-, hlater⟩ := noReset_succ hnoReset
  have haccept (n : Nat) := run_succ_of_step (step_of_offer s hrst hbusy hvalid) n
  constructor
  case left =>
    intro k hk
    have hsome : ∀ e ∈ s.host.tail.take k, e.rst = false :=
      fun e he => hlater e ((List.take_subset_take_left _ (by omega)) he)
    exact ⟨_, (haccept k).trans (run_of_waiting (s := s.afterEdge.accept s.ports) rfl hk hsome 0), rfl, rfl, rfl, rfl, rfl⟩
  case right =>
    intro i hdecode
    have hsome : ∀ e ∈ s.host.tail.take s.ports.waits, e.rst = false :=
      fun e he => hlater e ((List.take_subset_take_left _ (by omega)) he)
    have hwaited := run_of_waiting (s := s.afterEdge.accept s.ports) rfl (Nat.le_refl s.ports.waits) hsome 1
    have hlast : ∀ e ∈ (s.host.drop (s.ports.waits + 1)).take 1, e.rst = false := by
      rw [List.take_drop]
      exact fun e he => hnoReset e (List.mem_of_mem_drop he)
    rw [haccept (s.ports.waits + 1), hwaited]
    simp only [State.accept_left, State.accept_host, State.afterEdge_host, Nat.sub_self, List.drop_tail]
    obtain ⟨hnow, -⟩ := noReset_succ
      (s := { s.afterEdge.accept s.ports with left := 0, host := s.host.drop (s.ports.waits + 1) }) hlast
    refine (run_one_of_elapsed hnow rfl rfl hdecode).trans (congrArg (exec i) ?_)
    simp only [State.afterEdge, State.accept, List.tail_drop]

end Sys2Proof.Proofs
end

section
/-! The field of 40_field_engine.md R150: quotients, inverses and powers as products, the laws row by row, and the commands
of the field engine against the product of the polynomial basis. -/
namespace Sys2Proof.Proofs

open Sys2Proof.Machine Sys2Proof.Safety

/-! ## Quotients and inverses (R143, R145) -/

theorem isElement_gfMul (f : Field) (a b : Nat) : IsElement f (gfMul f a b) := gfMul_lt f a b

theorem exists_gfInv_eq_some {f : Field} {b : Nat} (hb : IsElement f b) (hne : b ≠ 0) :
    ∃ v : Nat, gfInv f b = some v ∧ IsElement f v ∧ gfMul f b v = 1 := by
  obtain ⟨j, hj, rfl⟩ := exists_alphaIter_eq hb hne
  have hone : gfMul f (alphaIter f j) (alphaIter f (f.n - j)) = 1 := by
    rw [gfMul_alphaIter_alphaIter, Nat.add_sub_cancel' hj.le, alphaIter_n]
  refine ⟨_, gfInv_alphaIter hj, ?_, hone⟩
  rw [← expRom_eq_alphaIter f _ (n_sub_lt_t f j)]
  exact expRom_lt f _

theorem gfMul_right_cancel {f : Field} {a b c : Nat} (ha : IsElement f a) (hb : IsElement f b) (hc : IsElement f c)
    (hne : c ≠ 0) (h : gfMul f a c = gfMul f b c) : a = b := by
  obtain ⟨v, -, hv, hcv⟩ := exists_gfInv_eq_some hc hne
  calc a = gfMul f (gfMul f a c) v := by rw [gfMul_assoc ha hc hv, hcv, gfMul_one ha]
    _ = gfMul f (gfMul f b c) v := by rw [h]
    _ = b := by rw [gfMul_assoc hb hc hv, hcv, gfMul_one hb]

theorem exists_gfDiv_eq_some {f : Field} {a b : Nat} (ha : IsElement f a) (hb : IsElement f b) (hne : b ≠ 0) :
    ∃ q : Nat, gfDiv f a b = some q ∧ IsElement f q ∧ gfMul f q b = a := by
  obtain ⟨j, hj, rfl⟩ := exists_alphaIter_eq hb hne
  by_cases hzero : a = 0
  · subst hzero
    exact ⟨0, gfDiv_zero_alphaIter hj, isElement_zero f, gfMul_zero_left f _⟩
  · obtain ⟨i, hi, rfl⟩ := exists_alphaIter_eq ha hzero
    refine ⟨_, gfDiv_alphaIter hi hj, gfDiv_lt f _ _ _ (gfDiv_alphaIter hi hj), ?_⟩
    rw [gfMul_alphaIter_alphaIter, Nat.sub_add_cancel (hj.le.trans (Nat.le_add_left _ _)), alphaIter_add_n]

/-- The quotient is the one element whose product with the divisor is the dividend. -/
theorem gfDiv_eq_some_of_gfMul_eq {f : Field} {a b q : Nat} (hb : IsElement f b) (hne : b ≠ 0) (hq : IsElement f q)
    (h : gfMul f q b = a) : gfDiv f a b = some q := by
  obtain ⟨q', hdiv, hq', hmul⟩ := exists_gfDiv_eq_some (h ▸ isElement_gfMul f q b) hb hne
  rw [hdiv, gfMul_right_cancel hq' hq hb hne (hmul.trans h.symm)]

/-! ## Powers (R144) -/

theorem basisPow_alphaIter (f : Field) (i p : Nat) : basisPow f (alphaIter f i) p = alphaIter f (i * p) := by
  have helement (j : Nat) : IsElement f (alphaIter f j) := by
    rw [← alphaIter_mod_n]
    exact isElement_alphaIter (Nat.mod_lt _ (n_pos f))
  induction p with
  | zero => rfl
  | succ p ih =>
    rw [basisPow, ih, ← gfMul_eq_basisMul (helement _) (helement _), gfMul_alphaIter_alphaIter, Nat.mul_succ]

/-- Reducing an exponent modulo T_m = 2·N_m keeps the power. -/
theorem alphaIter_mod_t (f : Field) (i : Nat) : alphaIter f (i % f.t) = alphaIter f i := by
  rw [← alphaIter_mod_n, t_eq_two_mul_n, Nat.mod_mod_of_dvd i (Dvd.intro_left 2 rfl), alphaIter_mod_n]

@[simp] theorem gfPow_zero_left (f : Field) (p : Nat) : gfPow f 0 p = none := by
  rw [gfPow, logRom_zero, Option.map_none]

theorem gfPow_alphaIter {f : Field} {i : Nat} (hi : i < f.n) (p : Nat) :
    gfPow f (alphaIter f i) p = some (alphaIter f (i * p % f.t)) := by
  have ht : 0 < f.t := lt_t_of_lt_n (n_pos f)
  rw [gfPow, logRom_alphaIter hi, Option.map_some, expRom_eq_alphaIter f _ (Nat.mod_lt _ ht)]

theorem gfPow_eq_some_basisPow {f : Field} {x : Nat} (hx : IsElement f x) (hne : x ≠ 0) (p : Nat) :
    gfPow f x p = some (basisPow f x p) := by
  obtain ⟨i, hi, rfl⟩ := exists_alphaIter_eq hx hne
  rw [gfPow_alphaIter hi, alphaIter_mod_t, basisPow_alphaIter]

/-- The powers of an element repeat after N_m. -/
theorem basisPow_add_n {f : Field} {x : Nat} (hx : IsElement f x) (hne : x ≠ 0) (p : Nat) :
    basisPow f x (p + f.n) = basisPow f x p := by
  obtain ⟨i, -, rfl⟩ := exists_alphaIter_eq hx hne
  rw [basisPow_alphaIter, basisPow_alphaIter, Nat.mul_add, ← alphaIter_mod_n, Nat.add_mul_mod_self_right,
    alphaIter_mod_n]

/-! ## Doubling (R146) -/

theorem gfMul_two {f : Field} {a : Nat} (ha : IsElement f a) : gfMul f a 2 = double f a := by
  have htwo : (2 : Nat) = alphaIter f 1 := by cases f <;> rfl
  obtain rfl | ⟨i, rfl⟩ := eq_zero_or_eq_alphaIter ha
  · rw [gfMul_zero_left, double, Nat.mul_zero, if_pos (Nat.two_pow_pos _)]
  · rw [htwo, gfMul_alphaIter_alphaIter, alphaIter]

/-- The test of R146 is the other way round in `double`. -/
theorem double_eq_ite (f : Field) (a : Nat) : double f a = if 2 * a > 2 ^ f.m - 1 then 2 * a ^^^ f.poly else 2 * a := by
  have hpos := Nat.two_pow_pos f.m
  by_cases hlow : 2 * a < 2 ^ f.m
  · rw [double, if_pos hlow, if_neg (by omega)]
  · rw [double, if_neg hlow, if_pos (by omega)]

theorem mulBy2_eq_double (f : Field) (a : Nat) : mulBy2 f a = double f a := by
  have hshift : a <<< 1 = 2 * a := by rw [Nat.shiftLeft_eq, pow_one, Nat.mul_comm]
  rw [mulBy2, double_eq_ite, hshift]

/-! ## The laws (R150) -/

theorem gfMul_xor_left {f : Field} {a b c : Nat} (ha : IsElement f a) (hb : IsElement f b) (hc : IsElement f c) :
    gfMul f (a ^^^ b) c = gfMul f a c ^^^ gfMul f b c := by
  rw [gfMul_eq_basisMul (Nat.xor_lt_two_pow ha hb) hc, basisMul_xor_left, gfMul_eq_basisMul ha hc,
    gfMul_eq_basisMul hb hc]

/-- Settles O32: XOR is the addition, the nonzero elements are the powers of α, and the product is additive. -/
theorem fieldLawsHold : Obligations.FieldLawsHold := by
  refine ⟨?additive, ?multiplicative, ?division, ?power⟩
  case additive =>
    intro f a b c ha hb _
    exact ⟨Nat.xor_assoc a b c, Nat.xor_comm a b, Nat.xor_zero a, Nat.xor_self a, Nat.xor_lt_two_pow ha hb⟩
  case multiplicative =>
    intro f a b c ha hb hc
    refine ⟨gfMul_comm f a b, (gfMul_assoc ha hb hc).symm, gfMul_one ha, gfMul_zero_right f a, ?_, gfMul_lt f a b⟩
    rw [gfAdd, gfAdd, gfMul_comm, gfMul_xor_left hb hc ha, gfMul_comm f b, gfMul_comm f c]
  case division =>
    intro f a b ha hb hne
    obtain ⟨q, hdiv, hq, hqb⟩ := exists_gfDiv_eq_some ha hb hne
    obtain ⟨v, hinv, hv, hbv⟩ := exists_gfInv_eq_some hb hne
    refine ⟨gfDiv_eq_some_of_gfMul_eq hb hne ha rfl, q, v, hdiv, hq, hqb, hinv, hv, hbv, ?_⟩
    rw [← hqb, gfMul_assoc hq hb hv, hbv, gfMul_one hq]
  case power =>
    intro f a p ha hne
    refine ⟨gfPow_eq_some_basisPow ha hne p, ?_, isElement_basisPow ha p⟩
    rw [gfPow_eq_some_basisPow ha hne, gfPow_eq_some_basisPow ha hne, basisPow_add_n ha hne]

/-! ## The commands -/

theorem toNat_ofNat_of_isElement {f : Field} {v : Nat} (hv : IsElement f v) : (BitVec.ofNat 64 v).toNat = v :=
  toNat_ofNat_of_lt (hv.trans_le (Nat.pow_le_pow_right Nat.two_pos (by cases f <;> decide)))

theorem resultOf_gfPow (f : Field) (o : OperandRegs) :
    resultOf (.gfPow f) o = if IsElement f o.a.toNat ∧ o.b.toNat < 256 then
        (gfPow f o.a.toNat o.b.toNat).elim (.fail .invalidOperand) .ok
      else .fail .preconditionViolated := by
  have hclass : (!(isScal f o.a.toNat && isPow8 o.b.toNat)) = true ↔ ¬(IsElement f o.a.toNat ∧ o.b.toNat < 256) := by
    rw [Bool.not_eq_true', ← Bool.not_eq_true, Bool.and_eq_true, isScal_iff, isPow8_iff]
  simp only [resultOf, gfPowResult, hclass, ite_not]
  cases gfPow f o.a.toNat o.b.toNat <;> rfl

theorem resultOf_gfMul2 (f : Field) (o : OperandRegs) :
    resultOf (.gfMul2 f) o = if IsElement f o.a.toNat then .ok (mulBy2 f o.a.toNat) else .fail .preconditionViolated :=
  ite_not_isScal f _ _ _

/-- Settles O21: the tables of logarithms and powers give the product of the basis. -/
theorem gfMulIsTheBasisProduct : Obligations.GfMulIsTheBasisProduct := by
  refine ⟨⟨rfl, rfl⟩, fun f s => ?_⟩
  have hresult := resultOf_gfMul f s.ops
  split_ifs with hab
  · rw [if_pos hab, gfMul_eq_basisMul hab.1 hab.2] at hresult
    exact exec_of_result_ok hresult
  · exact exec_of_result_fail (hresult.trans (if_neg hab))

/-- Settles O23: a nonzero divisor is a power of α, and the logarithms of quotient and divisor add up to the dividend's. -/
theorem gfDivGivesTheQuotient : Obligations.GfDivGivesTheQuotient := by
  obtain ⟨hwords, hbyZero, -, -, hrefused⟩ := gfDivSubtractsTheLogarithms
  refine ⟨hwords, ?quotient, hbyZero, hrefused⟩
  intro f s ha hb hbne
  obtain ⟨q, hdiv, hq, hqb⟩ := exists_gfDiv_eq_some ha hb (BitVec.toNat_ne_iff_ne.mpr hbne)
  refine ⟨BitVec.ofNat 64 q, exec_of_result_ok ?_, ?_⟩
  · rw [resultOf_gfDiv, if_pos ⟨ha, hb⟩, hdiv, Option.elim_some]
  · rw [toNat_ofNat_of_isElement hq, ← gfMul_eq_basisMul hq hb]
    exact ⟨hq, hqb⟩

/-- 0 to any power is refused (R144). -/
theorem exec_gfPow_zero {f : Field} {s : State} (ha : s.ops.a = 0#64) (hb : s.ops.b.toNat < 256) :
    exec (.gfPow f) s = .next (completed s 0x5#4 0#64 0#16) := by
  refine exec_of_result_fail (c := .invalidOperand) ?_
  rw [resultOf_gfPow, ha, BitVec.toNat_zero, if_pos ⟨isElement_zero f, hb⟩, gfPow_zero_left, Option.elim_none]

/-- Settles O24: the logarithm of α^i is i, and exponents count modulo N_m, a divisor of T_m. -/
theorem gfPowMultipliesTheLogarithm : Obligations.GfPowMultipliesTheLogarithm := by
  refine ⟨⟨rfl, rfl⟩, fun f s => exec_gfPow_zero, ?powers, ?refused⟩
  case powers =>
    intro f s i hi ha hb
    refine ⟨alphaIter_mod_t f _, exec_of_result_ok ?_⟩
    rw [resultOf_gfPow, ha, if_pos ⟨isElement_alphaIter hi, hb⟩, gfPow_alphaIter hi, Option.elim_some]
  case refused =>
    intro f s hab
    exact exec_of_result_fail ((resultOf_gfPow f s.ops).trans (if_neg hab))

/-- Settles O25: the power of α whose exponent is p times the logarithm is the product of p factors. -/
theorem gfPowMultipliesOut : Obligations.GfPowMultipliesOut := by
  refine ⟨⟨rfl, rfl⟩, fun f s => ?_⟩
  split_ifs with hab ha
  · exact exec_gfPow_zero ha hab.2
  · refine exec_of_result_ok ?_
    rw [resultOf_gfPow, if_pos hab, gfPow_eq_some_basisPow hab.1 (BitVec.toNat_ne_iff_ne.mpr ha), Option.elim_some]
  · exact exec_of_result_fail ((resultOf_gfPow f s.ops).trans (if_neg hab))

/-- Settles O27: α^(N_m − i) times α^i is α^N_m = 1. -/
theorem gfInvGivesTheInverse : Obligations.GfInvGivesTheInverse := by
  obtain ⟨hwords, hzero, -, -, hrefused⟩ := gfInvNegatesTheLogarithm
  refine ⟨hwords, ?inverse, hzero, hrefused⟩
  intro f s ha hne
  obtain ⟨v, hinv, hv, hav⟩ := exists_gfInv_eq_some ha (BitVec.toNat_ne_iff_ne.mpr hne)
  refine ⟨BitVec.ofNat 64 v, exec_of_result_ok ?_, ?_⟩
  · rw [resultOf_gfInv, if_pos ha, hinv, Option.elim_some]
  · rw [toNat_ofNat_of_isElement hv, ← gfMul_eq_basisMul ha hv]
    exact ⟨hv, hav⟩

/-- Settles O28: 2 is α, and one more factor α is one more doubling. -/
theorem gfMul2Doubles : Obligations.GfMul2Doubles := by
  refine ⟨⟨rfl, rfl⟩, fun f s => ?command, fun f a ha => (gfMul_two ha).trans (double_eq_ite f a)⟩
  have hresult := resultOf_gfMul2 f s.ops
  rw [mulBy2_eq_double, double_eq_ite] at hresult
  split_ifs at hresult ⊢
  · exact exec_of_result_ok hresult
  · exact exec_of_result_ok hresult
  · exact exec_of_result_fail hresult

end Sys2Proof.Proofs
end

section
/-! Field elements inside one algebraically closed field of characteristic 2, where α is a root of POLY_m, so that XOR is
the sum and gf_mul the product of a field of the library (00_scope.md R10, 40_field_engine.md R150). -/
namespace Sys2Proof.Proofs

open Sys2Proof.Machine Sys2Proof.Safety
open Polynomial (X C)
open scoped Polynomial

/-! ## The elements of GF(2^m) in the closure of GF(2) -/

/-- The algebraic closure of GF(2), in which both GF(8) and GF(16) lie. -/
abbrev Closure : Type := AlgebraicClosure (ZMod 2)

/-- POLY_m has a root. -/
theorem exists_root_poly (f : Field) : ∃ a : Closure, a ^ f.m + a + 1 = 0 := by
  have hdegree : (X ^ f.m + X + 1 : Closure[X]).degree ≠ 0 := by
    have hnat : (X ^ f.m + X + 1 : Closure[X]).natDegree = f.m := by
      cases f <;> (rw [Field.m]; compute_degree!)
    exact fun h => (m_pos f).ne' (hnat.symm.trans (Polynomial.natDegree_eq_zero_iff_degree_le_zero.mpr h.le))
  obtain ⟨a, ha⟩ := IsAlgClosed.exists_root _ hdegree
  exact ⟨a, by simpa using ha⟩

/-- α, a root of POLY_m. -/
noncomputable def alpha (f : Field) : Closure := (exists_root_poly f).choose

theorem alpha_root (f : Field) : alpha f ^ f.m + alpha f + 1 = 0 := (exists_root_poly f).choose_spec

/-- The polynomial in α whose coefficients are the bits of v; it takes in the one bit above the m bits of an element, so
that it can be read off a double before its reduction. -/
noncomputable def embed (f : Field) (v : Nat) : Closure :=
  ∑ j ∈ Finset.range (f.m + 1), if v.testBit j then alpha f ^ j else 0

@[simp] theorem embed_zero (f : Field) : embed f 0 = 0 := by simp [embed]

@[simp] theorem embed_one (f : Field) : embed f 1 = 1 := by
  simp [embed, Nat.testBit_one_eq_true_iff_self_eq_zero]

/-- XOR is the sum. -/
theorem embed_xor (f : Field) (v w : Nat) : embed f (v ^^^ w) = embed f v + embed f w := by
  rw [embed, embed, embed, ← Finset.sum_add_distrib]
  refine Finset.sum_congr rfl fun j _ => ?_
  rw [Nat.testBit_xor]
  cases v.testBit j <;> cases w.testBit j <;> simp [CharTwo.add_self_eq_zero]

theorem embed_two_mul {f : Field} {v : Nat} (hv : IsElement f v) : embed f (2 * v) = alpha f * embed f v := by
  have htop : v.testBit f.m = false := Nat.testBit_lt_two_pow hv
  rw [embed, Finset.sum_range_succ', embed, Finset.sum_range_succ, htop]
  simp [Finset.mul_sum, Nat.testBit_succ, pow_succ']

theorem embed_poly (f : Field) : embed f f.poly = 0 := by
  rw [← alpha_root f]
  cases f <;> simp [embed, Finset.sum_range_succ, Field.m, Field.poly, Nat.testBit] <;> ring

theorem embed_double {f : Field} {v : Nat} (hv : IsElement f v) : embed f (double f v) = alpha f * embed f v := by
  rw [double]
  split_ifs
  · exact embed_two_mul hv
  · rw [embed_xor, embed_poly, add_zero, embed_two_mul hv]

theorem isElement_alphaIter' (f : Field) (i : Nat) : IsElement f (alphaIter f i) := by
  rw [← alphaIter_mod_n]
  exact isElement_alphaIter (Nat.mod_lt _ (n_pos f))

theorem embed_alphaIter (f : Field) (i : Nat) : embed f (alphaIter f i) = alpha f ^ i := by
  induction i with
  | zero => rw [alphaIter, embed_one, pow_zero]
  | succ i ih => rw [alphaIter, embed_double (isElement_alphaIter' f i), ih, pow_succ']

theorem alpha_pow_n (f : Field) : alpha f ^ f.n = 1 := by
  rw [← embed_alphaIter, alphaIter_n, embed_one]

theorem alpha_ne_zero (f : Field) : alpha f ≠ 0 := by
  intro h
  have hone := alpha_pow_n f
  rw [h, zero_pow (n_pos f).ne'] at hone
  exact zero_ne_one hone

theorem embed_eq_zero_iff {f : Field} {v : Nat} (hv : IsElement f v) : embed f v = 0 ↔ v = 0 := by
  constructor
  · intro hzero
    by_contra hne
    obtain ⟨i, -, rfl⟩ := exists_alphaIter_eq hv hne
    rw [embed_alphaIter] at hzero
    exact pow_ne_zero i (alpha_ne_zero f) hzero
  · rintro rfl
    exact embed_zero f

theorem embed_inj {f : Field} {v w : Nat} (hv : IsElement f v) (hw : IsElement f w) :
    embed f v = embed f w ↔ v = w := by
  rw [← CharTwo.add_eq_zero, ← embed_xor, embed_eq_zero_iff (Nat.xor_lt_two_pow hv hw), Nat.xor_eq_zero_iff]

/-- gf_mul is the product. -/
theorem embed_gfMul {f : Field} {a b : Nat} (ha : IsElement f a) (hb : IsElement f b) :
    embed f (gfMul f a b) = embed f a * embed f b := by
  obtain rfl | ⟨i, rfl⟩ := eq_zero_or_eq_alphaIter ha
  · rw [gfMul_zero_left, embed_zero, zero_mul]
  obtain rfl | ⟨j, rfl⟩ := eq_zero_or_eq_alphaIter hb
  · rw [gfMul_zero_right, embed_zero, mul_zero]
  rw [gfMul_alphaIter_alphaIter, embed_alphaIter, embed_alphaIter, embed_alphaIter, pow_add]

theorem embed_basisMul {f : Field} {a b : Nat} (ha : IsElement f a) (hb : IsElement f b) :
    embed f (basisMul f a b) = embed f a * embed f b := by
  rw [← gfMul_eq_basisMul ha hb, embed_gfMul ha hb]

/-- gf_div is the quotient. -/
theorem embed_gfDiv {f : Field} {a b q : Nat} (ha : IsElement f a) (hb : IsElement f b) (hne : b ≠ 0)
    (hq : gfDiv f a b = some q) : embed f q = embed f a / embed f b := by
  obtain ⟨q', hdiv, hq', hmul⟩ := exists_gfDiv_eq_some ha hb hne
  obtain rfl : q' = q := Option.some.inj (hdiv.symm.trans hq)
  rw [eq_div_iff ((embed_eq_zero_iff hb).not.mpr hne), ← embed_gfMul hq' hb, hmul]

theorem embed_basisPow {f : Field} {x : Nat} (hx : IsElement f x) (i : Nat) :
    embed f (basisPow f x i) = embed f x ^ i := by
  induction i with
  | zero => rw [basisPow, embed_one, pow_zero]
  | succ i ih => rw [basisPow, embed_basisMul (isElement_basisPow hx i) hx, ih, pow_succ]

theorem embed_xorUpTo (f : Field) (g : Nat → Nat) (n : Nat) :
    embed f (xorUpTo g n) = ∑ i ∈ Finset.range n, embed f (g i) := by
  induction n with
  | zero => rw [xorUpTo, embed_zero, Finset.sum_range_zero]
  | succ n ih => rw [xorUpTo, embed_xor, ih, Finset.sum_range_succ]

/-- Different positions have different powers of α. -/
theorem alpha_pow_inj {f : Field} {i j : Nat} (hi : i < f.n) (hj : j < f.n) : alpha f ^ i = alpha f ^ j ↔ i = j := by
  rw [← embed_alphaIter, ← embed_alphaIter, embed_inj (isElement_alphaIter hi) (isElement_alphaIter hj)]
  constructor
  · intro h
    have hlog := logRom_alphaIter hi
    rw [h, logRom_alphaIter hj] at hlog
    exact (Option.some.inj hlog).symm
  · rintro rfl
    rfl

end Sys2Proof.Proofs
end

section
/-! Packed words as polynomials over that field: what each operation of the polynomial engine is there
(00_scope.md R9, 41_polynomial_engine.md R179 to R190). -/
namespace Sys2Proof.Proofs

open Sys2Proof.Machine Sys2Proof.Safety
open Polynomial (X C)
open scoped Polynomial

/-! ## The polynomial of a word -/

/-- The polynomial whose coefficients are the slots of the word w; no slot from w on holds anything. -/
noncomputable def wordPoly (f : Field) (w : Nat) : Closure[X] :=
  ∑ i ∈ Finset.range w, C (embed f (slot f w i)) * X ^ i

@[simp] theorem coeff_wordPoly (f : Field) (w n : Nat) : (wordPoly f w).coeff n = embed f (slot f w n) := by
  rw [wordPoly, Polynomial.finsetSum_coeff]
  simp only [Polynomial.coeff_C_mul_X_pow, Finset.sum_ite_eq, Finset.mem_range]
  split_ifs with hn
  · rfl
  · have hsmall : w < 2 ^ (f.m * w) :=
      Nat.lt_two_pow_self.trans_le (Nat.pow_le_pow_right Nat.two_pos (Nat.le_mul_of_pos_left w (m_pos f)))
    rw [slot_eq_zero_of_lt f w w n hsmall (Nat.le_of_not_lt hn), embed_zero]

theorem wordPoly_inj {f : Field} {v w : Nat} : wordPoly f v = wordPoly f w ↔ v = w := by
  constructor
  · intro h
    refine eq_of_slots f v w fun i => ?_
    rw [← embed_inj (slot_lt f v i) (slot_lt f w i), ← coeff_wordPoly, h, coeff_wordPoly]
  · rintro rfl
    rfl

@[simp] theorem wordPoly_zero (f : Field) : wordPoly f 0 = 0 := by
  rw [wordPoly, Finset.sum_range_zero]

theorem wordPoly_eq_zero_iff {f : Field} {w : Nat} : wordPoly f w = 0 ↔ w = 0 := by
  rw [← wordPoly_zero f, wordPoly_inj]

theorem slot_of_isElement {f : Field} {v : Nat} (hv : IsElement f v) (i : Nat) :
    slot f v i = if i = 0 then v else 0 := by
  split_ifs with hi
  · rw [hi, slot, Nat.mul_zero, Nat.shiftRight_zero, Nat.mod_eq_of_lt hv]
  · exact slot_eq_zero_of_lt f v 1 i (by rwa [Nat.mul_one]) (Nat.one_le_iff_ne_zero.mpr hi)

@[simp] theorem wordPoly_one (f : Field) : wordPoly f 1 = 1 := by
  ext n
  rw [coeff_wordPoly, slot_of_isElement (isElement_one f), Polynomial.coeff_one, apply_ite (embed f), embed_one,
    embed_zero]

theorem wordPoly_of_isElement {f : Field} {v : Nat} (hv : IsElement f v) : wordPoly f v = C (embed f v) := by
  ext n
  rw [coeff_wordPoly, slot_of_isElement hv, Polynomial.coeff_C, apply_ite (embed f), embed_zero]

theorem wordPoly_xor (f : Field) (v w : Nat) : wordPoly f (v ^^^ w) = wordPoly f v + wordPoly f w := by
  ext n
  rw [Polynomial.coeff_add, coeff_wordPoly, coeff_wordPoly, coeff_wordPoly, slot_xor, embed_xor]

theorem wordPoly_shiftLeft (f : Field) (w k : Nat) : wordPoly f (w <<< (k * f.m)) = wordPoly f w * X ^ k := by
  ext n
  rw [Polynomial.coeff_mul_X_pow', coeff_wordPoly, Nat.mul_comm, slot_shiftLeft, apply_ite (embed f), embed_zero,
    coeff_wordPoly]

/-! ## Sizes and degrees -/

theorem embed_slot_eq_zero_iff {f : Field} {w i : Nat} : embed f (slot f w i) = 0 ↔ slot f w i = 0 :=
  embed_eq_zero_iff (slot_lt f w i)

theorem degree_wordPoly_lt_iff {f : Field} {w n : Nat} : (wordPoly f w).degree < n ↔ w < 2 ^ (n * f.m) := by
  rw [Polynomial.degree_lt_iff_coeff_zero, lt_two_pow_iff_slots]
  simp only [coeff_wordPoly, embed_slot_eq_zero_iff]

theorem natDegree_wordPoly_lt {f : Field} {w n : Nat} (hw : w < 2 ^ (n * f.m)) (hn : 0 < n) :
    (wordPoly f w).natDegree < n := by
  by_cases hzero : wordPoly f w = 0
  · rwa [hzero, Polynomial.natDegree_zero]
  · exact (Polynomial.natDegree_lt_iff_degree_lt hzero).mpr (degree_wordPoly_lt_iff.mpr hw)

theorem hasDegree_iff {f : Field} {w d : Nat} :
    HasDegree f w d ↔ wordPoly f w ≠ 0 ∧ (wordPoly f w).natDegree = d := by
  constructor
  · rintro ⟨hd, habove⟩
    have hcoeff : (wordPoly f w).coeff d ≠ 0 := by
      rwa [coeff_wordPoly, ne_eq, embed_slot_eq_zero_iff]
    refine ⟨fun h => hcoeff (by rw [h, Polynomial.coeff_zero]), Polynomial.natDegree_eq_of_le_of_coeff_ne_zero ?_ hcoeff⟩
    rw [Polynomial.natDegree_le_iff_coeff_eq_zero]
    intro i hi
    rw [coeff_wordPoly, habove i hi, embed_zero]
  · rintro ⟨hne, rfl⟩
    refine ⟨?_, fun i hi => ?_⟩
    · rw [ne_eq, ← embed_slot_eq_zero_iff, ← coeff_wordPoly]
      exact Polynomial.leadingCoeff_ne_zero.mpr hne
    · rw [← embed_slot_eq_zero_iff, ← coeff_wordPoly]
      exact Polynomial.coeff_eq_zero_of_natDegree_lt hi

/-! ## Products, values and derivatives -/

/-- A convolution is a coefficient of the product. -/
theorem embed_conv {f : Field} {p q : Nat → Nat} (hp : ∀ i, IsElement f (p i)) (hq : ∀ i, IsElement f (q i))
    {P Q : Closure[X]} (hP : ∀ i, P.coeff i = embed f (p i)) (hQ : ∀ i, Q.coeff i = embed f (q i)) (n : Nat) :
    embed f (conv f p q n) = (P * Q).coeff n := by
  rw [conv, embed_xorUpTo, Polynomial.coeff_mul, Finset.Nat.sum_antidiagonal_eq_sum_range_succ_mk]
  exact Finset.sum_congr rfl fun i _ => by rw [embed_basisMul (hp i) (hq _), hP, hQ]

theorem embed_conv_slot (f : Field) (p q n : Nat) :
    embed f (conv f (slot f p) (slot f q) n) = (wordPoly f p * wordPoly f q).coeff n :=
  embed_conv (slot_lt f p) (slot_lt f q) (coeff_wordPoly f p) (coeff_wordPoly f q) n

theorem isElement_conv {f : Field} {p q : Nat → Nat} (hp : ∀ i, IsElement f (p i)) (hq : ∀ i, IsElement f (q i))
    (n : Nat) : IsElement f (conv f p q n) :=
  xorUpTo_lt _ _ _ fun i => isElement_basisMul (hp i) (hq (n - i))

theorem wordPoly_scale {f : Field} {p x : Nat} (hp : IsPacked f p) (hx : IsElement f x) :
    wordPoly f (scale f p x) = C (embed f x) * wordPoly f p := by
  ext n
  rw [Polynomial.coeff_C_mul, coeff_wordPoly, coeff_wordPoly, slot_scale, ← embed_gfMul hx (slot_lt f p n),
    gfMul_comm f x]
  split_ifs with hn
  · rfl
  · rw [(lt_two_pow_iff_slots f p f.slots).mp hp n (Nat.le_of_not_lt hn), gfMul_zero_left]

theorem wordPoly_prod {f : Field} {p q : Nat} (hp : IsPacked f p) (hq : IsPacked f q) :
    wordPoly f (prod f p q) = wordPoly f p * wordPoly f q := by
  have hpos := slots_pos f
  ext n
  rw [coeff_wordPoly, slot_prod, ← embed_conv_slot, ← prodCoeff_eq_conv]
  split_ifs with hn
  · rfl
  · have hdeg : (wordPoly f p * wordPoly f q).natDegree < n :=
      calc (wordPoly f p * wordPoly f q).natDegree
          ≤ (wordPoly f p).natDegree + (wordPoly f q).natDegree := Polynomial.natDegree_mul_le
        _ < n := by
          have := natDegree_wordPoly_lt hp hpos
          have := natDegree_wordPoly_lt hq hpos
          omega
    rw [embed_zero, prodCoeff_eq_conv, embed_conv_slot, Polynomial.coeff_eq_zero_of_natDegree_lt hdeg]

/-- A word whose slot 0 is 1 is left as it is. -/
theorem force1_eq_self {f : Field} {q : Nat} (hq : slot f q 0 = 1) : force1 f q = q := by
  refine eq_of_slots f _ _ fun i => ?_
  rw [slot_force1]
  split_ifs with hi
  · rw [hi, hq]
  · rfl

theorem slot_polyDeriv_of_isPacked {f : Field} {p : Nat} (hp : IsPacked f p) (n : Nat) :
    slot f (polyDeriv f p) n = if n % 2 = 0 then slot f p (n + 1) else 0 := by
  have hhigh := (lt_two_pow_iff_slots f p f.slots).mp hp (n + 1)
  rw [slot_polyDeriv, derivCoeff]
  by_cases hn : n + 1 < f.slots
  · simp only [hn, and_true, (Nat.lt_succ_self n).trans hn, if_true]
  · simp only [hn, and_false, hhigh (Nat.le_of_not_lt hn), ite_self]

/-- In characteristic 2 the factor n + 1 of the derivative is 1 for even n and 0 for odd n. -/
theorem wordPoly_polyDeriv {f : Field} {p : Nat} (hp : IsPacked f p) :
    wordPoly f (polyDeriv f p) = (wordPoly f p).derivative := by
  ext n
  rw [Polynomial.coeff_derivative, coeff_wordPoly, coeff_wordPoly, slot_polyDeriv_of_isPacked hp, ← Nat.cast_succ]
  split_ifs with heven
  · have hone : ((n + 1 : Nat) : Closure) = 1 := by
      rw [Nat.cast_succ, (CharP.cast_eq_zero_iff Closure 2 n).mpr (Nat.dvd_of_mod_eq_zero heven), zero_add]
    rw [hone, mul_one]
  · have hzero : ((n + 1 : Nat) : Closure) = 0 := (CharP.cast_eq_zero_iff Closure 2 (n + 1)).mpr (by omega)
    rw [hzero, mul_zero, embed_zero]

/-- The value of a word's t low slots, when it has no more, is the value of its polynomial. -/
theorem embed_valueAt {f : Field} {w t x : Nat} (hw : w < 2 ^ (t * f.m)) (hx : IsElement f x) :
    embed f (valueAt f (slot f w) t x) = (wordPoly f w).eval (embed f x) := by
  have hterm : ∀ i ∈ Finset.range t, embed f (basisMul f (slot f w i) (basisPow f x i)) =
      (wordPoly f w).coeff i * embed f x ^ i := fun i _ => by
    rw [embed_basisMul (slot_lt f w i) (isElement_basisPow hx i), embed_basisPow hx, coeff_wordPoly]
  rw [valueAt, embed_xorUpTo, Finset.sum_congr rfl hterm]
  obtain rfl | ht := t.eq_zero_or_pos
  · have hzero : w = 0 := by simpa using hw
    rw [hzero, wordPoly_zero, Polynomial.eval_zero, Finset.sum_range_zero]
  · exact (Polynomial.eval_eq_sum_range' (natDegree_wordPoly_lt hw ht) _).symm

theorem valueAt_eq_zero_iff {f : Field} {w t x : Nat} (hw : w < 2 ^ (t * f.m)) (hx : IsElement f x) :
    valueAt f (slot f w) t x = 0 ↔ (wordPoly f w).eval (embed f x) = 0 := by
  rw [← embed_valueAt hw hx, embed_eq_zero_iff (isElement_valueAt hx w t)]

end Sys2Proof.Proofs
end

section
/-! The commands of the polynomial engine on polynomials (41_polynomial_engine.md R180 to R190): scaling and its
bit-parallel form, products and their degrees, values of products, and the division. -/
namespace Sys2Proof.Proofs

open Sys2Proof.Machine Sys2Proof.Safety
open Polynomial (X C)
open scoped Polynomial

/-! ## P_SCALE (R180) -/

theorem isPacked_scale (f : Field) (p x : Nat) : IsPacked f (scale f p x) := by
  rw [IsPacked, Nat.mul_comm]
  exact scale_lt f p x

theorem resultOf_pScale (f : Field) (o : OperandRegs) :
    resultOf (.pScale f) o = if IsPacked f o.a.toNat ∧ IsElement f o.b.toNat then .ok (scale f o.a.toNat o.b.toNat)
      else .fail .preconditionViolated := by
  simp only [resultOf, pScaleResult, Bool.not_eq_true', ← Bool.not_eq_true, Bool.and_eq_true, isPoly_iff, isScal_iff,
    ite_not]

theorem hasDegree_scale {f : Field} {p x d : Nat} (hp : IsPacked f p) (hx : IsElement f x) (hne : x ≠ 0)
    (hd : HasDegree f p d) : HasDegree f (scale f p x) d := by
  obtain ⟨hpne, hdeg⟩ := hasDegree_iff.mp hd
  have hxne : embed f x ≠ 0 := (embed_eq_zero_iff hx).not.mpr hne
  rw [hasDegree_iff, wordPoly_scale hp hx]
  exact ⟨mul_ne_zero (Polynomial.C_ne_zero.mpr hxne) hpne, (Polynomial.natDegree_C_mul hxne).trans hdeg⟩

/-- Settles O33: in a field a nonzero factor keeps the top coefficient. -/
theorem pScaleScalesEverySlot : Obligations.PScaleScalesEverySlot := by
  refine ⟨⟨rfl, rfl⟩, ?scaled, ?refused⟩
  case scaled =>
    intro f s ha hb
    refine ⟨_, exec_of_result_ok ((resultOf_pScale f s.ops).trans (if_pos ⟨ha, hb⟩)), ?_⟩
    rw [toNat_ofNat_of_isPacked (isPacked_scale f _ _)]
    refine ⟨isPacked_scale f _ _, fun i hi => ?_, fun hne d => hasDegree_scale ha hb (BitVec.toNat_ne_iff_ne.mpr hne)⟩
    rw [slot_scale, if_pos hi, gfMul_eq_basisMul (slot_lt f _ i) hb]
  case refused =>
    intro f s hab
    exact exec_of_result_fail ((resultOf_pScale f s.ops).trans (if_neg hab))

/-! ## The bit-parallel form of scale (R188) -/

theorem slot_and (f : Field) (p q i : Nat) : slot f (p &&& q) i = slot f p i &&& slot f q i := by
  apply Nat.eq_of_testBit_eq
  intro b
  simp only [testBit_slot, Nat.testBit_and]
  cases decide (b < f.m) <;> simp

/-- A shift by one bit stays inside the slots when their top bits are 0. -/
theorem slot_shiftLeft_one {f : Field} {q : Nat} (hq : ∀ i, (slot f q i).testBit (f.m - 1) = false) (i : Nat) :
    slot f (q <<< 1) i = 2 * slot f q i := by
  have hm := m_pos f
  have htop (i : Nat) : q.testBit (f.m * i + (f.m - 1)) = false := by
    simpa [testBit_slot, hm] using hq i
  apply Nat.eq_of_testBit_eq
  intro b
  rw [testBit_slot, Nat.testBit_shiftLeft]
  cases b with
  | zero =>
    cases i with
    | zero => simp
    | succ i =>
      have hpos : f.m * (i + 1) - 1 = f.m * i + (f.m - 1) := by
        rw [Nat.mul_succ]
        omega
      simp [hpos, htop]
  | succ b =>
    rw [Nat.testBit_succ, Nat.mul_div_cancel_left _ Nat.two_pos, testBit_slot]
    obtain hb | hb | hb : b + 1 < f.m ∨ b = f.m - 1 ∨ f.m ≤ b := by omega
    · have hpos : f.m * i + (b + 1) - 1 = f.m * i + b := by omega
      simp [hb, hpos, show b < f.m by omega, show 1 ≤ f.m * i + (b + 1) by omega]
    · simp [hb, htop]
    · simp [show ¬b + 1 < f.m by omega, show ¬b < f.m by omega]

/-- A shift from the top bit to bit 0 stays inside the slots when they hold nothing but their top bit. -/
theorem slot_shiftRight_top {f : Field} {q : Nat}
    (hq : ∀ i b, b + 1 < f.m → (slot f q i).testBit b = false) (i : Nat) :
    slot f (q >>> (f.m - 1)) i = slot f q i >>> (f.m - 1) := by
  have hm := m_pos f
  apply Nat.eq_of_testBit_eq
  intro b
  rw [testBit_slot, Nat.testBit_shiftRight, Nat.testBit_shiftRight, testBit_slot]
  cases b with
  | zero => simp [hm, Nat.add_comm]
  | succ b =>
    have hpos : f.m - 1 + (f.m * i + (b + 1)) = f.m * (i + 1) + b := by
      rw [Nat.mul_succ]
      omega
    by_cases hb : b + 1 < f.m
    · have hlow := hq (i + 1) b hb
      rw [testBit_slot, decide_eq_true (Nat.lt_of_succ_lt hb), Bool.true_and] at hlow
      simp [hpos, hlow, show ¬f.m - 1 + (b + 1) < f.m by omega]
    · simp [hb, show ¬f.m - 1 + (b + 1) < f.m by omega]

theorem slot_topMask (f : Field) : ∀ i : Nat, i < f.slots → slot f (topMask f) i = 2 ^ (f.m - 1) := by
  cases f <;> decide

/-- R188 in one slot: the top bit is taken out, the rest shifted up, and the top bit put back as x + 1. -/
theorem double_eq_and_top (f : Field) : ∀ v : Nat, v < 2 ^ f.m →
    2 * (v ^^^ (v &&& 2 ^ (f.m - 1))) ^^^ ((v &&& 2 ^ (f.m - 1)) >>> (f.m - 1)) ^^^
      2 * ((v &&& 2 ^ (f.m - 1)) >>> (f.m - 1)) = double f v := by
  cases f <;> decide

theorem two_le_m (f : Field) : 2 ≤ f.m := by cases f <;> decide

theorem testBit_shiftRight_top {f : Field} {v : Nat} (hv : IsElement f v) :
    (v >>> (f.m - 1)).testBit (f.m - 1) = false := by
  have hm := two_le_m f
  rw [Nat.testBit_shiftRight]
  exact Nat.testBit_lt_two_pow (hv.trans_le (Nat.pow_le_pow_right Nat.two_pos (by omega)))

/-- Every slot is doubled at once. -/
theorem slot_mul2Packed {f : Field} {p : Nat} (hp : IsPacked f p) (i : Nat) :
    slot f (mul2Packed f p) i = double f (slot f p i) := by
  have htop (i : Nat) : slot f (p &&& topMask f) i = slot f p i &&& 2 ^ (f.m - 1) := by
    rw [slot_and]
    by_cases hi : i < f.slots
    · rw [slot_topMask f i hi]
    · rw [(lt_two_pow_iff_slots f p f.slots).mp hp i (Nat.le_of_not_lt hi), Nat.zero_and, Nat.zero_and]
  have hlow (i b : Nat) (hb : b + 1 < f.m) : (slot f (p &&& topMask f) i).testBit b = false := by
    rw [htop, Nat.testBit_and, Nat.testBit_two_pow_of_ne (by omega), Bool.and_false]
  have hclear (i : Nat) : (slot f (p ^^^ (p &&& topMask f)) i).testBit (f.m - 1) = false := by
    rw [slot_xor, htop, Nat.testBit_xor, Nat.testBit_and, Nat.testBit_two_pow_self, Bool.and_true, Bool.xor_self]
  have hcarry (i : Nat) : (slot f ((p &&& topMask f) >>> (f.m - 1)) i).testBit (f.m - 1) = false := by
    rw [slot_shiftRight_top hlow]
    exact testBit_shiftRight_top (slot_lt f _ i)
  rw [← double_eq_and_top f _ (slot_lt f p i)]
  simp only [mul2Packed, slot_xor, slot_shiftLeft_one hclear, slot_shiftLeft_one hcarry, slot_shiftRight_top hlow, htop]

theorem double_zero (f : Field) : double f 0 = 0 := by
  rw [double, Nat.mul_zero, if_pos (Nat.two_pow_pos _)]

theorem isPacked_mul2Packed {f : Field} {p : Nat} (hp : IsPacked f p) : IsPacked f (mul2Packed f p) := by
  rw [IsPacked, lt_two_pow_iff_slots] at hp ⊢
  intro i hi
  rw [slot_mul2Packed ((lt_two_pow_iff_slots f p f.slots).mpr hp), hp i hi, double_zero]

theorem isPacked_mul2PackedIter {f : Field} {p : Nat} (hp : IsPacked f p) (j : Nat) :
    IsPacked f (mul2PackedIter f p j) := by
  induction j with
  | zero => exact hp
  | succ j ih => exact isPacked_mul2Packed ih

theorem wordPoly_mul2PackedIter {f : Field} {p : Nat} (hp : IsPacked f p) (j : Nat) :
    wordPoly f (mul2PackedIter f p j) = C (alpha f ^ j) * wordPoly f p := by
  induction j with
  | zero => rw [mul2PackedIter, pow_zero, Polynomial.C_1, one_mul]
  | succ j ih =>
    have hdouble : wordPoly f (mul2Packed f (mul2PackedIter f p j)) =
        C (alpha f) * wordPoly f (mul2PackedIter f p j) := by
      ext n
      rw [coeff_wordPoly, slot_mul2Packed (isPacked_mul2PackedIter hp j), embed_double (slot_lt f _ n),
        Polynomial.coeff_C_mul, coeff_wordPoly]
    rw [mul2PackedIter, hdouble, ih, pow_succ', Polynomial.C_mul, mul_assoc]

theorem wordPoly_xorUpTo (f : Field) (g : Nat → Nat) (n : Nat) :
    wordPoly f (xorUpTo g n) = ∑ j ∈ Finset.range n, wordPoly f (g j) := by
  induction n with
  | zero => rw [xorUpTo, wordPoly_zero, Finset.sum_range_zero]
  | succ n ih => rw [xorUpTo, wordPoly_xor, ih, Finset.sum_range_succ]

/-- The multiples by the powers of α that x names add up to the multiple by x. -/
theorem scalePacked_eq_scale {f : Field} {p x : Nat} (hp : IsPacked f p) (hx : IsElement f x) :
    scalePacked f p x = scale f p x := by
  have htop : x.testBit f.m = false := Nat.testBit_lt_two_pow hx
  rw [← wordPoly_inj (f := f), wordPoly_scale hp hx, scalePacked, wordPoly_xorUpTo, embed, Finset.sum_range_succ, htop]
  simp only [Bool.false_eq_true, if_false, add_zero, map_sum, Finset.sum_mul]
  refine Finset.sum_congr rfl fun j _ => ?_
  split_ifs
  · exact wordPoly_mul2PackedIter hp j
  · rw [wordPoly_zero, Polynomial.C_0, zero_mul]

/-- Settles O34: both forms multiply the polynomial by the element. -/
theorem pScaleIsTheBitParallelForm : Obligations.PScaleIsTheBitParallelForm := by
  intro f s ha hb
  rw [scalePacked_eq_scale ha hb]
  exact exec_of_result_ok ((resultOf_pScale f s.ops).trans (if_pos ⟨ha, hb⟩))

/-! ## P_MUL (R181) -/

theorem resultOf_pMul (f : Field) (o : OperandRegs) :
    resultOf (.pMul f) o = if IsPacked f o.a.toNat ∧ IsPacked f o.b.toNat then fitOrFail f (prod f o.a.toNat o.b.toNat)
      else .fail .preconditionViolated := by
  simp only [resultOf, pMulResult, Bool.not_eq_true', ← Bool.not_eq_true, Bool.and_eq_true, isPoly_iff, ite_not]

theorem exec_pMul_of_isPacked {f : Field} {s : State} (ha : IsPacked f s.ops.a.toNat) (hb : IsPacked f s.ops.b.toNat)
    (hprod : IsPacked f (prod f s.ops.a.toNat s.ops.b.toNat)) :
    exec (.pMul f) s = .next (completed s 0x0#4 (BitVec.ofNat 64 (prod f s.ops.a.toNat s.ops.b.toNat)) 0#16) :=
  exec_of_result_ok ((resultOf_pMul f s.ops).trans ((if_pos ⟨ha, hb⟩).trans (fitOrFail_of_isPacked hprod)))

theorem exec_pMul_of_not_isPacked {f : Field} {s : State} (hprod : ¬IsPacked f (prod f s.ops.a.toNat s.ops.b.toNat)) :
    exec (.pMul f) s = .next (completed s 0x6#4 0#64 0#16) := by
  refine exec_of_result_fail (c := .preconditionViolated) ?_
  rw [resultOf_pMul, fitOrFail_of_not_isPacked hprod, ite_self]

/-- The product of nonzero polynomials has the sum of their degrees as its degree: there are no zero divisors. -/
theorem hasDegree_prod {f : Field} {p q dp dq : Nat} (hp : IsPacked f p) (hq : IsPacked f q) (hdp : HasDegree f p dp)
    (hdq : HasDegree f q dq) : HasDegree f (prod f p q) (dp + dq) := by
  obtain ⟨hpne, rfl⟩ := hasDegree_iff.mp hdp
  obtain ⟨hqne, rfl⟩ := hasDegree_iff.mp hdq
  rw [hasDegree_iff, wordPoly_prod hp hq]
  exact ⟨mul_ne_zero hpne hqne, Polynomial.natDegree_mul hpne hqne⟩

theorem isPacked_iff_of_hasDegree {f : Field} {p d : Nat} (hd : HasDegree f p d) : IsPacked f p ↔ d < f.slots := by
  obtain ⟨hne, rfl⟩ := hasDegree_iff.mp hd
  rw [IsPacked, ← degree_wordPoly_lt_iff, Polynomial.natDegree_lt_iff_degree_lt hne]

theorem completed_ok_ne_refused (s : State) (y : Word) :
    (Host.Outcome.next (completed s 0x0#4 y 0#16) : Host.Outcome State Fault Refusal) ≠
      .next (completed s 0x6#4 0#64 0#16) := by
  intro h
  injection h with h
  exact absurd (congrArg State.status h) (show (0x0#4 : StatusBits) ≠ 0x6#4 by decide)

/-- Settles O35: the container check reads the product's coefficients from SLOTS_m on, and its top one is not 0. -/
theorem pMulGivesTheProductThatFits : Obligations.PMulGivesTheProductThatFits := by
  refine ⟨⟨rfl, rfl⟩, ?fits, ?overflow, ?refused, ?degree⟩
  case fits =>
    intro f s ha hb hzero
    have hprod := (isPacked_prod_iff f s.ops.a.toNat s.ops.b.toNat).mpr hzero
    refine ⟨_, exec_pMul_of_isPacked ha hb hprod, ?_⟩
    rw [toNat_ofNat_of_isPacked hprod]
    exact ⟨hprod, fun n hn => slot_prod_eq_conv f _ _ (by omega)⟩
  case overflow =>
    rintro f s ⟨n, hlow, hhigh, hne⟩
    exact exec_pMul_of_not_isPacked fun hprod => hne ((isPacked_prod_iff f _ _).mp hprod n hlow hhigh)
  case refused =>
    intro f s hab
    exact exec_of_result_fail ((resultOf_pMul f s.ops).trans (if_neg hab))
  case degree =>
    intro f s dp dq ha hb hdp hdq
    have hfits := isPacked_iff_of_hasDegree (hasDegree_prod ha hb hdp hdq)
    have hpos := slots_pos f
    constructor
    · intro hrefused
      by_contra hlow
      rw [exec_pMul_of_isPacked ha hb (hfits.mpr (by omega))] at hrefused
      exact completed_ok_ne_refused _ _ hrefused
    · intro hhigh
      exact exec_pMul_of_not_isPacked fun hprod => absurd (hfits.mp hprod) (by omega)

/-- Settles O36: the degree of the product, which fits. -/
theorem pMulAddsDegrees : Obligations.PMulAddsDegrees := by
  intro f s dp dq ha hb hdp hdq hsum
  have hdegree := hasDegree_prod ha hb hdp hdq
  have hprod := (isPacked_iff_of_hasDegree hdegree).mpr hsum
  refine ⟨_, exec_pMul_of_isPacked ha hb hprod, ?_⟩
  rwa [toNat_ofNat_of_isPacked hprod]

/-! ## Values of a product (R190 "eval") -/

theorem valueAt_prod {f : Field} {p q x : Nat} (hp : IsPacked f p) (hq : IsPacked f q)
    (hprod : IsPacked f (prod f p q)) (hx : IsElement f x) :
    valueAt f (slot f (prod f p q)) f.slots x =
      basisMul f (valueAt f (slot f p) f.slots x) (valueAt f (slot f q) f.slots x) := by
  have hvp := isElement_valueAt hx p f.slots
  have hvq := isElement_valueAt hx q f.slots
  rw [← embed_inj (isElement_valueAt hx _ _) (isElement_basisMul hvp hvq), embed_basisMul hvp hvq, embed_valueAt hprod hx,
    embed_valueAt hp hx, embed_valueAt hq hx, wordPoly_prod hp hq, Polynomial.eval_mul]

/-- P_EVAL over the whole container. -/
theorem exec_pEval_container {f : Field} {s : State} (hsza : s.ops.sza = BitVec.ofNat 8 (f.slots * f.m))
    (ha : IsPacked f s.ops.a.toNat) (hb : IsElement f s.ops.b.toNat) :
    exec (.pEval f) s =
      .next (completed s 0x0#4 (BitVec.ofNat 64 (valueAt f (slot f s.ops.a.toNat) f.slots s.ops.b.toNat)) 0#16) := by
  have hsize : s.ops.sza.toNat = f.slots * f.m := by
    rw [hsza]
    cases f <;> rfl
  have hdiv : f.slots * f.m / f.m = f.slots := Nat.mul_div_cancel _ (m_pos f)
  rw [pEvalGivesTheValue.2 f s, hsize, if_pos ⟨ha, hb, Nat.mul_mod_left _ _, le_refl _⟩, hdiv]

/-- An OK result of P_MUL is the product, of packed operands and packed itself. -/
theorem pMul_ok {f : Field} {s t : State} (hexec : exec (.pMul f) s = .next t) (hok : t.status = 0x0#4) :
    IsPacked f s.ops.a.toNat ∧ IsPacked f s.ops.b.toNat ∧ IsPacked f (prod f s.ops.a.toNat s.ops.b.toNat) ∧
      t.y.toNat = prod f s.ops.a.toNat s.ops.b.toNat := by
  rw [(exec_next_iff _ s t).mp hexec, State.complete_status, resultOf_pMul] at hok
  rw [(exec_next_iff _ s t).mp hexec, State.complete_y, resultOf_pMul]
  split_ifs at hok ⊢ with hab
  · obtain ⟨hprod, hfit⟩ | ⟨-, hfit⟩ := fitOrFail_cases f (prod f s.ops.a.toNat s.ops.b.toNat)
    · exact ⟨hab.1, hab.2, hprod, by rw [hfit, Result.ok_y, toNat_ofNat_of_isPacked hprod]⟩
    · rw [hfit] at hok
      exact absurd hok (by decide)
  · exact absurd hok (by decide)

/-- Settles O40: evaluation is a ring homomorphism. -/
theorem evaluationIsMultiplicative : Obligations.EvaluationIsMultiplicative := by
  intro f s t x hexec hok hx
  obtain ⟨ha, hb, hprod, hy⟩ := pMul_ok hexec hok
  refine ⟨_, _, exec_pEval_container rfl ha hx, exec_pEval_container rfl hb hx, ?_⟩
  refine (exec_pEval_container rfl (hy ▸ hprod) hx).trans ?_
  rw [toNat_ofNat_of_isElement (isElement_valueAt hx _ _), toNat_ofNat_of_isElement (isElement_valueAt hx _ _),
    ← valueAt_prod ha hb hprod hx, ← hy]

end Sys2Proof.Proofs
end

section
/-! Division by a monic word as division of polynomials, the generator as a product of linear factors, and the encoder
(41_polynomial_engine.md R183, 20_memory.md R65, 42_encoder.md R230 and R231). -/
namespace Sys2Proof.Proofs

open Sys2Proof.Machine Sys2Proof.Safety
open Polynomial (X C)
open scoped Polynomial

/-! ## The division loop (R183) -/

/-- The quotient that the division loop leaves unwritten: each step's top coefficient, at the step's position. -/
def modQuotient (f : Field) (q k : Nat) : Nat → Nat → Nat
  | 0, _ => 0
  | t + 1, c => modQuotient f q k t (modStep f q k (t + k) c) ^^^ (slot f c (t + k) <<< (t * f.m))

theorem wordPoly_modStep {f : Field} {q : Nat} (hq : IsPacked f q) (k t c : Nat) :
    wordPoly f (modStep f q k (t + k) c) =
      wordPoly f c + C (embed f (slot f c (t + k))) * X ^ t * wordPoly f q := by
  rw [modStep, Nat.add_sub_cancel]
  split_ifs with htop
  · rw [wordPoly_xor, wordPoly_shiftLeft, wordPoly_scale hq (slot_lt f c _)]
    ring
  · rw [not_not.mp htop, embed_zero, Polynomial.C_0, zero_mul, zero_mul, add_zero]

/-- The loop subtracts the quotient times the divisor. -/
theorem wordPoly_modLoop {f : Field} {q : Nat} (hq : IsPacked f q) (k t c : Nat) :
    wordPoly f c = wordPoly f (modQuotient f q k t c) * wordPoly f q + wordPoly f (modLoop f q k t c) := by
  induction t generalizing c with
  | zero => rw [modQuotient, modLoop, wordPoly_zero, zero_mul, zero_add]
  | succ t ih =>
    have hstep := wordPoly_modStep hq k t c
    rw [ih (modStep f q k (t + k) c)] at hstep
    rw [modQuotient, modLoop, wordPoly_xor, wordPoly_shiftLeft, wordPoly_of_isElement (slot_lt f c _), add_mul,
      add_right_comm, hstep, add_assoc, CharTwo.add_self_eq_zero, add_zero]

/-- One step clears the top slot of a word of t + 1 + k slots: the divisor is monic of degree k. -/
theorem modStep_lt {f : Field} {q k t c : Nat} (hmonic : slot f q k = 1) (hq : q < 2 ^ ((k + 1) * f.m))
    (hpacked : IsPacked f q) (hc : c < 2 ^ ((t + 1 + k) * f.m)) :
    modStep f q k (t + k) c < 2 ^ ((t + k) * f.m) := by
  rw [← degree_wordPoly_lt_iff, wordPoly_modStep hpacked, Polynomial.degree_lt_iff_coeff_zero]
  intro i hi
  obtain ⟨d, rfl⟩ := Nat.exists_eq_add_of_le hi
  have hcoeff : (C (embed f (slot f c (t + k))) * X ^ t * wordPoly f q).coeff (t + k + d) =
      embed f (slot f c (t + k)) * embed f (slot f q (k + d)) := by
    rw [mul_assoc, Polynomial.coeff_C_mul, Polynomial.coeff_X_pow_mul', if_pos (by omega), coeff_wordPoly,
      show t + k + d - t = k + d by omega]
  rw [Polynomial.coeff_add, hcoeff, coeff_wordPoly]
  obtain rfl | hd := d.eq_zero_or_pos
  · rw [Nat.add_zero, Nat.add_zero, hmonic, embed_one, mul_one, CharTwo.add_self_eq_zero]
  · rw [(lt_two_pow_iff_slots f c _).mp hc (t + k + d) (by omega),
      (lt_two_pow_iff_slots f q _).mp hq (k + d) (by omega), embed_zero, mul_zero, add_zero]

theorem modLoop_lt {f : Field} {q k : Nat} (hmonic : slot f q k = 1) (hq : q < 2 ^ ((k + 1) * f.m))
    (hpacked : IsPacked f q) {t c : Nat} (hc : c < 2 ^ ((t + k) * f.m)) : modLoop f q k t c < 2 ^ (k * f.m) := by
  induction t generalizing c with
  | zero => rwa [Nat.zero_add] at hc
  | succ t ih => exact ih (modStep_lt hmonic hq hpacked hc)

theorem modQuotient_lt (f : Field) (q k t c : Nat) : modQuotient f q k t c < 2 ^ (t * f.m) := by
  induction t generalizing c with
  | zero => exact Nat.two_pow_pos _
  | succ t ih =>
    have hsize : (t + 1) * f.m = f.m + t * f.m := by rw [Nat.succ_mul, Nat.add_comm]
    have htop : slot f c (t + k) <<< (t * f.m) < 2 ^ ((t + 1) * f.m) := by
      rw [hsize, Nat.shiftLeft_eq, pow_add]
      exact Nat.mul_lt_mul_of_pos_right (slot_lt f c _) (Nat.two_pow_pos _)
    have hlow := (ih (modStep f q k (t + k) c)).trans_le
      (Nat.pow_le_pow_right Nat.two_pos (Nat.mul_le_mul_right f.m t.le_succ))
    exact Nat.xor_lt_two_pow hlow htop

/-! ## The remainder -/

theorem polyMod_eq_modLoop {f : Field} {q k : Nat} (hmonic : slot f q k = 1) (hq : q < 2 ^ ((k + 1) * f.m))
    (hpacked : IsPacked f q) {t p : Nat} (hp : p < 2 ^ ((t + k) * f.m)) : polyMod f p t q k = modLoop f q k t p :=
  Nat.mod_eq_of_lt (modLoop_lt hmonic hq hpacked hp)

theorem monic_wordPoly {f : Field} {q k : Nat} (hmonic : slot f q k = 1) (hq : q < 2 ^ ((k + 1) * f.m)) :
    (wordPoly f q).Monic := by
  refine Polynomial.monic_of_natDegree_le_of_coeff_eq_one k ?_ (by rw [coeff_wordPoly, hmonic, embed_one])
  exact Nat.le_of_lt_succ (natDegree_wordPoly_lt hq k.succ_pos)

theorem degree_wordPoly_eq {f : Field} {q k : Nat} (hmonic : slot f q k = 1) (hq : q < 2 ^ ((k + 1) * f.m)) :
    (wordPoly f q).degree = k := by
  refine Polynomial.degree_eq_of_le_of_coeff_ne_zero ?_ (by rw [coeff_wordPoly, hmonic, embed_one]; exact one_ne_zero)
  exact Order.lt_succ_iff.mp (degree_wordPoly_lt_iff.mpr hq)

/-- P_MOD's remainder is the one remainder of polynomial division. -/
theorem wordPoly_polyMod {f : Field} {q k : Nat} (hmonic : slot f q k = 1) (hq : q < 2 ^ ((k + 1) * f.m))
    (hpacked : IsPacked f q) {t p : Nat} (hp : p < 2 ^ ((t + k) * f.m)) :
    wordPoly f (polyMod f p t q k) = wordPoly f p %ₘ wordPoly f q := by
  have hdivision := wordPoly_modLoop hpacked k t p
  have hdegree : (wordPoly f (modLoop f q k t p)).degree < (wordPoly f q).degree := by
    rw [degree_wordPoly_eq hmonic hq]
    exact degree_wordPoly_lt_iff.mpr (modLoop_lt hmonic hq hpacked hp)
  rw [add_comm, mul_comm] at hdivision
  rw [polyMod_eq_modLoop hmonic hq hpacked hp]
  exact (Polynomial.div_modByMonic_unique _ _ (monic_wordPoly hmonic hq) ⟨hdivision.symm, hdegree⟩).2.symm

/-- Settles O38: the quotient has the top coefficients of the division's steps as its slots. -/
theorem pModGivesTheRemainder : Obligations.PModGivesTheRemainder := by
  refine ⟨⟨rfl, rfl⟩, ?divides, ?refused⟩
  case divides =>
    intro f s hops
    obtain ⟨-, hb, -, -, hslots, hmonic, hq, hp⟩ := id hops
    set t := s.ops.sza.toNat / f.m
    set k := s.ops.szb.toNat / f.m
    have hy : (BitVec.ofNat 64 (polyMod f s.ops.a.toNat t s.ops.b.toNat k)).toNat =
        polyMod f s.ops.a.toNat t s.ops.b.toNat k :=
      toNat_ofNat_of_isPacked (isPacked_of_lt_two_pow (polyMod_lt f _ _ _ _) ((Nat.le_add_left k t).trans hslots))
    refine ⟨_, slot f (modQuotient f s.ops.b.toNat k t s.ops.a.toNat),
      exec_of_result_ok ((resultOf_pMod f s.ops).trans (if_pos hops)), ?_⟩
    rw [hy]
    refine ⟨polyMod_lt f _ _ _ _, slot_lt f _, (lt_two_pow_iff_slots f _ t).mp (modQuotient_lt f _ _ _ _), fun n => ?_⟩
    have hconv := isElement_conv (slot_lt f (modQuotient f s.ops.b.toNat k t s.ops.a.toNat)) (slot_lt f s.ops.b.toNat) n
    rw [← embed_inj (slot_lt f _ n) (Nat.xor_lt_two_pow hconv (slot_lt f _ n)), embed_xor, embed_conv_slot,
      polyMod_eq_modLoop hmonic hq hb hp, ← coeff_wordPoly, ← coeff_wordPoly, ← Polynomial.coeff_add,
      ← wordPoly_modLoop hb]
  case refused =>
    intro f s hops
    exact exec_of_result_fail ((resultOf_pMod f s.ops).trans (if_neg hops))

/-! ## The generator (20_memory.md R65) -/

/-- (x + α^1)·…·(x + α^k). -/
noncomputable def genPoly (f : Field) (k : Nat) : Closure[X] := ∏ i ∈ Finset.range k, (X + C (alpha f ^ (i + 1)))

theorem isElement_genCoeff (f : Field) (k i : Nat) : IsElement f (genCoeff f k i) := by
  induction k generalizing i with
  | zero =>
    rw [genCoeff]
    split_ifs
    · exact isElement_one f
    · exact isElement_zero f
  | succ k ih =>
    refine Nat.xor_lt_two_pow (isElement_basisMul (ih i) (isElement_alphaIter' f _)) ?_
    split_ifs
    · exact isElement_zero f
    · exact ih (i - 1)

theorem coeff_genPoly (f : Field) (k i : Nat) : (genPoly f k).coeff i = embed f (genCoeff f k i) := by
  induction k generalizing i with
  | zero => rw [genPoly, Finset.prod_range_zero, Polynomial.coeff_one, genCoeff, apply_ite (embed f), embed_one, embed_zero]
  | succ k ih =>
    rw [genCoeff, embed_xor, embed_basisMul (isElement_genCoeff f k i) (isElement_alphaIter' f _), embed_alphaIter, ← ih,
      genPoly, Finset.prod_range_succ, ← genPoly, mul_add, Polynomial.coeff_add, Polynomial.coeff_mul_C, add_comm]
    congr 1
    cases i with
    | zero => simp
    | succ i => simp [ih]

theorem natDegree_genPoly_le (f : Field) (k : Nat) : (genPoly f k).natDegree ≤ k := by
  refine (Polynomial.natDegree_prod_le _ _).trans ?_
  refine (Finset.sum_le_card_nsmul _ _ 1 fun i _ => (Polynomial.natDegree_X_add_C _).le).trans ?_
  rw [Finset.card_range, smul_eq_mul, Nat.mul_one]

theorem wordPoly_genRom {f : Field} {k : Nat} (hk : IsCount f k) : wordPoly f (genRom f k) = genPoly f k := by
  obtain ⟨hpos, hmax⟩ := id hk
  ext i
  rw [coeff_wordPoly]
  by_cases hi : i ≤ f.kmax
  · rw [slot_genRom_eq_genCoeff f k hpos hmax i hi, coeff_genPoly]
  · have hdeg := natDegree_genPoly_le f k
    rw [(lt_two_pow_iff_slots f _ _).mp (genRom_lt f k hmax hpos) i (by omega), embed_zero,
      Polynomial.coeff_eq_zero_of_natDegree_lt (by omega)]

/-- The roots of g_k are α^1 .. α^k. -/
theorem eval_genPoly_eq_zero {f : Field} {k i : Nat} (hi : 1 ≤ i) (hik : i ≤ k) : (genPoly f k).eval (alpha f ^ i) = 0 := by
  rw [genPoly, Polynomial.eval_prod]
  refine Finset.prod_eq_zero (i := i - 1) (Finset.mem_range.mpr (by omega)) ?_
  rw [Polynomial.eval_add, Polynomial.eval_X, Polynomial.eval_C, Nat.sub_add_cancel hi, CharTwo.add_self_eq_zero]

/-- Slot 0 of g_k is α^1·…·α^k. -/
theorem genCoeff_zero (f : Field) (k : Nat) : genCoeff f k 0 = alphaIter f (k * (k + 1) / 2) := by
  induction k with
  | zero => rfl
  | succ k ih =>
    have hsum : (k + 1) * (k + 1 + 1) / 2 = k * (k + 1) / 2 + (k + 1) := by
      rw [← Nat.add_mul_div_right _ _ Nat.two_pos]
      congr 1
      ring
    rw [genCoeff, if_pos rfl, Nat.xor_zero, ih, hsum,
      ← gfMul_eq_basisMul (isElement_alphaIter' f _) (isElement_alphaIter' f _), gfMul_alphaIter_alphaIter]

theorem alphaIter_ne_zero (f : Field) (i : Nat) : alphaIter f i ≠ 0 := by
  rw [ne_eq, ← embed_eq_zero_iff (isElement_alphaIter' f i), embed_alphaIter]
  exact pow_ne_zero i (alpha_ne_zero f)

theorem resultOf_genRd (f : Field) (o : OperandRegs) :
    resultOf (.genRd f) o = if IsCount f o.k.toNat then .ok (genRom f o.k.toNat) else .fail .preconditionViolated := by
  simp only [resultOf, genRdResult, Bool.not_eq_true', ← Bool.not_eq_true, isKchk_iff, ite_not]

/-- Settles O31: GEN holds the products, whose slot 0 is a product of powers of α. -/
theorem genRdReadsTheGeneratorProduct : Obligations.GenRdReadsTheGeneratorProduct := by
  refine ⟨⟨rfl, rfl⟩, ?read, ?refused⟩
  case read =>
    intro f s hk
    obtain ⟨hpos, hmax⟩ := id hk
    have hcoeff (i : Nat) (hi : i ≤ s.ops.k.toNat) :=
      slot_genRom_eq_genCoeff f s.ops.k.toNat hpos hmax i (hi.trans hmax)
    refine ⟨_, exec_of_result_ok ((resultOf_genRd f s.ops).trans (if_pos hk)), ?_⟩
    rw [toNat_ofNat_of_isPacked (isPacked_genRom hk), hcoeff 0 (Nat.zero_le _), genCoeff_zero]
    exact ⟨genRom_lt f _ hmax hpos, slot_genRom_top f _ hmax hpos, rfl, alphaIter_ne_zero f _, hcoeff⟩
  case refused =>
    intro f s hk
    exact exec_of_result_fail ((resultOf_genRd f s.ops).trans (if_neg hk))

/-! ## The encoder (42_encoder.md R230, R231) -/

theorem mul_two_pow_or_eq_xor {a b n : Nat} (hb : b < 2 ^ n) : a * 2 ^ n ||| b = a * 2 ^ n ^^^ b := by
  apply Nat.eq_of_testBit_eq
  intro i
  rw [Nat.testBit_or, Nat.testBit_xor, Nat.testBit_mul_two_pow]
  by_cases hi : n ≤ i
  · have hzero : b.testBit i = false := Nat.testBit_lt_two_pow (hb.trans_le (Nat.pow_le_pow_right Nat.two_pos hi))
    rw [hzero, Bool.or_false, Bool.xor_false]
  · rw [decide_eq_false hi, Bool.false_and, Bool.false_or, Bool.false_xor]

/-- P_MOD by g_k of a word of N_m slots, on polynomials. -/
theorem wordPoly_polyMod_genRom {f : Field} {k p : Nat} (hk : IsCount f k) (hp : p < 2 ^ (f.n * f.m)) :
    wordPoly f (polyMod f p (f.n - k) (genRom f k) k) = wordPoly f p %ₘ genPoly f k := by
  have hslots : f.n - k + k = f.n := Nat.sub_add_cancel (count_lt_n hk).le
  rw [wordPoly_polyMod (slot_genRom_top f k hk.2 hk.1) (genRom_lt f k hk.2 hk.1) (isPacked_genRom hk)
    (by rwa [hslots]), wordPoly_genRom hk]

theorem encodeWord_eq_xor (f : Field) (message k : Nat) :
    encodeWord f message k =
      shiftedMessage f message k ^^^ polyMod f (shiftedMessage f message k) (f.n - k) (genRom f k) k :=
  (encodeWord_eq f message k).trans (mul_two_pow_or_eq_xor (polyMod_lt f _ _ _ _))

theorem encodeWord_lt {f : Field} {k : Nat} (hk : IsCount f k) (message : Nat) :
    encodeWord f message k < 2 ^ (f.n * f.m) := by
  have hkn := (count_lt_n hk).le
  rw [encodeWord_eq_xor]
  exact Nat.xor_lt_two_pow (shiftedMessage_lt hkn message)
    ((polyMod_lt f _ _ _ _).trans_le (Nat.pow_le_pow_right Nat.two_pos (Nat.mul_le_mul_right f.m hkn)))

theorem isPacked_encodeWord {f : Field} {k : Nat} (hk : IsCount f k) (message : Nat) :
    IsPacked f (encodeWord f message k) :=
  isPacked_of_lt_two_pow (encodeWord_lt hk message) (n_le_slots f)

/-- The codeword is the shifted message less its own remainder. -/
theorem wordPoly_encodeWord {f : Field} {k : Nat} (hk : IsCount f k) (message : Nat) :
    wordPoly f (encodeWord f message k) =
      wordPoly f (shiftedMessage f message k) + wordPoly f (shiftedMessage f message k) %ₘ genPoly f k := by
  rw [encodeWord_eq_xor, wordPoly_xor, wordPoly_polyMod_genRom hk (shiftedMessage_lt (count_lt_n hk).le message)]

theorem wordPoly_encodeWord_modByMonic {f : Field} {k : Nat} (hk : IsCount f k) (message : Nat) :
    wordPoly f (encodeWord f message k) %ₘ genPoly f k = 0 := by
  have hmonic : (genPoly f k).Monic := Polynomial.monic_prod_of_monic _ _ fun i _ => Polynomial.monic_X_add_C _
  have hself := (Polynomial.modByMonic_eq_self_iff hmonic).mpr
    (Polynomial.degree_modByMonic_lt (wordPoly f (shiftedMessage f message k)) hmonic)
  rw [wordPoly_encodeWord hk, Polynomial.add_modByMonic, hself, CharTwo.add_self_eq_zero]

theorem polyMod_encodeWord {f : Field} {k : Nat} (hk : IsCount f k) (message : Nat) :
    polyMod f (encodeWord f message k) (f.n - k) (genRom f k) k = 0 := by
  rw [← wordPoly_eq_zero_iff (f := f), wordPoly_polyMod_genRom hk (encodeWord_lt hk message),
    wordPoly_encodeWord_modByMonic hk]

/-- The message stands in the slots from k on. -/
theorem encodeWord_div (f : Field) (message k : Nat) :
    encodeWord f message k / 2 ^ (k * f.m) = message % 2 ^ ((f.n - k) * f.m) := by
  have hlow : polyMod f (shiftedMessage f message k) (f.n - k) (genRom f k) k < 2 ^ (k * f.m) := polyMod_lt f _ _ _ _
  rw [encodeWord_eq, ← Nat.shiftRight_eq_div_pow, Nat.shiftRight_or_distrib, Nat.shiftRight_eq_div_pow,
    Nat.shiftRight_eq_div_pow, Nat.div_eq_of_lt hlow, Nat.or_zero, shiftedMessage, Nat.mul_div_cancel _ (Nat.two_pow_pos _)]

theorem exec_rsEncode {f : Field} {s : State} (hk : IsCount f s.ops.k.toNat) :
    exec (.rsEncode f) s =
      .next (completed s 0x0#4 (BitVec.ofNat 64 (encodeWord f s.ops.a.toNat s.ops.k.toNat)) 0#16) :=
  exec_of_result_ok ((resultOf_rsEncode f s.ops).trans (if_pos hk))

/-- Settles O45: a word less its remainder leaves the remainder 0. -/
theorem rsEncodeIsSystematicAndDivisible : Obligations.RsEncodeIsSystematicAndDivisible := by
  refine ⟨⟨rfl, rfl⟩, ?systematic, ?refused⟩
  case systematic =>
    intro f s hk
    have hy := toNat_ofNat_of_isPacked (isPacked_encodeWord hk s.ops.a.toNat)
    refine ⟨_, exec_rsEncode hk, ?_⟩
    rw [hy]
    refine ⟨encodeWord_lt hk _, encodeWord_div f _ _, fun u ha hsza hb hszb => ?_⟩
    have hua : u.ops.a.toNat = encodeWord f s.ops.a.toNat s.ops.k.toNat := by rw [ha, hy]
    rw [exec_pMod_genRom hk (hua ▸ encodeWord_lt hk _) hsza hb hszb, hua, polyMod_encodeWord hk]
  case refused =>
    intro f s hk
    exact exec_of_result_fail ((resultOf_rsEncode f s.ops).trans (if_neg hk))

theorem shiftedMessage_xor (f : Field) (a b k : Nat) :
    shiftedMessage f (a ^^^ b) k = shiftedMessage f a k ^^^ shiftedMessage f b k := by
  simp only [shiftedMessage, ← Nat.shiftLeft_eq, Nat.xor_mod_two_pow, Nat.shiftLeft_xor_distrib]

theorem encodeWord_xor {f : Field} {k : Nat} (hk : IsCount f k) (a b : Nat) :
    encodeWord f (a ^^^ b) k = encodeWord f a k ^^^ encodeWord f b k := by
  rw [← wordPoly_inj (f := f), wordPoly_xor, wordPoly_encodeWord hk, wordPoly_encodeWord hk, wordPoly_encodeWord hk,
    shiftedMessage_xor, wordPoly_xor, Polynomial.add_modByMonic]
  ring

/-- Settles O47: cutting, shifting and taking remainders are linear. -/
theorem rsEncodeIsLinear : Obligations.RsEncodeIsLinear := by
  intro f s a b hk
  have hencode (w : Word) : exec (.rsEncode f) { s with ops := { s.ops with a := w } } =
      .next (completed { s with ops := { s.ops with a := w } } 0x0#4
        (BitVec.ofNat 64 (encodeWord f w.toNat s.ops.k.toNat)) 0#16) :=
    exec_rsEncode (s := { s with ops := { s.ops with a := w } }) hk
  refine ⟨_, _, hencode a, hencode b, ?_⟩
  rw [hencode, BitVec.toNat_xor, encodeWord_xor hk, BitVec.ofNat_xor]

/-! ## Codewords (42_encoder.md R231, 44_decoder_pipeline.md R302) -/

/-- The syndromes are the values at α^1 .. α^k. -/
theorem syndrome_eq_zero_iff {f : Field} {k : Nat} (hk : IsCount f k) (r nr : Nat) :
    syndrome f r nr k = 0 ↔ IsCodeword f r nr k := by
  constructor
  case mp =>
    intro hzero i hpos hle
    obtain ⟨j, rfl⟩ := Nat.exists_eq_add_of_le' hpos
    rw [← slot_syndrome hk hle, hzero, slot_zero]
  case mpr =>
    intro hcode
    refine eq_of_slots f _ _ fun i => ?_
    rw [slot_zero]
    obtain hi | hi := Nat.lt_or_ge i k
    · rw [slot_syndrome hk hi, hcode (i + 1) i.succ_pos hi]
    · exact (lt_two_pow_iff_slots f _ k).mp (syndrome_lt f r nr k) i hi

theorem isCodeword_iff_eval {f : Field} {w nr k : Nat} (hw : w < 2 ^ (nr * f.m)) :
    IsCodeword f w nr k ↔ ∀ i : Nat, 1 ≤ i → i ≤ k → (wordPoly f w).eval (alpha f ^ i) = 0 := by
  refine forall_congr' fun i => ?_
  rw [valueAt_eq_zero_iff hw (isElement_alphaIter' f i), embed_alphaIter]

/-- g_k divides the codeword, so its roots are roots of the codeword. -/
theorem isCodeword_encodeWord {f : Field} {k : Nat} (hk : IsCount f k) (message : Nat) :
    IsCodeword f (encodeWord f message k) f.n k := by
  have hmonic : (genPoly f k).Monic := Polynomial.monic_prod_of_monic _ _ fun i _ => Polynomial.monic_X_add_C _
  obtain ⟨q, hq⟩ := (Polynomial.modByMonic_eq_zero_iff_dvd hmonic).mp (wordPoly_encodeWord_modByMonic hk message)
  rw [isCodeword_iff_eval (encodeWord_lt hk message)]
  intro i hpos hle
  rw [hq, Polynomial.eval_mul, eval_genPoly_eq_zero hpos hle, zero_mul]

theorem rsEncode_ok {f : Field} {s t : State} (hexec : exec (.rsEncode f) s = .next t) (hok : t.status = 0x0#4) :
    IsCount f s.ops.k.toNat ∧ t.y.toNat = encodeWord f s.ops.a.toNat s.ops.k.toNat := by
  by_cases hk : IsCount f s.ops.k.toNat
  · rw [exec_rsEncode hk] at hexec
    cases hexec
    exact ⟨hk, toNat_ofNat_of_isPacked (isPacked_encodeWord hk _)⟩
  · rw [exec_of_result_fail ((resultOf_rsEncode f s.ops).trans (if_neg hk))] at hexec
    cases hexec
    exact absurd hok (show (0x6#4 : StatusBits) ≠ 0x0#4 by decide)

theorem isReceivedSize_block (f : Field) : IsReceivedSize f (f.n * f.m) :=
  ⟨Nat.mul_mod_left _ _, Nat.le_mul_of_pos_left _ (n_pos f), le_refl _⟩

/-- Settles O46: every encoded word is a codeword over its N_m slots. -/
theorem encodedWordsHaveZeroSyndromes : Obligations.EncodedWordsHaveZeroSyndromes := by
  intro f s t u hexec hok ha hsza hk
  obtain ⟨hcount, hy⟩ := rsEncode_ok hexec hok
  have hsize : u.ops.sza.toNat = f.n * f.m := by rw [hsza, toNat_ofNat_size (le_refl _)]
  have hnr : f.n * f.m / f.m = f.n := Nat.mul_div_cancel _ (m_pos f)
  have hzero := (syndrome_eq_zero_iff hcount _ _).mpr (isCodeword_encodeWord hcount s.ops.a.toNat)
  have hresult := resultOf_rsSyndrome f u.ops
  rw [ha, hy, hsize, hk, if_pos ⟨hcount, isReceivedSize_block f, encodeWord_lt hcount _⟩, hnr, hzero] at hresult
  exact exec_of_result_okAux hresult

end Sys2Proof.Proofs
end

section
/-! Positions, masks and locator polynomials (43_decoder_stages.md R250, R252): a mask as a set of positions, the
polynomial whose roots are the reciprocals of the positions of a set, and the erasure locator as one. -/
namespace Sys2Proof.Proofs

open Sys2Proof.Machine Sys2Proof.Safety
open Polynomial (X C)
open scoped Polynomial

/-! ## Masks as sets of positions (00_scope.md R8) -/

/-- The positions below n that the mask v names. -/
def positionsBelow (v n : Nat) : Finset Nat := (Finset.range n).filter fun j => v.testBit j

@[simp] theorem mem_positionsBelow {v n j : Nat} : j ∈ positionsBelow v n ↔ j < n ∧ v.testBit j = true := by
  rw [positionsBelow, Finset.mem_filter, Finset.mem_range]

theorem positionsBelow_succ (v n : Nat) :
    positionsBelow v (n + 1) = if v.testBit n then insert n (positionsBelow v n) else positionsBelow v n := by
  rw [positionsBelow, Finset.range_add_one, Finset.filter_insert]
  rfl

theorem notMem_positionsBelow_self (v n : Nat) : n ∉ positionsBelow v n := by
  simp

theorem card_positionsBelow (v n : Nat) : (positionsBelow v n).card = onesBelow v n := by
  induction n with
  | zero => rfl
  | succ n ih =>
    rw [positionsBelow_succ, onesBelow, ← ih]
    split_ifs
    · exact Finset.card_insert_of_notMem (notMem_positionsBelow_self v n)
    · rfl

theorem popcount_toNat (v : Half) : popcount v.toNat = weight v := onesBelow_eq_length v.toNat 16

theorem lt_of_testBit {v n j : Nat} (hv : v < 2 ^ n) (hj : v.testBit j = true) : j < n := by
  by_contra hle
  have hfalse := Nat.testBit_lt_two_pow (hv.trans_le (Nat.pow_le_pow_right Nat.two_pos (Nat.le_of_not_lt hle)))
  exact absurd hj (by rw [hfalse]; decide)

/-- A mask over n positions names no other. -/
theorem positionsBelow_eq {v n l : Nat} (hv : v < 2 ^ n) (hnl : n ≤ l) : positionsBelow v l = positionsBelow v n := by
  ext j
  rw [mem_positionsBelow, mem_positionsBelow]
  exact ⟨fun h => ⟨lt_of_testBit hv h.2, h.2⟩, fun h => ⟨h.1.trans_le hnl, h.2⟩⟩

theorem n_le_sixteen (f : Field) : f.n ≤ 16 := by cases f <;> decide

/-- popcount counts the positions of a mask over the block. -/
theorem card_positions {f : Field} {v : Nat} (hv : v < 2 ^ f.n) : (positionsBelow v f.n).card = popcount v := by
  rw [← positionsBelow_eq hv (n_le_sixteen f)]
  exact card_positionsBelow v 16

/-! ## Positions and their locator roots (R250) -/

/-- X_j = α^j, the locator value of position j. -/
noncomputable def position (f : Field) (j : Nat) : Closure := alpha f ^ j

theorem position_ne_zero (f : Field) (j : Nat) : position f j ≠ 0 := pow_ne_zero j (alpha_ne_zero f)

theorem position_inj {f : Field} {i j : Nat} (hi : i < f.n) (hj : j < f.n) : position f i = position f j ↔ i = j :=
  alpha_pow_inj hi hj

theorem embed_alphaInv {f : Field} {j : Nat} (hj : j < f.n) : embed f (alphaInv f j) = (position f j)⁻¹ := by
  rw [alphaInv, alphaIter_mod_n, embed_alphaIter, position]
  refine eq_inv_of_mul_eq_one_left ?_
  rw [← pow_add, Nat.sub_add_cancel hj.le, alpha_pow_n]

theorem isElement_alphaInv (f : Field) (j : Nat) : IsElement f (alphaInv f j) := isElement_alphaIter' f _

theorem locatorRoot_eq_alphaInv (f : Field) (j : Nat) : locatorRoot f j = alphaInv f j :=
  expRom_eq_alphaIter_mod f _ (n_sub_lt_t f j)

theorem alphaInv_inj {f : Field} {i j : Nat} (hi : i < f.n) (hj : j < f.n) (h : alphaInv f i = alphaInv f j) : i = j := by
  have hinv := congrArg (embed f) h
  rw [embed_alphaInv hi, embed_alphaInv hj, inv_inj] at hinv
  exact (position_inj hi hj).mp hinv

/-! ## Locator polynomials -/

/-- The product of (1 + α^j·x) over the positions of a set. -/
noncomputable def locator (f : Field) (J : Finset Nat) : Closure[X] := ∏ j ∈ J, (1 + C (position f j) * X)

theorem eval_locator_zero (f : Field) (J : Finset Nat) : (locator f J).eval 0 = 1 := by
  simp [locator, Polynomial.eval_prod]

theorem locator_ne_zero (f : Field) (J : Finset Nat) : locator f J ≠ 0 := by
  intro h
  have hone := eval_locator_zero f J
  rw [h, Polynomial.eval_zero] at hone
  exact zero_ne_one hone

theorem locatorFactor_ne_zero (f : Field) (j : Nat) : (1 + C (position f j) * X : Closure[X]) ≠ 0 := by
  simpa [locator] using locator_ne_zero f {j}

theorem natDegree_locator (f : Field) (J : Finset Nat) : (locator f J).natDegree = J.card := by
  have hfactor (j : Nat) : (1 + C (position f j) * X : Closure[X]).natDegree = 1 := by
    rw [add_comm, ← Polynomial.C_1]
    exact Polynomial.natDegree_linear (position_ne_zero f j)
  rw [locator, Polynomial.natDegree_prod _ _ fun j _ => locatorFactor_ne_zero f j, Finset.sum_congr rfl fun j _ => hfactor j,
    Finset.sum_const, smul_eq_mul, Nat.mul_one]

/-- A factor vanishes at the reciprocal of its own position alone. -/
theorem eval_locatorFactor_eq_zero_iff {f : Field} {i j : Nat} (hi : i < f.n) (hj : j < f.n) :
    (1 + C (position f j) * X : Closure[X]).eval (position f i)⁻¹ = 0 ↔ i = j := by
  rw [Polynomial.eval_add, Polynomial.eval_one, Polynomial.eval_mul, Polynomial.eval_C, Polynomial.eval_X,
    CharTwo.add_eq_zero, eq_mul_inv_iff_mul_eq₀ (position_ne_zero f i), one_mul, position_inj hi hj]

theorem eval_locator_eq_zero_iff {f : Field} {J : Finset Nat} (hJ : ∀ j ∈ J, j < f.n) {i : Nat} (hi : i < f.n) :
    (locator f J).eval (position f i)⁻¹ = 0 ↔ i ∈ J := by
  rw [locator, Polynomial.eval_prod, Finset.prod_eq_zero_iff]
  constructor
  · rintro ⟨j, hj, hzero⟩
    rwa [(eval_locatorFactor_eq_zero_iff hi (hJ j hj)).mp hzero]
  · intro h
    exact ⟨i, h, (eval_locatorFactor_eq_zero_iff hi hi).mpr rfl⟩

/-! ## The erasure locator (R252) -/

theorem wordPoly_mul_factor {f : Field} {g i : Nat} (hg : IsPacked f g) (hi : i < f.n) :
    wordPoly f (g ^^^ (scale f g (expRom f i) <<< f.m)) = (1 + C (position f i) * X) * wordPoly f g := by
  have hshift := wordPoly_shiftLeft f (scale f g (expRom f i)) 1
  rw [Nat.one_mul, pow_one] at hshift
  rw [wordPoly_xor, hshift, wordPoly_scale hg (expRom_lt f i), expRom_eq_alphaIter f i (lt_t_of_lt_n hi), embed_alphaIter,
    position]
  ring

theorem isPacked_of_wordPoly_eq_locator {f : Field} {w : Nat} {J : Finset Nat} (h : wordPoly f w = locator f J)
    (hJ : J.card < f.slots) : IsPacked f w := by
  rw [IsPacked, ← degree_wordPoly_lt_iff, h, ← Polynomial.natDegree_lt_iff_degree_lt (locator_ne_zero f J),
    natDegree_locator]
  exact hJ

/-- While the product fits the container, the loop multiplies one factor after the other. -/
theorem wordPoly_erasureLocatorUpTo {f : Field} {em i : Nat} (hi : i ≤ f.n) (hcount : onesBelow em i < f.slots) :
    wordPoly f (erasureLocatorUpTo f em i) = locator f (positionsBelow em i) := by
  induction i with
  | zero => rw [erasureLocatorUpTo, wordPoly_one, positionsBelow, Finset.range_zero, Finset.filter_empty, locator,
      Finset.prod_empty]
  | succ i ih =>
    rw [onesBelow] at hcount
    have hprev := ih (Nat.le_of_succ_le hi) (Nat.lt_of_le_of_lt (Nat.le_add_right _ _) hcount)
    have hpacked := isPacked_of_wordPoly_eq_locator hprev
      (by rw [card_positionsBelow]; exact Nat.lt_of_le_of_lt (Nat.le_add_right _ _) hcount)
    rw [erasureLocatorUpTo, positionsBelow_succ]
    split_ifs
    · rw [wordPoly_mul_factor hpacked hi, hprev, locator, locator, Finset.prod_insert (notMem_positionsBelow_self em i)]
    · exact hprev

theorem onesBelow_n_eq_popcount {f : Field} {em : Nat} (hem : em < 2 ^ f.n) : onesBelow em f.n = popcount em := by
  rw [← card_positionsBelow, card_positions hem]

theorem wordPoly_erasureLocator {f : Field} {em : Nat} (hem : em < 2 ^ f.n) (hcount : popcount em < f.slots) :
    wordPoly f (erasureLocator f em) = locator f (positionsBelow em f.n) :=
  wordPoly_erasureLocatorUpTo (le_refl _) (by rwa [onesBelow_n_eq_popcount hem])

theorem isPacked_erasureLocator {f : Field} {em : Nat} (hem : em < 2 ^ f.n) (hcount : popcount em < f.slots) :
    IsPacked f (erasureLocator f em) :=
  isPacked_of_wordPoly_eq_locator (wordPoly_erasureLocator hem hcount) (by rwa [card_positions hem])

theorem hasDegree_erasureLocator {f : Field} {em : Nat} (hem : em < 2 ^ f.n) (hcount : popcount em < f.slots) :
    HasDegree f (erasureLocator f em) (popcount em) := by
  rw [hasDegree_iff, wordPoly_erasureLocator hem hcount, natDegree_locator, card_positions hem]
  exact ⟨locator_ne_zero f _, rfl⟩

theorem slot_zero_of_eval_zero {f : Field} {w : Nat} (h : (wordPoly f w).eval 0 = 1) : slot f w 0 = 1 := by
  rw [← Polynomial.coeff_zero_eq_eval_zero, coeff_wordPoly, ← embed_one f] at h
  exact (embed_inj (slot_lt f w 0) (isElement_one f)).mp h

theorem slot_zero_erasureLocator {f : Field} {em : Nat} (hem : em < 2 ^ f.n) (hcount : popcount em < f.slots) :
    slot f (erasureLocator f em) 0 = 1 :=
  slot_zero_of_eval_zero (by rw [wordPoly_erasureLocator hem hcount, eval_locator_zero])

theorem isElement_locatorCoeff (f : Field) (em : Half) (i n : Nat) : IsElement f (locatorCoeff f em i n) := by
  induction i generalizing n with
  | zero =>
    rw [locatorCoeff]
    split_ifs
    · exact isElement_one f
    · exact isElement_zero f
  | succ i ih =>
    rw [locatorCoeff]
    split_ifs
    · exact Nat.xor_lt_two_pow (ih n) (isElement_zero f)
    · exact Nat.xor_lt_two_pow (ih n) (isElement_basisMul (ih (n - 1)) (isElement_alphaIter' f i))
    · exact ih n

theorem coeff_locator (f : Field) (em : Half) (i n : Nat) :
    (locator f (positionsBelow em.toNat i)).coeff n = embed f (locatorCoeff f em i n) := by
  induction i generalizing n with
  | zero =>
    rw [positionsBelow, Finset.range_zero, Finset.filter_empty, locator, Finset.prod_empty, Polynomial.coeff_one,
      locatorCoeff, apply_ite (embed f), embed_one, embed_zero]
  | succ i ih =>
    rw [positionsBelow_succ, locatorCoeff, BitVec.getLsbD]
    split_ifs with hbit hn
    · rw [locator, Finset.prod_insert (notMem_positionsBelow_self _ i), ← locator, hn, Nat.xor_zero, ← ih 0]
      simp [add_mul, mul_assoc]
    · obtain ⟨l, rfl⟩ := Nat.exists_eq_succ_of_ne_zero hn
      rw [locator, Finset.prod_insert (notMem_positionsBelow_self _ i), ← locator, embed_xor,
        embed_basisMul (isElement_locatorCoeff f em i _) (isElement_alphaIter' f i), ← ih, ← ih, embed_alphaIter, add_mul,
        one_mul, Polynomial.coeff_add, mul_assoc, Polynomial.coeff_C_mul, Polynomial.coeff_X_mul, mul_comm, position,
        Nat.succ_sub_one]
    · exact ih n

/-- The two checks of RS_ERASLOC fail with the same code, and so are one. -/
theorem resultOf_rsErasloc (f : Field) (o : OperandRegs) :
    resultOf (.rsErasloc f) o = if IsMaskBelow f.n o.em.toNat ∧ weight o.em ≤ f.slots - 1 then
        .okAux (erasureLocator f o.em.toNat) (weight o.em)
      else .fail .preconditionViolated := by
  simp only [resultOf, rsEraslocResult, Bool.not_eq_true', ← Bool.not_eq_true, isMask_iff, popcount_toNat, gt_iff_lt,
    ← not_le, ite_not, ← ite_and]

theorem popcount_lt_slots {f : Field} {em : Half} (h : weight em ≤ f.slots - 1) : popcount em.toNat < f.slots := by
  have hpos := slots_pos f
  rw [popcount_toNat]
  omega

/-- Settles O49: the factors multiply up to ρ ≤ DMAX_m, so nothing leaves the container. -/
theorem rsEraslocMultipliesTheFactors : Obligations.RsEraslocMultipliesTheFactors := by
  refine ⟨⟨rfl, rfl⟩, ?accepted, ?refused⟩
  case accepted =>
    intro f s hem hweight
    have hcount := popcount_lt_slots hweight
    have hpacked := isPacked_erasureLocator hem hcount
    refine ⟨_, exec_of_result_okAux ((resultOf_rsErasloc f s.ops).trans (if_pos ⟨hem, hweight⟩)), ?_⟩
    rw [toNat_ofNat_of_isPacked hpacked]
    refine ⟨hpacked, slot_zero_erasureLocator hem hcount, ?_, fun n _ => ?_⟩
    · rw [← popcount_toNat]
      exact hasDegree_erasureLocator hem hcount
    · rw [← embed_inj (slot_lt f _ n) (isElement_locatorCoeff f _ _ n), ← coeff_wordPoly,
        wordPoly_erasureLocator hem hcount, coeff_locator]
  case refused =>
    intro f s hops
    exact exec_of_result_fail ((resultOf_rsErasloc f s.ops).trans (if_neg hops))

theorem rsErasloc_ok {f : Field} {s t : State} (hexec : exec (.rsErasloc f) s = .next t) (hok : t.status = 0x0#4) :
    IsMaskBelow f.n s.ops.em.toNat ∧ popcount s.ops.em.toNat < f.slots ∧
      t.y.toNat = erasureLocator f s.ops.em.toNat := by
  rw [(exec_next_iff _ s t).mp hexec, State.complete_status, resultOf_rsErasloc] at hok
  rw [(exec_next_iff _ s t).mp hexec, State.complete_y, resultOf_rsErasloc]
  split_ifs at hok ⊢ with hops
  · have hcount := popcount_lt_slots hops.2
    exact ⟨hops.1, hcount, toNat_ofNat_of_isPacked (isPacked_erasureLocator hops.1 hcount)⟩
  · exact absurd hok (by decide)

/-- Settles O50: a factor vanishes at the reciprocal of its own position alone. -/
theorem rsEraslocVanishesAtTheErasures : Obligations.RsEraslocVanishesAtTheErasures := by
  intro f s t hexec hok j hj
  obtain ⟨hem, hcount, hy⟩ := rsErasloc_ok hexec hok
  have hpositions : ∀ i ∈ positionsBelow s.ops.em.toNat f.n, i < f.n := fun i hi => (mem_positionsBelow.mp hi).1
  rw [hy, valueAt_eq_zero_iff (isPacked_erasureLocator hem hcount) (isElement_alphaInv f j), embed_alphaInv hj,
    wordPoly_erasureLocator hem hcount, eval_locator_eq_zero_iff hpositions hj, mem_positionsBelow]
  exact and_iff_right hj

end Sys2Proof.Proofs
end

section
/-! RS_CHIEN and RS_FORNEY (43_decoder_stages.md R260, R262): the search as a mask, bit by bit, and the correction as the
packing of one quotient per masked position. -/
namespace Sys2Proof.Proofs

open Sys2Proof.Machine Sys2Proof.Safety

/-! ## The size of a received word (30_encoding.md R103) -/

theorem div_mul_of_isReceivedSize {f : Field} {v : Nat} (hv : IsReceivedSize f v) : v / f.m * f.m = v :=
  Nat.div_mul_cancel (Nat.dvd_of_mod_eq_zero hv.1)

theorem div_le_n_of_isReceivedSize {f : Field} {v : Nat} (hv : IsReceivedSize f v) : v / f.m ≤ f.n :=
  Nat.div_le_of_le_mul (by rw [Nat.mul_comm]; exact hv.2.2)

theorem two_pow_le_sixteen {f : Field} {v : Nat} (hv : IsReceivedSize f v) : 2 ^ (v / f.m) ≤ 2 ^ 16 :=
  Nat.pow_le_pow_right Nat.two_pos ((div_le_n_of_isReceivedSize hv).trans (n_le_sixteen f))

/-! ## RS_CHIEN (R260) -/

theorem evalall_locatorRoot (f : Field) (p j : Nat) :
    evalall f p (locatorRoot f j) = valueAt f (slot f p) f.slots (alphaInv f j) := by
  rw [locatorRoot_eq_alphaInv, evalall, polyEval_eq_valueAt (isElement_alphaInv f j)]

theorem chienUpTo_lt (f : Field) (lam em tm n : Nat) : chienUpTo f lam em tm n < 2 ^ n := by
  induction n with
  | zero => exact Nat.one_pos
  | succ n ih =>
    have hlow : chienUpTo f lam em tm n < 2 ^ (n + 1) := ih.trans (Nat.pow_lt_pow_right (by decide) n.lt_succ_self)
    rw [chienUpTo]
    split_ifs
    · refine Nat.or_lt_two_pow hlow ?_
      rw [Nat.shiftLeft_eq, Nat.one_mul]
      exact Nat.pow_lt_pow_right (by decide) n.lt_succ_self
    · exact hlow

/-- The mask names the eligible positions below n at whose locator root Λ vanishes. -/
theorem testBit_chienUpTo (f : Field) (lam em tm n j : Nat) :
    (chienUpTo f lam em tm n).testBit j = true ↔
      j < n ∧ eligible em tm j = true ∧ valueAt f (slot f lam) f.slots (alphaInv f j) = 0 := by
  induction n with
  | zero => simp [chienUpTo]
  | succ n ih =>
    have hnot : (chienUpTo f lam em tm n).testBit n = false := Nat.testBit_lt_two_pow (chienUpTo_lt f lam em tm n)
    have hbit : (1 <<< n).testBit j = decide (n = j) := by rw [Nat.one_shiftLeft, Nat.testBit_two_pow]
    rw [chienUpTo, evalall_locatorRoot]
    obtain rfl | hne := eq_or_ne n j
    · split_ifs with hfound
      · simpa [hbit] using hfound
      · simpa [hnot] using hfound
    · have hlt : j < n + 1 ↔ j < n := by omega
      rw [hlt, ← ih]
      split_ifs
      · simp [hbit, hne]
      · rfl

theorem eligible_iff (em tm j : Nat) : eligible em tm j = true ↔ tm.testBit j = true ∧ em.testBit j = false := by
  rw [eligible, Bool.and_eq_true, Bool.not_eq_true']

/-- The three checks of RS_CHIEN fail with the same code, and so are one. -/
theorem resultOf_rsChien (f : Field) (o : OperandRegs) :
    resultOf (.rsChien f) o =
      if IsPacked f o.a.toNat ∧ IsReceivedSize f o.sza.toNat ∧ IsMaskBelow (o.sza.toNat / f.m) o.em.toNat ∧
          IsMaskBelow (o.sza.toNat / f.m) o.tm.toNat then
        .okAux (chienUpTo f o.a.toNat o.em.toNat o.tm.toNat (o.sza.toNat / f.m))
          (popcount (chienUpTo f o.a.toNat o.em.toNat o.tm.toNat (o.sza.toNat / f.m)))
      else .fail .preconditionViolated := by
  simp only [resultOf, rsChienResult, Bool.not_eq_true', ← Bool.not_eq_true, Bool.and_eq_true, isPoly_iff, isRsize_iff,
    isMask_iff, ite_not, ← ite_and]

/-- Settles O53: the loop sets one bit per root found, and α^{−j} determines j. -/
theorem rsChienMarksTheEligibleRoots : Obligations.RsChienMarksTheEligibleRoots := by
  refine ⟨⟨rfl, rfl⟩, ?accepted, ?refused, fun f i j => alphaInv_inj⟩
  case accepted =>
    intro f s ha hsize hem htm
    have hlt := (chienUpTo_lt f s.ops.a.toNat s.ops.em.toNat s.ops.tm.toNat (s.ops.sza.toNat / f.m)).trans_le
      (two_pow_le_sixteen hsize)
    have hresult := (resultOf_rsChien f s.ops).trans (if_pos ⟨ha, hsize, hem, htm⟩)
    set found := chienUpTo f s.ops.a.toNat s.ops.em.toNat s.ops.tm.toNat (s.ops.sza.toNat / f.m) with hfound
    have hval : (BitVec.ofNat 16 found).toNat = found := (BitVec.toNat_ofNat found 16).trans (Nat.mod_eq_of_lt hlt)
    refine ⟨BitVec.ofNat 16 found, ?_, fun j => ?_⟩
    · rw [exec_of_result_okAux hresult, ← popcount_toNat, hval, BitVec.setWidth_ofNat_of_le_of_lt (by decide) hlt]
    · rw [BitVec.getLsbD, hval, hfound, testBit_chienUpTo, eligible_iff, and_assoc]
      rfl
  case refused =>
    intro f s hops
    exact exec_of_result_fail ((resultOf_rsChien f s.ops).trans (if_neg hops))

/-! ## RS_FORNEY (R262) -/

/-- The quotient Ω(α^{−j}) / Ψ′(α^{−j}), or none. -/
def magnitude (f : Field) (omega d j : Nat) : Option Nat :=
  gfDiv f (evalall f omega (locatorRoot f j)) (evalall f d (locatorRoot f j))

theorem isElement_evalall_locatorRoot (f : Field) (p j : Nat) : IsElement f (evalall f p (locatorRoot f j)) := by
  rw [evalall_locatorRoot]
  exact isElement_valueAt (isElement_alphaInv f j) p f.slots

/-- The quotient, where there is one. -/
def magnitudeOrZero (f : Field) (omega d em j : Nat) : Nat :=
  if em.testBit j then (magnitude f omega d j).getD 0 else 0

theorem isElement_magnitudeOrZero (f : Field) (omega d em j : Nat) : IsElement f (magnitudeOrZero f omega d em j) := by
  unfold magnitudeOrZero
  split_ifs
  · cases hq : magnitude f omega d j with
    | none => exact isElement_zero f
    | some q => exact gfDiv_lt f _ _ q hq
  · exact isElement_zero f

theorem gfMul_magnitudeOrZero {f : Field} {omega d em j : Nat} (hj : em.testBit j = true)
    (hne : evalall f d (locatorRoot f j) ≠ 0) :
    gfMul f (magnitudeOrZero f omega d em j) (evalall f d (locatorRoot f j)) = evalall f omega (locatorRoot f j) := by
  obtain ⟨q, hdiv, -, hmul⟩ := exists_gfDiv_eq_some (isElement_evalall_locatorRoot f omega j)
    (isElement_evalall_locatorRoot f d j) hne
  rw [magnitudeOrZero, if_pos hj, magnitude, hdiv, Option.getD_some, hmul]

/-- With no zero denominator the loop packs the quotients. -/
theorem forneyUpTo_eq_some {f : Field} {omega d em n : Nat}
    (hne : ∀ j : Nat, em.testBit j = true → evalall f d (locatorRoot f j) ≠ 0) :
    forneyUpTo f omega d em n = some (packUpTo f (magnitudeOrZero f omega d em) n) := by
  induction n with
  | zero => rfl
  | succ n ih =>
    have hlt : packUpTo f (magnitudeOrZero f omega d em) n < 2 ^ (n * f.m) :=
      Nat.mul_comm f.m n ▸ packUpTo_lt f _ (isElement_magnitudeOrZero f omega d em) n
    rw [forneyUpTo, ih, packUpTo, magnitudeOrZero, Nat.mul_comm f.m n]
    split_ifs with hn
    · obtain ⟨q, hdiv, -⟩ := exists_gfDiv_eq_some (isElement_evalall_locatorRoot f omega n)
        (isElement_evalall_locatorRoot f d n) (hne n hn)
      simp only [hdiv, magnitude, Option.map_some, Option.getD_some]
      rw [Nat.or_comm, ← Nat.shiftLeft_add_eq_or_of_lt hlt, Nat.add_comm]
    · rw [Nat.zero_shiftLeft, Nat.add_zero]

/-- One zero denominator ends the loop. -/
theorem forneyUpTo_eq_none {f : Field} {omega d em n j : Nat} (hj : em.testBit j = true)
    (hzero : evalall f d (locatorRoot f j) = 0) (hn : j < n) : forneyUpTo f omega d em n = none := by
  induction n, hn using Nat.le_induction with
  | base =>
    rw [forneyUpTo]
    split
    · rfl
    · rw [if_pos hj, hzero, gfDiv_zero_right, Option.map_none]
  | succ n _ ih => rw [forneyUpTo, ih]

/-- The packed correction E(x). -/
def correction (f : Field) (s psi k em : Nat) : Nat :=
  packUpTo f (magnitudeOrZero f (errataEvaluator f s psi k) (polyDeriv f psi) em) f.n

theorem forney_eq_some {f : Field} {s psi k em : Nat}
    (hne : ∀ j : Nat, em.testBit j = true → evalall f (polyDeriv f psi) (locatorRoot f j) ≠ 0) :
    forney f s psi k em = some (correction f s psi k em) :=
  forneyUpTo_eq_some hne

theorem slot_correction {f : Field} {s psi k em : Nat} (hem : em < 2 ^ f.n) (j : Nat) :
    slot f (correction f s psi k em) j = magnitudeOrZero f (errataEvaluator f s psi k) (polyDeriv f psi) em j := by
  rw [correction, slot_packUpTo f _ (isElement_magnitudeOrZero f _ _ em)]
  split_ifs with hj
  · rfl
  · rw [magnitudeOrZero, if_neg]
    exact fun h => hj (lt_of_testBit hem h)

theorem slot_correction_of_not_testBit {f : Field} {s psi k em j : Nat} (hem : em < 2 ^ f.n)
    (hj : ¬em.testBit j = true) : slot f (correction f s psi k em) j = 0 := by
  rw [slot_correction hem, magnitudeOrZero, if_neg hj]

theorem valueAt_congr {f : Field} {p q : Nat → Nat} {t : Nat} (h : ∀ i : Nat, i < t → p i = q i) (x : Nat) :
    valueAt f p t x = valueAt f q t x :=
  xorUpTo_congr fun i hi => by rw [h i hi]

theorem evalall_polyDeriv (f : Field) (p j : Nat) :
    evalall f (polyDeriv f p) (locatorRoot f j) = valueAt f (derivative f (slot f p)) f.slots (alphaInv f j) := by
  rw [evalall_locatorRoot]
  exact valueAt_congr (fun i hi => (slot_polyDeriv f p i).trans (if_pos hi)) _

theorem evalall_errataEvaluator {f : Field} {k : Nat} (hk : IsCount f k) (s psi j : Nat) :
    evalall f (errataEvaluator f s psi k) (locatorRoot f j) =
      valueAt f (evaluator f (slot f s) (slot f psi) k) f.slots (alphaInv f j) := by
  rw [evalall_locatorRoot]
  refine valueAt_congr (fun i _ => ?_) _
  rw [evaluator]
  split_ifs with hi
  · exact slot_errataEvaluator hk hi s psi
  · exact (lt_two_pow_iff_slots f _ k).mp (errataEvaluator_lt f s psi k) i (Nat.le_of_not_lt hi)

/-- The four checks of RS_FORNEY fail with the same code, and so are one. -/
theorem resultOf_rsForney (f : Field) (o : OperandRegs) :
    resultOf (.rsForney f) o =
      if IsCount f o.k.toNat ∧ IsPacked f o.a.toNat ∧ IsPacked f o.b.toNat ∧ IsReceivedSize f o.sza.toNat ∧
          IsMaskBelow (o.sza.toNat / f.m) o.em.toNat then
        (forney f o.a.toNat o.b.toNat o.k.toNat o.em.toNat).elim (.fail .divisionByZero) .ok
      else .fail .preconditionViolated := by
  simp only [resultOf, rsForneyResult, Bool.not_eq_true', ← Bool.not_eq_true, Bool.and_eq_true, isKchk_iff, isPoly_iff,
    isRsize_iff, isMask_iff, ite_not, ← ite_and]
  refine if_congr (by simp only [and_assoc]) ?_ rfl
  cases forney f o.a.toNat o.b.toNat o.k.toNat o.em.toNat <;> rfl

theorem lt_two_pow_n_of_isMaskBelow {f : Field} {size em : Nat} (hsize : IsReceivedSize f size)
    (hem : IsMaskBelow (size / f.m) em) : em < 2 ^ f.n :=
  hem.trans_le (Nat.pow_le_pow_right Nat.two_pos (div_le_n_of_isReceivedSize hsize))

/-- The correction has nothing outside the received word. -/
theorem correction_lt {f : Field} {s psi k em size : Nat} (hsize : IsReceivedSize f size)
    (hem : IsMaskBelow (size / f.m) em) : correction f s psi k em < 2 ^ size := by
  rw [← div_mul_of_isReceivedSize hsize, lt_two_pow_iff_slots]
  exact fun j hj => slot_correction_of_not_testBit (lt_two_pow_n_of_isMaskBelow hsize hem)
    fun h => absurd (lt_of_testBit hem h) (Nat.not_lt.mpr hj)

theorem two_pow_size_le {f : Field} {size : Nat} (hsize : IsReceivedSize f size) : 2 ^ size ≤ 2 ^ (f.slots * f.m) :=
  Nat.pow_le_pow_right Nat.two_pos (hsize.2.2.trans (Nat.mul_le_mul_right f.m (n_le_slots f)))

/-- Settles O54: the loop answers the packed quotients, unless a denominator is 0. -/
theorem rsForneyDividesAtTheMaskedPositions : Obligations.RsForneyDividesAtTheMaskedPositions := by
  refine ⟨⟨rfl, rfl⟩, ?quotients, ?zero, ?refused⟩
  case quotients =>
    intro f s hk ha hb hsize hem hne
    have hden : ∀ j : Nat, s.ops.em.toNat.testBit j = true →
        evalall f (polyDeriv f s.ops.b.toNat) (locatorRoot f j) ≠ 0 := fun j hj => by
      rw [evalall_polyDeriv]
      exact hne j hj
    have hmask := lt_two_pow_n_of_isMaskBelow hsize hem
    have hlt : correction f s.ops.a.toNat s.ops.b.toNat s.ops.k.toNat s.ops.em.toNat < 2 ^ s.ops.sza.toNat :=
      correction_lt hsize hem
    refine ⟨BitVec.ofNat 64 (correction f s.ops.a.toNat s.ops.b.toNat s.ops.k.toNat s.ops.em.toNat),
      exec_of_result_ok ?_, ?_⟩
    · rw [resultOf_rsForney, if_pos ⟨hk, ha, hb, hsize, hem⟩, forney_eq_some hden, Option.elim_some]
    · rw [toNat_ofNat_of_isPacked (hlt.trans_le (two_pow_size_le hsize))]
      refine ⟨hlt, fun j _ => ?_⟩
      split_ifs with hj
      · rw [slot_correction hmask, ← evalall_polyDeriv, ← evalall_errataEvaluator hk,
          ← gfMul_eq_basisMul (isElement_magnitudeOrZero f _ _ _ j) (isElement_evalall_locatorRoot f _ j),
          gfMul_magnitudeOrZero hj (hden j hj)]
      · exact slot_correction_of_not_testBit hmask hj
  case zero =>
    rintro f s hk ha hb hsize hem ⟨j, hj, hzero⟩
    rw [← evalall_polyDeriv] at hzero
    have hjn : j < f.n := lt_of_testBit (lt_two_pow_n_of_isMaskBelow hsize hem) hj
    refine exec_of_result_fail (c := .divisionByZero) ?_
    rw [resultOf_rsForney, if_pos ⟨hk, ha, hb, hsize, hem⟩, forney, forneyUpTo_eq_none hj hzero hjn, Option.elim_none]
  case refused =>
    intro f s hops
    exact exec_of_result_fail ((resultOf_rsForney f s.ops).trans (if_neg hops))

end Sys2Proof.Proofs
end

section
/-! RS_BM (43_decoder_stages.md R256): the recursion keeps a shortest recurrence of the terms seen so far (Massey's
theorem), with a polynomial S whose coefficients are the sequence. -/
namespace Sys2Proof.Proofs

open Sys2Proof.Machine Sys2Proof.Safety
open Polynomial (X C)
open scoped Polynomial

/-! ## Recurrences as vanishing coefficients -/

/-- A coefficient of a product, as the terms that a factor of degree at most l ≤ n contributes. -/
theorem coeff_mul_eq_sum {P S : Closure[X]} {l n : Nat} (hP : P.natDegree ≤ l) (hln : l ≤ n) :
    (P * S).coeff n =
      P.coeff 0 * S.coeff n + ∑ i ∈ Finset.range l, P.coeff (i + 1) * S.coeff (n - (i + 1)) := by
  rw [Polynomial.coeff_mul, Finset.Nat.sum_antidiagonal_eq_sum_range_succ_mk, Finset.sum_range_succ', Nat.sub_zero,
    add_comm]
  congr 1
  refine (Finset.sum_subset (Finset.range_mono hln) fun i _ hi => ?_).symm
  rw [Finset.mem_range, not_lt] at hi
  rw [Polynomial.coeff_eq_zero_of_natDegree_lt (by omega), zero_mul]

/-- P is the connection polynomial of a recurrence of length l that holds for the terms of S below n. -/
structure Connects (S : Closure[X]) (n : Nat) (P : Closure[X]) (l : Nat) : Prop where
  coeff_zero : P.coeff 0 = 1
  natDegree_le : P.natDegree ≤ l
  vanishes : ∀ i : Nat, l ≤ i → i < n → (P * S).coeff i = 0

theorem Connects.mono {S P : Closure[X]} {n n' l : Nat} (h : Connects S n' P l) (hn : n ≤ n') : Connects S n P l :=
  ⟨h.coeff_zero, h.natDegree_le, fun i hi hin => h.vanishes i hi (hin.trans_le hn)⟩

/-- The product of a connecting P with a polynomial that vanishes over l coefficients below n keeps its coefficient n. -/
theorem coeff_mul_of_vanishing {P Q : Closure[X]} {l n : Nat} (hzero : P.coeff 0 = 1) (hdeg : P.natDegree ≤ l) (hln : l ≤ n)
    (hQ : ∀ i : Nat, n - l ≤ i → i < n → Q.coeff i = 0) : (P * Q).coeff n = Q.coeff n := by
  rw [coeff_mul_eq_sum hdeg hln, hzero, one_mul, add_eq_left]
  refine Finset.sum_eq_zero fun i hi => ?_
  rw [Finset.mem_range] at hi
  rw [hQ (n - (i + 1)) (by omega) (by omega), mul_zero]

/-- Massey's bound: when a recurrence of length l fails at term n, one that holds there is at least n + 1 − l long. -/
theorem le_add_of_connects {S P Q : Closure[X]} {n l l' : Nat} (hP : Connects S n P l) (hfails : (P * S).coeff n ≠ 0)
    (hQ : Connects S (n + 1) Q l') : n + 1 ≤ l' + l := by
  by_contra hlt
  have hviaP : (Q * (P * S)).coeff n = (P * S).coeff n :=
    coeff_mul_of_vanishing hQ.coeff_zero hQ.natDegree_le (by omega) fun i hi hin => hP.vanishes i (by omega) hin
  have hviaQ : (P * (Q * S)).coeff n = (Q * S).coeff n :=
    coeff_mul_of_vanishing hP.coeff_zero hP.natDegree_le (by omega) fun i hi hin =>
      hQ.vanishes i (by omega) (hin.trans n.lt_succ_self)
  rw [mul_left_comm, hviaP, hQ.vanishes n (by omega) n.lt_succ_self] at hviaQ
  exact hfails hviaQ

/-! ## The registers of the recursion -/

/-- The older polynomial, moved up to where its failure stands at the coming term. -/
noncomputable def shiftedBp (f : Field) (r : BmRegs) : Closure[X] := wordPoly f r.bp * X ^ (r.dm + 1)

/-- What the registers hold after n terms: C connects them with the shortest length L, and the older polynomial, moved up,
vanishes wherever an update of C must not disturb it and has the coefficient b at the coming term. -/
structure BmInv (f : Field) (S : Closure[X]) (n : Nat) (r : BmRegs) : Prop where
  len_le : r.len ≤ n
  connects : Connects S n (wordPoly f r.c) r.len
  shortest : ∀ (P : Closure[X]) (l : Nat), Connects S n P l → r.len ≤ l
  natDegree_bp : (wordPoly f r.bp).natDegree + r.dm + r.len ≤ n
  vanishes_bp : ∀ i : Nat, n + 1 ≤ i + r.len → i < n → (shiftedBp f r * S).coeff i = 0
  coeff_bp : 0 < r.len → (shiftedBp f r * S).coeff n = embed f r.b
  isElement_b : IsElement f r.b
  b_ne_zero : r.b ≠ 0

theorem coeff_mul_X_pow_succ_mul (P S : Closure[X]) (d i : Nat) :
    (P * X ^ (d + 1) * S).coeff (i + 1) = (P * X ^ d * S).coeff i := by
  rw [pow_succ, ← mul_assoc, mul_right_comm, Polynomial.coeff_mul_X]

theorem bmInv_init (f : Field) (S : Closure[X]) : BmInv f S 0 bmInit where
  len_le := le_refl 0
  connects := ⟨by simp [bmInit], by simp [bmInit], fun i _ hi => absurd hi (Nat.not_lt_zero i)⟩
  shortest := fun _ l _ => Nat.zero_le l
  natDegree_bp := by simp [bmInit]
  vanishes_bp := fun i _ hi => absurd hi (Nat.not_lt_zero i)
  coeff_bp := fun h => absurd h (lt_irrefl 0)
  isElement_b := isElement_one f
  b_ne_zero := one_ne_zero

theorem isPacked_of_natDegree_lt {f : Field} {w : Nat} (h : (wordPoly f w).natDegree < f.slots) : IsPacked f w := by
  rw [IsPacked, ← degree_wordPoly_lt_iff]
  exact Polynomial.degree_le_natDegree.trans_lt (Nat.cast_lt.mpr h)

section
variable {f : Field} {S : Closure[X]} {s : Nat → Nat} {n : Nat} {r : BmRegs}

/-- The discrepancy is the coefficient at which C fails. -/
theorem embed_discrepancy (hs : ∀ i, IsElement f (s i)) (hS : ∀ i, S.coeff i = embed f (s i)) (hr : BmInv f S n r) :
    embed f (discrepancy f s n r.c r.len) = (wordPoly f r.c * S).coeff n := by
  rw [coeff_mul_eq_sum hr.connects.natDegree_le hr.len_le, hr.connects.coeff_zero, one_mul, discrepancy, embed_xor,
    embed_xorUpTo, hS]
  congr 1
  refine Finset.sum_congr rfl fun i _ => ?_
  rw [embed_gfMul (slot_lt f _ _) (hs _), coeff_wordPoly, hS]

theorem isElement_discrepancy (hs : ∀ i, IsElement f (s i)) (c len : Nat) : IsElement f (discrepancy f s n c len) :=
  Nat.xor_lt_two_pow (hs n) (xorUpTo_lt _ _ _ fun _ => gfMul_lt f _ _)

/-- The update adds the older polynomial, scaled so that it cancels the discrepancy d. -/
theorem wordPoly_bmUpdate (hr : BmInv f S n r) (hn : n < f.slots) {d : Nat} (hd : IsElement f d) :
    wordPoly f (bmUpdate f r (r.dm + 1) d) = wordPoly f r.c + C (embed f d / embed f r.b) * shiftedBp f r := by
  obtain ⟨q, hdiv, hq, -⟩ := exists_gfDiv_eq_some hd hr.isElement_b hr.b_ne_zero
  have hbp : IsPacked f r.bp := by
    have hdeg := hr.natDegree_bp
    exact isPacked_of_natDegree_lt (by omega)
  rw [bmUpdate, hdiv, ← embed_gfDiv hd hr.isElement_b hr.b_ne_zero hdiv]
  change wordPoly f (r.c ^^^ (scale f r.bp q <<< ((r.dm + 1) * f.m))) = _
  rw [wordPoly_xor, wordPoly_shiftLeft, wordPoly_scale hbp hq, shiftedBp, mul_assoc]

theorem natDegree_shiftedBp_le (hr : BmInv f S n r) : (shiftedBp f r).natDegree ≤ n + 1 - r.len := by
  have hdeg := hr.natDegree_bp
  refine Polynomial.natDegree_mul_le.trans ?_
  rw [Polynomial.natDegree_X_pow]
  omega

/-- The updated polynomial connects one term more, at any length that leaves room for both its parts. -/
theorem connects_bmUpdate (hs : ∀ i, IsElement f (s i)) (hS : ∀ i, S.coeff i = embed f (s i)) (hr : BmInv f S n r)
    (hn : n < f.slots) {l : Nat} (hlen : r.len ≤ l) (hroom : n + 1 ≤ l + r.len) :
    Connects S (n + 1) (wordPoly f (bmUpdate f r (r.dm + 1) (discrepancy f s n r.c r.len))) l := by
  rw [wordPoly_bmUpdate hr hn (isElement_discrepancy hs r.c r.len), embed_discrepancy hs hS hr]
  refine ⟨?_, ?_, fun i hi hin => ?_⟩
  · rw [Polynomial.coeff_add, hr.connects.coeff_zero, Polynomial.coeff_C_mul, shiftedBp, pow_succ, ← mul_assoc,
      Polynomial.coeff_mul_X_zero, mul_zero, add_zero]
  · refine Polynomial.natDegree_add_le_of_degree_le (hr.connects.natDegree_le.trans hlen) ?_
    refine (Polynomial.natDegree_C_mul_le _ _).trans ((natDegree_shiftedBp_le hr).trans ?_)
    omega
  · rw [add_mul, Polynomial.coeff_add, mul_assoc, Polynomial.coeff_C_mul]
    obtain hlt | rfl := Nat.lt_succ_iff_lt_or_eq.mp hin
    · rw [hr.connects.vanishes i (hlen.trans hi) hlt, hr.vanishes_bp i (by omega) hlt, mul_zero, add_zero]
    · have hb : embed f r.b ≠ 0 := (embed_eq_zero_iff hr.isElement_b).not.mpr hr.b_ne_zero
      rw [hr.coeff_bp (by omega), div_mul_cancel₀ _ hb, CharTwo.add_self_eq_zero]

/-- Where C stays connected or is updated at its length, the older polynomial moves up one more place. -/
theorem bmInv_of_same_length (hr : BmInv f S n r) {c : Nat} (hc : Connects S (n + 1) (wordPoly f c) r.len) :
    BmInv f S (n + 1) { r with c := c, dm := r.dm + 1 } where
  len_le := hr.len_le.trans n.le_succ
  connects := hc
  shortest := fun P l hP => hr.shortest P l (hP.mono n.le_succ)
  natDegree_bp := by
    have hdeg := hr.natDegree_bp
    change (wordPoly f r.bp).natDegree + (r.dm + 1) + r.len ≤ n + 1
    omega
  vanishes_bp := fun i hi hin => by
    have hlen := hr.len_le
    change n + 1 + 1 ≤ i + r.len at hi
    obtain ⟨j, rfl⟩ : ∃ j, i = j + 1 := Nat.exists_eq_add_of_le' (by omega)
    exact (coeff_mul_X_pow_succ_mul _ _ _ _).trans (hr.vanishes_bp j (by omega) (by omega))
  coeff_bp := fun hpos => (coeff_mul_X_pow_succ_mul _ _ _ _).trans (hr.coeff_bp hpos)
  isElement_b := hr.isElement_b
  b_ne_zero := hr.b_ne_zero

/-- Where the length must grow, C itself becomes the older polynomial. -/
theorem bmInv_of_longer (hs : ∀ i, IsElement f (s i)) (hS : ∀ i, S.coeff i = embed f (s i)) (hr : BmInv f S n r)
    (hd : discrepancy f s n r.c r.len ≠ 0) {c : Nat} (hc : Connects S (n + 1) (wordPoly f c) (n + 1 - r.len)) :
    BmInv f S (n + 1) ⟨c, r.c, n + 1 - r.len, discrepancy f s n r.c r.len, 0⟩ := by
  have hcoeff := embed_discrepancy hs hS hr
  have helement : IsElement f (discrepancy f s n r.c r.len) := isElement_discrepancy hs r.c r.len
  have hshift (i : Nat) : (wordPoly f r.c * X ^ (0 + 1) * S).coeff (i + 1) = (wordPoly f r.c * S).coeff i := by
    rw [coeff_mul_X_pow_succ_mul, pow_zero, mul_one]
  have hlen := hr.len_le
  refine ⟨Nat.sub_le _ _, hc, fun P l hP => ?_, ?_, fun i hi hin => ?_, fun _ => (hshift n).trans hcoeff.symm, helement, hd⟩
  · have hfails : (wordPoly f r.c * S).coeff n ≠ 0 := by
      rw [← hcoeff]
      exact (embed_eq_zero_iff helement).not.mpr hd
    have hbound := le_add_of_connects hr.connects hfails hP
    change n + 1 - r.len ≤ l
    omega
  · have hdeg := hr.connects.natDegree_le
    change (wordPoly f r.c).natDegree + 0 + (n + 1 - r.len) ≤ n + 1
    omega
  · change n + 1 + 1 ≤ i + (n + 1 - r.len) at hi
    obtain ⟨j, rfl⟩ : ∃ j, i = j + 1 := Nat.exists_eq_add_of_le' (by omega)
    exact (hshift j).trans (hr.connects.vanishes j (by omega) (by omega))

/-- One step of the recursion, by its three branches (R256, conflict C10). -/
theorem bmInv_step (hs : ∀ i, IsElement f (s i)) (hS : ∀ i, S.coeff i = embed f (s i)) (hr : BmInv f S n r)
    (hn : n < f.slots) : BmInv f S (n + 1) (bmStep f s n r) := by
  have hlen := hr.len_le
  unfold bmStep
  simp only
  split_ifs with hzero hshort
  · refine bmInv_of_same_length hr ⟨hr.connects.coeff_zero, hr.connects.natDegree_le, fun i hi hin => ?_⟩
    obtain hlt | rfl := Nat.lt_succ_iff_lt_or_eq.mp hin
    · exact hr.connects.vanishes i hi hlt
    · rw [← embed_discrepancy hs hS hr, hzero, embed_zero]
  · exact bmInv_of_longer hs hS hr hzero (connects_bmUpdate hs hS hr hn (by omega) (by omega))
  · exact bmInv_of_same_length hr (connects_bmUpdate hs hS hr hn (le_refl _) (by omega))

theorem bmInv_bmAfter (hs : ∀ i, IsElement f (s i)) (hS : ∀ i, S.coeff i = embed f (s i)) (hn : n ≤ f.slots) :
    BmInv f S n (bmAfter f s n) := by
  induction n with
  | zero => exact bmInv_init f S
  | succ n ih => exact bmInv_step hs hS (ih (Nat.le_of_succ_le hn)) hn

end

/-! ## The command -/

/-- The polynomial of the sequence that RS_BM runs over: slots ρ on, moved down. -/
noncomputable def sequencePoly (f : Field) (t rho : Nat) : Closure[X] := wordPoly f (t >>> (f.m * rho))

theorem slot_shiftRight (f : Field) (t rho i : Nat) : slot f (t >>> (f.m * rho)) i = slot f t (rho + i) := by
  rw [slot, slot, ← Nat.shiftRight_add, ← Nat.mul_add]

theorem coeff_sequencePoly (f : Field) (t rho i : Nat) :
    (sequencePoly f t rho).coeff i = embed f (slot f t (rho + i)) := by
  rw [sequencePoly, coeff_wordPoly, slot_shiftRight]

theorem bmInv_bmRun {f : Field} {k : Nat} (hk : IsCount f k) (t rho : Nat) :
    BmInv f (sequencePoly f t rho) (k - rho) (bmRun f t k rho) :=
  bmInv_bmAfter (fun i => slot_lt f t (rho + i)) (coeff_sequencePoly f t rho)
    ((Nat.sub_le k rho).trans (count_lt_slots hk).le)

theorem len_bmRun_le {f : Field} {k : Nat} (hk : IsCount f k) (t rho : Nat) : (bmRun f t k rho).len ≤ k - rho :=
  (bmInv_bmRun hk t rho).len_le

theorem isPacked_bmRun {f : Field} {k : Nat} (hk : IsCount f k) (t rho : Nat) : IsPacked f (bmRun f t k rho).c := by
  have hr := bmInv_bmRun hk t rho
  have hdeg := hr.connects.natDegree_le
  have hlen := hr.len_le
  have hslots := count_lt_slots hk
  exact isPacked_of_natDegree_lt (by omega)

theorem slot_zero_bmRun {f : Field} {k : Nat} (hk : IsCount f k) (t rho : Nat) :
    slot f (bmRun f t k rho).c 0 = 1 := by
  refine slot_zero_of_eval_zero ?_
  rw [← Polynomial.coeff_zero_eq_eval_zero, (bmInv_bmRun hk t rho).connects.coeff_zero]

/-- The coefficient of a product with the sequence vanishes exactly where the recurrence gives the term. -/
theorem coeff_mul_sequencePoly_eq_zero_iff {f : Field} {P : Closure[X]} {c : Nat → Nat} {l n : Nat}
    (hc : ∀ i, IsElement f (c i)) (hcoeff : ∀ i, i < l → P.coeff (i + 1) = embed f (c (i + 1))) (hzero : P.coeff 0 = 1)
    (hdeg : P.natDegree ≤ l) (hln : l ≤ n) (t rho : Nat) :
    (P * sequencePoly f t rho).coeff n = 0 ↔
      slot f t (rho + n) = xorUpTo (fun i => basisMul f (c (i + 1)) (slot f t (rho + (n - (i + 1))))) l := by
  have hsum : ∑ i ∈ Finset.range l, P.coeff (i + 1) * (sequencePoly f t rho).coeff (n - (i + 1)) =
      embed f (xorUpTo (fun i => basisMul f (c (i + 1)) (slot f t (rho + (n - (i + 1))))) l) := by
    rw [embed_xorUpTo]
    refine Finset.sum_congr rfl fun i hi => ?_
    rw [embed_basisMul (hc _) (slot_lt f t _), hcoeff i (Finset.mem_range.mp hi), coeff_sequencePoly]
  rw [coeff_mul_eq_sum hdeg hln, hzero, one_mul, hsum, coeff_sequencePoly, CharTwo.add_eq_zero]
  exact embed_inj (slot_lt f t _) (xorUpTo_lt _ _ _ fun i => isElement_basisMul (hc _) (slot_lt f t _))

/-- No elements at all give a recurrence shorter than L. -/
theorem exists_ne_of_shorter {f : Field} {k : Nat} (hk : IsCount f k) (t rho : Nat) {c : Nat → Nat} {l : Nat}
    (hc : ∀ i, IsElement f (c i)) (hl : l < (bmRun f t k rho).len) :
    ∃ n : Nat, l ≤ n ∧ n < k - rho ∧
      slot f t (rho + n) ≠ xorUpTo (fun i => basisMul f (c (i + 1)) (slot f t (rho + (n - (i + 1))))) l := by
  by_contra hall
  push Not at hall
  have hone (i : Nat) : IsElement f (oneAtZero c i) := by
    unfold oneAtZero
    split_ifs
    · exact isElement_one f
    · exact hc i
  have hcoeff (i : Nat) : (wordPoly f (packUpTo f (oneAtZero c) (l + 1))).coeff i =
      if i < l + 1 then embed f (oneAtZero c i) else 0 := by
    rw [coeff_wordPoly, slot_packUpTo f _ hone, apply_ite (embed f), embed_zero]
  have hzero : (wordPoly f (packUpTo f (oneAtZero c) (l + 1))).coeff 0 = 1 := by
    rw [hcoeff, if_pos l.succ_pos, oneAtZero, if_pos rfl, embed_one]
  have hdeg : (wordPoly f (packUpTo f (oneAtZero c) (l + 1))).natDegree ≤ l :=
    Nat.le_of_lt_succ (natDegree_wordPoly_lt (Nat.mul_comm f.m (l + 1) ▸ packUpTo_lt f _ hone (l + 1)) l.succ_pos)
  have hconnects : Connects (sequencePoly f t rho) (k - rho) (wordPoly f (packUpTo f (oneAtZero c) (l + 1))) l := by
    refine ⟨hzero, hdeg, fun n hn hnk => (coeff_mul_sequencePoly_eq_zero_iff hc (fun i hi => ?_) hzero hdeg hn t rho).mpr
      (hall n hn hnk)⟩
    rw [hcoeff, if_pos (Nat.succ_lt_succ hi), oneAtZero, if_neg i.succ_ne_zero]
  exact absurd ((bmInv_bmRun hk t rho).shortest _ l hconnects) (Nat.not_le.mpr hl)

/-- The three checks of RS_BM fail with the same code, and so are one. -/
theorem resultOf_rsBm (f : Field) (o : OperandRegs) :
    resultOf (.rsBm f) o =
      if IsCount f o.k.toNat ∧ IsPacked f o.a.toNat ∧ IsMaskBelow f.n o.em.toNat ∧ weight o.em ≤ o.k.toNat then
        .okAux (bmRun f o.a.toNat o.k.toNat (weight o.em)).c
          (bmAux (bmRun f o.a.toNat o.k.toNat (weight o.em)).len
            ((deg f (bmRun f o.a.toNat o.k.toNat (weight o.em)).c).getD 0))
      else .fail .preconditionViolated := by
  simp only [resultOf, rsBmResult, Bool.not_eq_true', ← Bool.not_eq_true, Bool.and_eq_true, isKchk_iff, isPoly_iff,
    isMask_iff, popcount_toNat, gt_iff_lt, ← not_le, ite_not, ← ite_and]
  exact if_congr (by simp only [and_assoc]) rfl rfl

theorem bmAux_eq {len d : Nat} (hlen : len < 256) (hd : d < 256) : bmAux len d = len + 256 * d := by
  rw [bmAux, Nat.mod_eq_of_lt (show len < 2 ^ 8 from hlen), Nat.mod_eq_of_lt (show d < 2 ^ 8 from hd),
    ← Nat.shiftLeft_add_eq_or_of_lt (show len < 2 ^ 8 from hlen), Nat.shiftLeft_eq]
  omega

theorem slots_lt_256 (f : Field) : f.slots < 256 := by cases f <;> decide

/-- C is not 0, so the scan finds its degree, which is at most L. -/
theorem exists_deg_bmRun {f : Field} {k : Nat} (hk : IsCount f k) (t rho : Nat) :
    ∃ d : Nat, deg f (bmRun f t k rho).c = some d ∧ d < f.slots ∧ HasDegree f (bmRun f t k rho).c d ∧
      d ≤ (bmRun f t k rho).len := by
  have hne : (bmRun f t k rho).c ≠ 0 := by
    intro h
    have hone := slot_zero_bmRun hk t rho
    rw [h, slot_zero] at hone
    exact zero_ne_one hone
  obtain ⟨d, hdeg, hlt, hhas⟩ := exists_deg_eq_some (isPacked_bmRun hk t rho) hne
  refine ⟨d, hdeg, hlt, hhas, ?_⟩
  rw [← (hasDegree_iff.mp hhas).2]
  exact (bmInv_bmRun hk t rho).connects.natDegree_le

/-- Settles O52: the invariant of the recursion after the last term. -/
theorem rsBmGivesARecurrenceOfTheSequence : Obligations.RsBmGivesARecurrenceOfTheSequence := by
  refine ⟨⟨rfl, rfl⟩, ?recurrence, ?refused⟩
  case recurrence =>
    intro f s hk ha hem hweight
    have hr := bmInv_bmRun hk s.ops.a.toNat (weight s.ops.em)
    have hpacked := isPacked_bmRun hk s.ops.a.toNat (weight s.ops.em)
    have hresult := (resultOf_rsBm f s.ops).trans (if_pos ⟨hk, ha, hem, hweight⟩)
    obtain ⟨d, hdeg, hd, hhas, hdlen⟩ := exists_deg_bmRun hk s.ops.a.toNat (weight s.ops.em)
    have hslots := count_lt_slots hk
    have h256 := slots_lt_256 f
    have hlen := hr.len_le
    rw [hdeg, Option.getD_some, bmAux_eq (by omega) (by omega)] at hresult
    refine ⟨_, _, d, exec_of_result_okAux hresult, ?_⟩
    rw [toNat_ofNat_of_isPacked hpacked]
    refine ⟨hpacked, slot_zero_bmRun hk _ _, hhas, hdlen, hlen, fun n hn hnk => ?_, fun c l => exists_ne_of_shorter hk _ _⟩
    exact (coeff_mul_sequencePoly_eq_zero_iff (slot_lt f _) (fun i _ => coeff_wordPoly f _ _) hr.connects.coeff_zero
      hr.connects.natDegree_le hn _ _).mp (hr.connects.vanishes n hn hnk)
  case refused =>
    intro f s hops
    exact exec_of_result_fail ((resultOf_rsBm f s.ops).trans (if_neg hops))

end Sys2Proof.Proofs
end

section
/-! The algebra of errata (43_decoder_stages.md R257, R262, 44_decoder_pipeline.md R303 to R306): power sums over a set of
positions against the locator of the set, modulo x^k. Everything is over the closure, and names no machine operation. -/
namespace Sys2Proof.Proofs

open Polynomial (X C)
open scoped Polynomial

/-! ## Congruence modulo x^k -/

theorem X_pow_dvd_sub_iff {P Q : Closure[X]} {k : Nat} :
    X ^ k ∣ P - Q ↔ ∀ n : Nat, n < k → P.coeff n = Q.coeff n := by
  rw [Polynomial.X_pow_dvd_iff]
  simp only [Polynomial.coeff_sub, sub_eq_zero]

theorem eq_of_X_pow_dvd_sub {P Q : Closure[X]} {k : Nat} (h : X ^ k ∣ P - Q) (hP : P.degree < k) (hQ : Q.degree < k) :
    P = Q := by
  refine sub_eq_zero.mp (Polynomial.eq_zero_of_dvd_of_degree_lt h ?_)
  rw [Polynomial.degree_X_pow]
  exact (Polynomial.degree_sub_le P Q).trans_lt (max_lt hP hQ)

/-- A polynomial without coefficients from l to k − 1 is one of degree below l, modulo x^k. -/
theorem exists_degree_lt_of_coeff {P : Closure[X]} {l k : Nat} (h : ∀ n : Nat, l ≤ n → n < k → P.coeff n = 0) :
    ∃ A : Closure[X], A.degree < l ∧ X ^ k ∣ A - P := by
  have hcoeff (n : Nat) : (∑ i ∈ Finset.range l, C (P.coeff i) * X ^ i : Closure[X]).coeff n =
      if n < l then P.coeff n else 0 := by
    rw [Polynomial.finsetSum_coeff]
    simp only [Polynomial.coeff_C_mul_X_pow, Finset.sum_ite_eq, Finset.mem_range]
  refine ⟨∑ i ∈ Finset.range l, C (P.coeff i) * X ^ i, ?_, X_pow_dvd_sub_iff.mpr fun n hn => ?_⟩
  · rw [Polynomial.degree_lt_iff_coeff_zero]
    exact fun n hn => (hcoeff n).trans (if_neg (Nat.not_lt.mpr hn))
  · rw [hcoeff]
    split_ifs with hnl
    · rfl
    · exact (h n (Nat.le_of_not_lt hnl) hn).symm

variable {f : Sys2Proof.Field} {J : Finset Nat} {e : Nat → Closure}

/-! ## Roots of a locator -/

theorem injOn_position_inv (hJ : ∀ j ∈ J, j < f.n) : Set.InjOn (fun j => (position f j)⁻¹) (J : Set Nat) :=
  fun _ hi _ hj h => (position_inj (hJ _ hi) (hJ _ hj)).mp (inv_injective h)

/-- Two polynomials of degree below |J| that agree at the reciprocals of J's positions are equal. -/
theorem eq_of_eval_position_inv (hJ : ∀ j ∈ J, j < f.n) {P Q : Closure[X]} (hP : P.degree < J.card)
    (hQ : Q.degree < J.card) (h : ∀ j ∈ J, P.eval (position f j)⁻¹ = Q.eval (position f j)⁻¹) : P = Q :=
  Polynomial.eq_of_degrees_lt_of_eval_index_eq J (injOn_position_inv hJ) hP hQ h

/-- Constant coefficient 1 and |J| roots leave one polynomial of degree at most |J| (R303). -/
theorem eq_locator_of_roots (hJ : ∀ j ∈ J, j < f.n) {P : Closure[X]} (hzero : P.coeff 0 = 1) (hdeg : P.natDegree ≤ J.card)
    (hroots : ∀ j ∈ J, P.eval (position f j)⁻¹ = 0) : P = locator f J := by
  classical
  have hnot : (0 : Closure) ∉ J.image fun j => (position f j)⁻¹ := by
    rw [Finset.mem_image]
    rintro ⟨j, -, hj⟩
    exact inv_ne_zero (position_ne_zero f j) hj
  have hcard : (insert 0 (J.image fun j => (position f j)⁻¹)).card = J.card + 1 := by
    rw [Finset.card_insert_of_notMem hnot, Finset.card_image_of_injOn (injOn_position_inv hJ)]
  have hlt {Q : Closure[X]} (hQ : Q.natDegree ≤ J.card) :
      Q.degree < (insert 0 (J.image fun j => (position f j)⁻¹)).card := by
    rw [hcard]
    exact Polynomial.degree_le_natDegree.trans_lt (Nat.cast_lt.mpr (Nat.lt_succ_of_le hQ))
  refine Polynomial.eq_of_degrees_lt_of_eval_finset_eq _ (hlt hdeg) (hlt (natDegree_locator f J).le) ?_
  rw [Finset.forall_mem_insert, Finset.forall_mem_image]
  refine ⟨?_, fun j hj => ?_⟩
  · rw [← Polynomial.coeff_zero_eq_eval_zero, hzero, eval_locator_zero]
  · rw [hroots j hj, (eval_locator_eq_zero_iff hJ (hJ j hj)).mpr hj]

theorem locator_eq_mul_erase {j : Nat} (hj : j ∈ J) :
    locator f J = (1 + C (position f j) * X) * locator f (J.erase j) :=
  (Finset.mul_prod_erase J (fun j => (1 + C (position f j) * X : Closure[X])) hj).symm

theorem eval_derivative_locator {j : Nat} (hj : j ∈ J) :
    (locator f J).derivative.eval (position f j)⁻¹ = position f j * (locator f (J.erase j)).eval (position f j)⁻¹ := by
  have hroot : 1 + position f j * (position f j)⁻¹ = 0 := by
    rw [mul_inv_cancel₀ (position_ne_zero f j), CharTwo.add_self_eq_zero]
  rw [locator_eq_mul_erase hj]
  simp [hroot]

/-- The roots are simple (R303). -/
theorem eval_derivative_locator_ne_zero (hJ : ∀ j ∈ J, j < f.n) {j : Nat} (hj : j ∈ J) :
    (locator f J).derivative.eval (position f j)⁻¹ ≠ 0 := by
  rw [eval_derivative_locator hj]
  refine mul_ne_zero (position_ne_zero f j) ?_
  rw [ne_eq, eval_locator_eq_zero_iff (fun i hi => hJ i (Finset.mem_of_mem_erase hi)) (hJ j hj)]
  exact Finset.notMem_erase j J

/-! ## Power sums -/

/-- The i-th power sum of the values e over the positions of J: the syndrome at α^i of errata with these values. -/
noncomputable def powerSum (f : Sys2Proof.Field) (J : Finset Nat) (e : Nat → Closure) (i : Nat) : Closure :=
  ∑ j ∈ J, e j * position f j ^ i

/-- The errata evaluator of the values e: at the reciprocal of each position it gives the value times the derivative. -/
noncomputable def errataPoly (f : Sys2Proof.Field) (J : Finset Nat) (e : Nat → Closure) : Closure[X] :=
  ∑ j ∈ J, C (e j * position f j) * locator f (J.erase j)

theorem degree_errataPoly_lt (f : Sys2Proof.Field) (J : Finset Nat) (e : Nat → Closure) :
    (errataPoly f J e).degree < J.card := by
  rw [Polynomial.degree_lt_iff_coeff_zero]
  intro n hn
  rw [errataPoly, Polynomial.finsetSum_coeff]
  refine Finset.sum_eq_zero fun j hj => ?_
  have hcard := Finset.card_erase_lt_of_mem hj
  rw [Polynomial.coeff_C_mul, Polynomial.coeff_eq_zero_of_natDegree_lt, mul_zero]
  rw [natDegree_locator]
  omega

theorem eval_errataPoly (hJ : ∀ j ∈ J, j < f.n) {j : Nat} (hj : j ∈ J) :
    (errataPoly f J e).eval (position f j)⁻¹ = e j * (locator f J).derivative.eval (position f j)⁻¹ := by
  rw [errataPoly, Polynomial.eval_finsetSum, Finset.sum_eq_single_of_mem j hj]
  · rw [Polynomial.eval_C_mul, eval_derivative_locator hj, mul_assoc]
  · intro i hi hne
    have hroot : (locator f (J.erase i)).eval (position f j)⁻¹ = 0 :=
      (eval_locator_eq_zero_iff (fun l hl => hJ l (Finset.mem_of_mem_erase hl)) (hJ j hj)).mpr
        (Finset.mem_erase.mpr ⟨hne.symm, hj⟩)
    rw [Polynomial.eval_C_mul, hroot, mul_zero]

/-- A factor times its geometric series is 1 up to x^k. -/
theorem locatorFactor_mul_geom_sum (f : Sys2Proof.Field) (j k : Nat) :
    (1 + C (position f j) * X) * ∑ i ∈ Finset.range k, (C (position f j) * X) ^ i =
      1 + (C (position f j) * X : Closure[X]) ^ k := by
  have hgeom := mul_geom_sum (C (position f j) * X : Closure[X]) k
  rwa [CharTwo.sub_eq_add, CharTwo.sub_eq_add, add_comm, add_comm _ (1 : Closure[X])] at hgeom

/-- The key equation: the power sums as coefficients, times the locator, give the errata evaluator modulo x^k. -/
theorem X_pow_dvd_locator_mul_sub {S : Closure[X]} {k : Nat}
    (hS : ∀ i : Nat, i < k → S.coeff i = powerSum f J e (i + 1)) : X ^ k ∣ locator f J * S - errataPoly f J e := by
  set F : Closure[X] := ∑ j ∈ J, C (e j * position f j) * ∑ i ∈ Finset.range k, (C (position f j) * X) ^ i with hF
  have hcoeff : X ^ k ∣ S - F := by
    rw [X_pow_dvd_sub_iff]
    intro n hn
    rw [hS n hn, hF, Polynomial.finsetSum_coeff, powerSum]
    refine Finset.sum_congr rfl fun j _ => ?_
    rw [Polynomial.coeff_C_mul, Polynomial.finsetSum_coeff, Finset.sum_eq_single_of_mem n (Finset.mem_range.mpr hn)]
    · rw [mul_pow, ← Polynomial.C_pow, Polynomial.coeff_C_mul_X_pow, if_pos rfl, pow_succ]
      ring
    · intro i _ hne
      rw [mul_pow, ← Polynomial.C_pow, Polynomial.coeff_C_mul_X_pow, if_neg hne.symm]
  have hproduct : locator f J * F - errataPoly f J e =
      ∑ j ∈ J, C (e j * position f j) * locator f (J.erase j) * (C (position f j) * X) ^ k := by
    rw [hF, errataPoly, Finset.mul_sum, ← Finset.sum_sub_distrib]
    refine Finset.sum_congr rfl fun j hj => ?_
    calc locator f J * (C (e j * position f j) * ∑ i ∈ Finset.range k, (C (position f j) * X) ^ i) -
          C (e j * position f j) * locator f (J.erase j)
        = C (e j * position f j) * locator f (J.erase j) *
            ((1 + C (position f j) * X) * ∑ i ∈ Finset.range k, (C (position f j) * X) ^ i) -
          C (e j * position f j) * locator f (J.erase j) := by
          rw [locator_eq_mul_erase hj]
          ring
      _ = C (e j * position f j) * locator f (J.erase j) * (C (position f j) * X) ^ k := by
          rw [locatorFactor_mul_geom_sum]
          ring
  have htail : X ^ k ∣ locator f J * F - errataPoly f J e := by
    rw [hproduct]
    refine Finset.dvd_sum fun j _ => Dvd.dvd.mul_left ?_ _
    rw [mul_pow]
    exact Dvd.intro_left _ rfl
  have hsplit : locator f J * S - errataPoly f J e = locator f J * (S - F) + (locator f J * F - errataPoly f J e) := by
    ring
  rw [hsplit]
  exact dvd_add (hcoeff.mul_left _) htail

/-- x divides no locator. -/
theorem X_pow_dvd_of_dvd_locator_mul {P : Closure[X]} {k : Nat} (h : X ^ k ∣ locator f J * P) : X ^ k ∣ P := by
  refine Polynomial.prime_X.pow_dvd_of_dvd_mul_left k ?_ h
  rw [Polynomial.X_dvd_iff, Polynomial.coeff_zero_eq_eval_zero, eval_locator_zero]
  exact one_ne_zero

/-- And back: the key equation determines the coefficients below k. -/
theorem coeff_eq_powerSum_of_dvd {S : Closure[X]} {k : Nat} (h : X ^ k ∣ locator f J * S - errataPoly f J e) {i : Nat}
    (hi : i < k) : S.coeff i = powerSum f J e (i + 1) := by
  obtain ⟨F, hF⟩ : ∃ F : Closure[X], ∀ i : Nat, i < k → F.coeff i = powerSum f J e (i + 1) := by
    refine ⟨∑ i ∈ Finset.range k, C (powerSum f J e (i + 1)) * X ^ i, fun i hi => ?_⟩
    rw [Polynomial.finsetSum_coeff]
    simp only [Polynomial.coeff_C_mul_X_pow, Finset.sum_ite_eq, Finset.mem_range, if_pos hi]
  have hdiff : X ^ k ∣ locator f J * (S - F) := by
    have hsub := dvd_sub h (X_pow_dvd_locator_mul_sub hF)
    rwa [sub_sub_sub_cancel_right, ← mul_sub] at hsub
  rw [← hF i hi]
  exact X_pow_dvd_sub_iff.mp (X_pow_dvd_of_dvd_locator_mul hdiff) i hi

/-- Errata at no more than k positions with k zero syndromes are none: any k columns of the check matrix are independent. -/
theorem eq_zero_of_powerSum_eq_zero (hJ : ∀ j ∈ J, j < f.n) {k : Nat} (hcard : J.card ≤ k)
    (hzero : ∀ i : Nat, i < k → powerSum f J e (i + 1) = 0) {j : Nat} (hj : j ∈ J) : e j = 0 := by
  have hkey : X ^ k ∣ locator f J * 0 - errataPoly f J e :=
    X_pow_dvd_locator_mul_sub fun i hi => (Polynomial.coeff_zero i).trans (hzero i hi).symm
  have hdegree : (errataPoly f J e).degree < k := (degree_errataPoly_lt f J e).trans_le (Nat.cast_le.mpr hcard)
  have hnone : locator f J * 0 = errataPoly f J e :=
    eq_of_X_pow_dvd_sub hkey (by rw [mul_zero, Polynomial.degree_zero]; exact bot_lt_of_lt hdegree) hdegree
  have heval := eval_errataPoly (e := e) hJ hj
  rw [← hnone, mul_zero, Polynomial.eval_zero] at heval
  exact (mul_eq_zero.mp heval.symm).resolve_right (eval_derivative_locator_ne_zero hJ hj)

end Sys2Proof.Proofs
end

section
/-! The stages of RS_DECODE on polynomials (44_decoder_pipeline.md R300 to R303): what the recursion and the root search
find, why no denominator is 0, and which syndromes the correction has. -/
namespace Sys2Proof.Proofs

open Sys2Proof.Machine Sys2Proof.Safety
open Polynomial (X C)
open scoped Polynomial

/-! ## What the stages hand on -/

/-- The registers that stage 5 leaves for the syndromes S (R300). -/
def bmOf (f : Field) (S k em : Nat) : BmRegs :=
  bmRun f (errataEvaluator f S (erasureLocator f em) k) k (popcount em)

/-- The mask that stage 7 finds. -/
def foundOf (f : Field) (S nr k em tm : Nat) : Nat := chienUpTo f (bmOf f S k em).c em tm nr

/-- The combined mask of stage 8. -/
def combOf (f : Field) (S nr k em tm : Nat) : Nat := em ||| foundOf f S nr k em tm

/-- The errata locator of stage 8. -/
def psiOf (f : Field) (S k em : Nat) : Nat := prod f (bmOf f S k em).c (erasureLocator f em)

theorem decodeLocate_eq (f : Field) (a nr k em tm S : Nat) :
    decodeLocate f a nr k em tm S =
      if 2 * (bmOf f S k em).len > k - popcount em then .fail .tooManyErrors
      else if popcount (foundOf f S nr k em tm) ≠ (bmOf f S k em).len then .fail .rootCountMismatch
      else decodeCorrect f a S (bmOf f S k em).c (erasureLocator f em) k (combOf f S nr k em tm) := rfl

/-- The operand checks and stage 1 pass. -/
structure PassesStageOne (f : Field) (nr k em : Nat) : Prop where
  isCount : IsCount f k
  nr_le : nr ≤ f.n
  em_lt : em < 2 ^ nr
  rho_le : popcount em ≤ k

/-- Stages 6 and 7 pass. -/
structure Located (f : Field) (S nr k em tm : Nat) : Prop where
  bound : 2 * (bmOf f S k em).len ≤ k - popcount em
  count : popcount (foundOf f S nr k em tm) = (bmOf f S k em).len

section
variable {f : Field} {S nr k em tm : Nat}

theorem PassesStageOne.two_pow_le (h : PassesStageOne f nr k em) : 2 ^ nr ≤ 2 ^ f.n :=
  Nat.pow_le_pow_right Nat.two_pos h.nr_le

theorem PassesStageOne.em_lt_block (h : PassesStageOne f nr k em) : em < 2 ^ f.n := h.em_lt.trans_le h.two_pow_le

theorem PassesStageOne.rho_lt_slots (h : PassesStageOne f nr k em) : popcount em < f.slots :=
  h.rho_le.trans_lt (count_lt_slots h.isCount)

theorem PassesStageOne.wordPoly_gamma (h : PassesStageOne f nr k em) :
    wordPoly f (erasureLocator f em) = locator f (positionsBelow em f.n) :=
  wordPoly_erasureLocator h.em_lt_block h.rho_lt_slots

theorem PassesStageOne.card_erasures (h : PassesStageOne f nr k em) : (positionsBelow em f.n).card = popcount em :=
  card_positions h.em_lt_block

theorem mem_block_of_mem_positionsBelow {v j : Nat} (hj : j ∈ positionsBelow v f.n) : j < f.n :=
  (mem_positionsBelow.mp hj).1

/-! ## Stage 4: the errata evaluator modulo x^k (R253) -/

theorem X_pow_dvd_errataEvaluator_sub (hk : IsCount f k) {s g : Nat} (hg : slot f g 0 = 1) :
    X ^ k ∣ wordPoly f (errataEvaluator f s g k) - wordPoly f s * wordPoly f g := by
  rw [X_pow_dvd_sub_iff]
  intro n hn
  rw [coeff_wordPoly, slot_errataEvaluator hk hn, ← slot_force1_eq_oneAtZero, force1_eq_self hg, embed_conv_slot]

/-! ## Stage 5: recurrences of the Forney syndromes (R256) -/

theorem coeff_mul_sequencePoly {P : Closure[X]} {i : Nat} (hP : P.natDegree ≤ i) (t rho : Nat) :
    (P * sequencePoly f t rho).coeff i = (P * wordPoly f t).coeff (rho + i) := by
  rw [coeff_mul_eq_sum hP (le_refl i), coeff_mul_eq_sum hP (Nat.le_add_left i rho), coeff_sequencePoly, coeff_wordPoly]
  congr 1
  refine Finset.sum_congr rfl fun l hl => ?_
  rw [Finset.mem_range] at hl
  rw [coeff_sequencePoly, coeff_wordPoly, Nat.add_sub_assoc hl]

/-- A recurrence of the Forney syndromes is a run of vanishing coefficients of P·Γ·S. -/
theorem connects_forneySyndromes_iff (h : PassesStageOne f nr k em) {P : Closure[X]} {l : Nat} (hzero : P.coeff 0 = 1)
    (hdeg : P.natDegree ≤ l) :
    Connects (sequencePoly f (errataEvaluator f S (erasureLocator f em) k) (popcount em)) (k - popcount em) P l ↔
      ∀ n : Nat, popcount em + l ≤ n → n < k →
        (P * locator f (positionsBelow em f.n) * wordPoly f S).coeff n = 0 := by
  have hevaluator : X ^ k ∣ P * wordPoly f (errataEvaluator f S (erasureLocator f em) k) -
      P * locator f (positionsBelow em f.n) * wordPoly f S := by
    rw [mul_assoc, ← mul_sub, mul_comm (locator f _), ← h.wordPoly_gamma]
    exact (X_pow_dvd_errataEvaluator_sub h.isCount (slot_zero_erasureLocator h.em_lt_block h.rho_lt_slots)).mul_left P
  have hcoeff (i : Nat) (hi : l ≤ i) (hik : popcount em + i < k) :
      (P * sequencePoly f (errataEvaluator f S (erasureLocator f em) k) (popcount em)).coeff i =
        (P * locator f (positionsBelow em f.n) * wordPoly f S).coeff (popcount em + i) :=
    (coeff_mul_sequencePoly (hdeg.trans hi) _ _).trans (X_pow_dvd_sub_iff.mp hevaluator _ hik)
  constructor
  case mp =>
    intro hconnects n hn hnk
    obtain ⟨i, rfl⟩ := Nat.exists_eq_add_of_le ((Nat.le_add_right _ _).trans hn)
    rw [← hcoeff i (by omega) hnk]
    exact hconnects.vanishes i (by omega) (by omega)
  case mpr =>
    intro hvanish
    refine ⟨hzero, hdeg, fun i hi hik => ?_⟩
    rw [hcoeff i hi (by omega)]
    exact hvanish _ (by omega) (by omega)

theorem PassesStageOne.bmInv (h : PassesStageOne f nr k em) (S : Nat) :
    BmInv f (sequencePoly f (errataEvaluator f S (erasureLocator f em) k) (popcount em)) (k - popcount em)
      (bmOf f S k em) :=
  bmInv_bmRun h.isCount _ _

theorem PassesStageOne.isPacked_lambda (h : PassesStageOne f nr k em) (S : Nat) : IsPacked f (bmOf f S k em).c :=
  isPacked_bmRun h.isCount _ _

/-- Λ·Γ·S has no coefficient from ρ + L to k − 1. -/
theorem PassesStageOne.coeff_lambda_gamma_syndrome (h : PassesStageOne f nr k em) (S : Nat) {n : Nat}
    (hn : popcount em + (bmOf f S k em).len ≤ n) (hnk : n < k) :
    (wordPoly f (bmOf f S k em).c * locator f (positionsBelow em f.n) * wordPoly f S).coeff n = 0 :=
  (connects_forneySyndromes_iff h (h.bmInv S).connects.coeff_zero (h.bmInv S).connects.natDegree_le).mp
    (h.bmInv S).connects n hn hnk

/-! ## Stages 6 to 8: the located errors (R303) -/

theorem foundOf_lt (f : Field) (S nr k em tm : Nat) : foundOf f S nr k em tm < 2 ^ nr := chienUpTo_lt f _ em tm nr

theorem combOf_lt (h : PassesStageOne f nr k em) (S tm : Nat) : combOf f S nr k em tm < 2 ^ nr :=
  Nat.or_lt_two_pow h.em_lt (foundOf_lt f S nr k em tm)

theorem mem_found_iff (h : PassesStageOne f nr k em) {j : Nat} :
    j ∈ positionsBelow (foundOf f S nr k em tm) f.n ↔
      j < nr ∧ tm.testBit j = true ∧ em.testBit j = false ∧
        (wordPoly f (bmOf f S k em).c).eval (position f j)⁻¹ = 0 := by
  have hiff (hj : j < f.n) := valueAt_eq_zero_iff (h.isPacked_lambda S) (isElement_alphaInv f j)
  rw [mem_positionsBelow, foundOf, testBit_chienUpTo, eligible_iff, and_assoc]
  constructor
  · rintro ⟨hjn, hj, htm, hem, hroot⟩
    rw [hiff hjn, embed_alphaInv hjn] at hroot
    exact ⟨hj, htm, hem, hroot⟩
  · rintro ⟨hj, htm, hem, hroot⟩
    have hjn := hj.trans_le h.nr_le
    rw [← embed_alphaInv hjn, ← hiff hjn] at hroot
    exact ⟨hjn, hj, htm, hem, hroot⟩

theorem card_found (h : PassesStageOne f nr k em) (S tm : Nat) :
    (positionsBelow (foundOf f S nr k em tm) f.n).card = popcount (foundOf f S nr k em tm) :=
  card_positions ((foundOf_lt f S nr k em tm).trans_le h.two_pow_le)

theorem positionsBelow_or (v w n : Nat) : positionsBelow (v ||| w) n = positionsBelow v n ∪ positionsBelow w n := by
  ext j
  rw [Finset.mem_union, mem_positionsBelow, mem_positionsBelow, mem_positionsBelow, Nat.testBit_or, Bool.or_eq_true,
    and_or_left]

theorem disjoint_erasures_found (h : PassesStageOne f nr k em) (S tm : Nat) :
    Disjoint (positionsBelow em f.n) (positionsBelow (foundOf f S nr k em tm) f.n) := by
  rw [Finset.disjoint_left]
  intro j hem hfound
  obtain ⟨-, -, hnot, -⟩ := (mem_found_iff h).mp hfound
  rw [(mem_positionsBelow.mp hem).2] at hnot
  exact Bool.noConfusion hnot

theorem card_comb (h : PassesStageOne f nr k em) (S tm : Nat) :
    (positionsBelow (combOf f S nr k em tm) f.n).card = popcount em + popcount (foundOf f S nr k em tm) := by
  rw [combOf, positionsBelow_or, Finset.card_union_of_disjoint (disjoint_erasures_found h S tm), h.card_erasures,
    card_found h]

/-- L roots and degree at most L: Λ is the locator of what stage 7 found (R303). -/
theorem wordPoly_lambda (h : PassesStageOne f nr k em) (hl : Located f S nr k em tm) :
    wordPoly f (bmOf f S k em).c = locator f (positionsBelow (foundOf f S nr k em tm) f.n) := by
  have hconnects := (h.bmInv S).connects
  refine eq_locator_of_roots (fun j => mem_block_of_mem_positionsBelow) hconnects.coeff_zero ?_ fun j hj => ?_
  · rw [card_found h, hl.count]
    exact hconnects.natDegree_le
  · obtain ⟨-, -, -, hroot⟩ := (mem_found_iff h).mp hj
    exact hroot

/-- So Ψ = Λ·Γ is the locator of the combined mask. -/
theorem wordPoly_psi (h : PassesStageOne f nr k em) (hl : Located f S nr k em tm) :
    wordPoly f (psiOf f S k em) = locator f (positionsBelow (combOf f S nr k em tm) f.n) := by
  rw [psiOf, wordPoly_prod (h.isPacked_lambda S) (isPacked_erasureLocator h.em_lt_block h.rho_lt_slots),
    wordPoly_lambda h hl, h.wordPoly_gamma, combOf, positionsBelow_or, mul_comm, locator, locator, locator,
    Finset.prod_union (disjoint_erasures_found h S tm)]

theorem card_comb_of_located (h : PassesStageOne f nr k em) (hl : Located f S nr k em tm) :
    (positionsBelow (combOf f S nr k em tm) f.n).card = popcount em + (bmOf f S k em).len := by
  rw [card_comb h, hl.count]

theorem card_comb_le (h : PassesStageOne f nr k em) (hl : Located f S nr k em tm) :
    (positionsBelow (combOf f S nr k em tm) f.n).card ≤ k := by
  have hbound := hl.bound
  have hrho := h.rho_le
  rw [card_comb_of_located h hl]
  omega

theorem isPacked_psi (h : PassesStageOne f nr k em) (hl : Located f S nr k em tm) : IsPacked f (psiOf f S k em) :=
  isPacked_of_wordPoly_eq_locator (wordPoly_psi h hl) ((card_comb_le h hl).trans_lt (count_lt_slots h.isCount))

theorem slot_zero_psi (h : PassesStageOne f nr k em) (hl : Located f S nr k em tm) : slot f (psiOf f S k em) 0 = 1 :=
  slot_zero_of_eval_zero (by rw [wordPoly_psi h hl, eval_locator_zero])

/-! ## Stages 9 and 10: the magnitudes (R303) -/

theorem embed_evalall {p j : Nat} (hp : IsPacked f p) (hj : j < f.n) :
    embed f (evalall f p (locatorRoot f j)) = (wordPoly f p).eval (position f j)⁻¹ := by
  rw [evalall_locatorRoot, embed_valueAt hp (isElement_alphaInv f j), embed_alphaInv hj]

theorem embed_denominator (h : PassesStageOne f nr k em) (hl : Located f S nr k em tm) {j : Nat} (hj : j < f.n) :
    embed f (evalall f (polyDeriv f (psiOf f S k em)) (locatorRoot f j)) =
      (locator f (positionsBelow (combOf f S nr k em tm) f.n)).derivative.eval (position f j)⁻¹ := by
  rw [embed_evalall (isPacked_polyDeriv f _) hj, wordPoly_polyDeriv (isPacked_psi h hl), wordPoly_psi h hl]

/-- RS_FORNEY's DIVISION_BY_ZERO cannot occur: the roots of Ψ are simple. -/
theorem denominator_ne_zero (h : PassesStageOne f nr k em) (hl : Located f S nr k em tm) {j : Nat}
    (hj : (combOf f S nr k em tm).testBit j = true) :
    evalall f (polyDeriv f (psiOf f S k em)) (locatorRoot f j) ≠ 0 := by
  have hjn : j < f.n := (lt_of_testBit (combOf_lt h S tm) hj).trans_le h.nr_le
  rw [ne_eq, ← embed_eq_zero_iff (isElement_evalall_locatorRoot f _ j), embed_denominator h hl hjn]
  exact eval_derivative_locator_ne_zero (fun i => mem_block_of_mem_positionsBelow) (mem_positionsBelow.mpr ⟨hjn, hj⟩)

/-- The correction that stage 9 computes. -/
def correctionOf (f : Field) (S nr k em tm : Nat) : Nat :=
  correction f S (psiOf f S k em) k (combOf f S nr k em tm)

theorem decodeCorrect_eq (h : PassesStageOne f nr k em) (hl : Located f S nr k em tm) (a : Nat) :
    decodeCorrect f a S (bmOf f S k em).c (erasureLocator f em) k (combOf f S nr k em tm) =
      .okAux (a ^^^ correctionOf f S nr k em tm) (combOf f S nr k em tm) := by
  have hforney : forney f S (prod f (bmOf f S k em).c (erasureLocator f em)) k (combOf f S nr k em tm) =
      some (correctionOf f S nr k em tm) := forney_eq_some fun j => denominator_ne_zero h hl
  rw [decodeCorrect, hforney]

/-- Stages 1 to 10, DIVISION_BY_ZERO left out. -/
theorem decodeLocate_eq_of_passesStageOne (h : PassesStageOne f nr k em) (a tm S : Nat) :
    decodeLocate f a nr k em tm S =
      if 2 * (bmOf f S k em).len > k - popcount em then .fail .tooManyErrors
      else if popcount (foundOf f S nr k em tm) ≠ (bmOf f S k em).len then .fail .rootCountMismatch
      else .okAux (a ^^^ correctionOf f S nr k em tm) (combOf f S nr k em tm) := by
  rw [decodeLocate_eq]
  split_ifs with hbound hcount
  · rfl
  · rfl
  · exact decodeCorrect_eq h ⟨Nat.le_of_not_lt hbound, not_not.mp hcount⟩ a

/-- The errata evaluator of stage 9 is of degree below |J|, so its values at the positions of J determine it. -/
theorem degree_omega_lt (h : PassesStageOne f nr k em) (hl : Located f S nr k em tm) :
    (wordPoly f (errataEvaluator f S (psiOf f S k em) k)).degree <
      (positionsBelow (combOf f S nr k em tm) f.n).card := by
  rw [Polynomial.degree_lt_iff_coeff_zero, card_comb_of_located h hl]
  intro n hn
  obtain hnk | hnk := Nat.lt_or_ge n k
  · rw [X_pow_dvd_sub_iff.mp (X_pow_dvd_errataEvaluator_sub h.isCount (slot_zero_psi h hl)) n hnk, psiOf,
      wordPoly_prod (h.isPacked_lambda S) (isPacked_erasureLocator h.em_lt_block h.rho_lt_slots), h.wordPoly_gamma,
      mul_comm]
    exact h.coeff_lambda_gamma_syndrome S hn hnk
  · rw [coeff_wordPoly, (lt_two_pow_iff_slots f _ k).mp (errataEvaluator_lt f S _ k) n hnk, embed_zero]

theorem slot_correctionOf_of_not_testBit (h : PassesStageOne f nr k em) {j : Nat}
    (hj : ¬(combOf f S nr k em tm).testBit j = true) : slot f (correctionOf f S nr k em tm) j = 0 :=
  slot_correction_of_not_testBit ((combOf_lt h S tm).trans_le h.two_pow_le) hj

/-- The syndromes are the power sums of the correction's values (R306): both evaluators take the same values at the
positions of J. -/
theorem coeff_syndrome_eq_powerSum (h : PassesStageOne f nr k em) (hl : Located f S nr k em tm) {i : Nat} (hi : i < k) :
    (wordPoly f S).coeff i = powerSum f (positionsBelow (combOf f S nr k em tm) f.n)
      (fun j => embed f (slot f (correctionOf f S nr k em tm) j)) (i + 1) := by
  set J := positionsBelow (combOf f S nr k em tm) f.n with hJdef
  have hJ : ∀ j ∈ J, j < f.n := fun j => mem_block_of_mem_positionsBelow
  have hpsi := wordPoly_psi h hl
  have hevaluators : wordPoly f (errataEvaluator f S (psiOf f S k em) k) =
      errataPoly f J fun j => embed f (slot f (correctionOf f S nr k em tm) j) := by
    refine eq_of_eval_position_inv hJ (degree_omega_lt h hl) (degree_errataPoly_lt f J _) fun j hj => ?_
    obtain ⟨hjn, hbit⟩ := mem_positionsBelow.mp hj
    have hmul := gfMul_magnitudeOrZero (omega := errataEvaluator f S (psiOf f S k em) k) hbit
      (denominator_ne_zero h hl hbit)
    have hslot : slot f (correctionOf f S nr k em tm) j = magnitudeOrZero f (errataEvaluator f S (psiOf f S k em) k)
        (polyDeriv f (psiOf f S k em)) (combOf f S nr k em tm) j :=
      slot_correction ((combOf_lt h S tm).trans_le h.two_pow_le) j
    have homega : IsPacked f (errataEvaluator f S (psiOf f S k em) k) :=
      isPacked_of_lt_two_pow (errataEvaluator_lt f S _ k) (count_lt_slots h.isCount).le
    rw [eval_errataPoly hJ hj, ← embed_denominator h hl hjn, hslot,
      ← embed_gfMul (isElement_magnitudeOrZero f _ _ _ j) (isElement_evalall_locatorRoot f _ j), hmul,
      embed_evalall homega hjn]
  refine coeff_eq_powerSum_of_dvd (f := f) (J := J) (k := k) ?_ hi
  rw [← hevaluators, ← hpsi, mul_comm, ← dvd_neg, neg_sub]
  exact X_pow_dvd_errataEvaluator_sub h.isCount (slot_zero_psi h hl)

end

end Sys2Proof.Proofs
end

section
/-! RS_DECODE (44_decoder_pipeline.md R300 to R307): its outcomes, that what it gives back is a codeword, and that within
capacity it is the codeword sent. -/
namespace Sys2Proof.Proofs

open Sys2Proof.Machine Sys2Proof.Safety
open Polynomial (X C)
open scoped Polynomial

/-! ## The outcomes (R300, 60_exceptions.md R336) -/

/-- The syndromes of the operands. -/
def synOf (f : Field) (o : OperandRegs) : Nat := syndrome f o.a.toNat (o.sza.toNat / f.m) o.k.toNat

/-- The four checks of RS_DECODE fail with the same code, and so are one. -/
theorem resultOf_rsDecode (f : Field) (o : OperandRegs) :
    resultOf (.rsDecode f) o = if DecodeOperands f o then
        decodeStages f o.a.toNat (o.sza.toNat / f.m) o.k.toNat o.em.toNat o.tm.toNat
      else .fail .preconditionViolated := by
  simp only [resultOf, rsDecodeResult, Bool.not_eq_true', ← Bool.not_eq_true, Bool.and_eq_true, isKchk_iff, isRsize_iff,
    fitsSize_iff, isMask_iff, ite_not, ← ite_and]

section
variable {f : Field} {o : OperandRegs}

theorem passesStageOne (hops : DecodeOperands f o) (hrho : weight o.em ≤ o.k.toNat) :
    PassesStageOne f (o.sza.toNat / f.m) o.k.toNat o.em.toNat := by
  obtain ⟨hk, hsize, -, hem, -⟩ := hops
  exact ⟨hk, div_le_n_of_isReceivedSize hsize, hem, by rwa [popcount_toNat]⟩

theorem resultOf_rsDecode_of_beyond (hops : DecodeOperands f o) (hrho : o.k.toNat < weight o.em) :
    resultOf (.rsDecode f) o = .fail .beyondSingletonBound := by
  rw [resultOf_rsDecode, if_pos hops, decodeStages, if_pos (by rwa [popcount_toNat])]

/-- The outcomes from stage 2 on; DIVISION_BY_ZERO is not among them. -/
theorem resultOf_rsDecode_of_within (hops : DecodeOperands f o) (hrho : weight o.em ≤ o.k.toNat) :
    resultOf (.rsDecode f) o =
      if synOf f o = 0 then .okAux o.a.toNat 0
      else if 2 * (bmOf f (synOf f o) o.k.toNat o.em.toNat).len > o.k.toNat - weight o.em then .fail .tooManyErrors
      else if popcount (foundOf f (synOf f o) (o.sza.toNat / f.m) o.k.toNat o.em.toNat o.tm.toNat) ≠
          (bmOf f (synOf f o) o.k.toNat o.em.toNat).len then .fail .rootCountMismatch
      else .okAux
        (o.a.toNat ^^^ correctionOf f (synOf f o) (o.sza.toNat / f.m) o.k.toNat o.em.toNat o.tm.toNat)
        (combOf f (synOf f o) (o.sza.toNat / f.m) o.k.toNat o.em.toNat o.tm.toNat) := by
  rw [resultOf_rsDecode, if_pos hops, decodeStages, if_neg (by rwa [popcount_toNat, not_lt]), ← synOf,
    decodeLocate_eq_of_passesStageOne (passesStageOne hops hrho), popcount_toNat]

theorem resultOf_rsDecode_of_located (hops : DecodeOperands f o) (hrho : weight o.em ≤ o.k.toNat) (hzero : synOf f o ≠ 0)
    (hl : Located f (synOf f o) (o.sza.toNat / f.m) o.k.toNat o.em.toNat o.tm.toNat) :
    resultOf (.rsDecode f) o =
      .okAux (o.a.toNat ^^^ correctionOf f (synOf f o) (o.sza.toNat / f.m) o.k.toNat o.em.toNat o.tm.toNat)
        (combOf f (synOf f o) (o.sza.toNat / f.m) o.k.toNat o.em.toNat o.tm.toNat) := by
  obtain ⟨hbound, hcount⟩ := hl
  rw [popcount_toNat] at hbound
  rw [resultOf_rsDecode_of_within hops hrho, if_neg hzero, if_neg (Nat.not_lt.mpr hbound), if_neg (not_not.mpr hcount)]

/-- RS_DECODE's own codes are the five of R331. -/
theorem statusIn_codesOf_rsDecode (f : Field) (o : OperandRegs) :
    StatusIn (codesOf (.rsDecode f)) (resultOf (.rsDecode f) o) := by
  change StatusIn [0, 2, 3, 4, 6] _
  have hok (y aux : Nat) : StatusIn [0, 2, 3, 4, 6] (.okAux y aux) := List.mem_cons_self
  by_cases hops : DecodeOperands f o
  · obtain hrho | hrho := le_or_gt (weight o.em) o.k.toNat
    · rw [resultOf_rsDecode_of_within hops hrho]
      split
      · exact hok _ _
      · exact .check (by decide) (.check (by decide) (hok _ _))
    · rw [resultOf_rsDecode_of_beyond hops hrho]
      exact List.mem_of_elem_eq_true rfl
  · rw [resultOf_rsDecode, if_neg hops]
    exact List.mem_of_elem_eq_true rfl

end

/-- Settles O17: past stages 6 and 7 the errata locator has simple roots, so no denominator is 0. -/
theorem decodeNeverDividesByZero : Obligations.DecodeNeverDividesByZero := by
  intro f s t hexec
  rw [(exec_next_iff _ s t).mp hexec]
  exact statusIn_codesOf_rsDecode f s.ops

/-- Settles O55: the operand checks, then stage 1. -/
theorem rsDecodeChecksInOrder : Obligations.RsDecodeChecksInOrder := by
  refine ⟨⟨rfl, rfl⟩, fun f s hops => ?refused, fun f s hops hrho => ?beyond⟩
  case refused => exact exec_of_result_fail ((resultOf_rsDecode f s.ops).trans (if_neg hops))
  case beyond => exact exec_of_result_fail (resultOf_rsDecode_of_beyond hops hrho)

/-- The received word comes back when all its syndromes are 0. -/
theorem exec_rsDecode_of_isCodeword {f : Field} {s : State} (hops : DecodeOperands f s.ops)
    (hrho : weight s.ops.em ≤ s.ops.k.toNat) (hcode : IsCodeword f s.ops.a.toNat (s.ops.sza.toNat / f.m) s.ops.k.toNat) :
    exec (.rsDecode f) s = .next (completed s 0x0#4 s.ops.a 0#16) := by
  have hzero : synOf f s.ops = 0 := (syndrome_eq_zero_iff hops.1 _ _).mpr hcode
  rw [exec_of_result_okAux ((resultOf_rsDecode_of_within hops hrho).trans (if_pos hzero)), BitVec.ofNat_toNat,
    BitVec.setWidth_eq]

/-- Settles O56: stage 2 ends the command. -/
theorem rsDecodeReturnsCodewordsUnchanged : Obligations.RsDecodeReturnsCodewordsUnchanged := by
  intro f s hops hrho hcode
  exact exec_rsDecode_of_isCodeword hops hrho hcode

/-! ## An OK result (R304, R306) -/

section
variable {f : Field} {s t : State}

theorem toNat_ofNat_of_lt_size {size v : Nat} (hsize : IsReceivedSize f size) (hv : v < 2 ^ size) :
    (BitVec.ofNat 64 v).toNat = v :=
  toNat_ofNat_of_isPacked (hv.trans_le (two_pow_size_le hsize))

theorem correctionOf_lt {o : OperandRegs} (hops : DecodeOperands f o) (hrho : weight o.em ≤ o.k.toNat) (S tm : Nat) :
    correctionOf f S (o.sza.toNat / f.m) o.k.toNat o.em.toNat tm < 2 ^ o.sza.toNat :=
  correction_lt hops.2.1 (combOf_lt (passesStageOne hops hrho) S tm)

/-- OK comes from stage 2, with the received word, or from stage 10, with the corrected one. -/
theorem rsDecode_ok (hexec : exec (.rsDecode f) s = .next t) (hok : t.status = 0x0#4) :
    DecodeOperands f s.ops ∧ weight s.ops.em ≤ s.ops.k.toNat ∧
      ((synOf f s.ops = 0 ∧ t.y = s.ops.a ∧ t.yaux = 0#16) ∨
       (Located f (synOf f s.ops) (s.ops.sza.toNat / f.m) s.ops.k.toNat s.ops.em.toNat s.ops.tm.toNat ∧
        t.y.toNat = s.ops.a.toNat ^^^
          correctionOf f (synOf f s.ops) (s.ops.sza.toNat / f.m) s.ops.k.toNat s.ops.em.toNat s.ops.tm.toNat ∧
        t.yaux.toNat =
          combOf f (synOf f s.ops) (s.ops.sza.toNat / f.m) s.ops.k.toNat s.ops.em.toNat s.ops.tm.toNat)) := by
  obtain rfl := (exec_next_iff _ s t).mp hexec
  rw [State.complete_status] at hok
  rw [State.complete_y, State.complete_yaux]
  by_cases hops : DecodeOperands f s.ops
  case neg =>
    rw [resultOf_rsDecode, if_neg hops] at hok
    exact absurd hok (by decide)
  obtain hrho | hrho := le_or_gt (weight s.ops.em) s.ops.k.toNat
  case inr =>
    rw [resultOf_rsDecode_of_beyond hops hrho] at hok
    exact absurd hok (by decide)
  refine ⟨hops, hrho, ?_⟩
  rw [resultOf_rsDecode_of_within hops hrho] at hok ⊢
  split_ifs at hok ⊢ with hzero hbound hcount
  · exact .inl ⟨hzero, by rw [Result.okAux_y, BitVec.ofNat_toNat, BitVec.setWidth_eq], rfl⟩
  · exact absurd hok (by decide)
  · exact absurd hok (by decide)
  · have hsize := hops.2.1
    have hlt := Nat.xor_lt_two_pow hops.2.2.1 (correctionOf_lt hops hrho (synOf f s.ops) s.ops.tm.toNat)
    have hcomb := (combOf_lt (passesStageOne hops hrho) (synOf f s.ops) s.ops.tm.toNat).trans_le (two_pow_le_sixteen hsize)
    refine .inr ⟨⟨?_, not_not.mp hcount⟩, toNat_ofNat_of_lt_size hsize hlt, ?_⟩
    · rw [popcount_toNat]
      exact Nat.le_of_not_lt hbound
    · exact (BitVec.toNat_ofNat _ 16).trans (Nat.mod_eq_of_lt hcomb)

theorem rsDecode_ok_lt (hexec : exec (.rsDecode f) s = .next t) (hok : t.status = 0x0#4) :
    t.y.toNat < 2 ^ s.ops.sza.toNat := by
  obtain ⟨hops, hrho, ⟨-, hy, -⟩ | ⟨-, hy, -⟩⟩ := rsDecode_ok hexec hok
  · rw [hy]
    exact hops.2.2.1
  · rw [hy]
    exact Nat.xor_lt_two_pow hops.2.2.1 (correctionOf_lt hops hrho _ _)

end

/-- Settles O57: the correction is 0 outside the combined mask, which takes in EM. -/
theorem rsDecodeCorrectsOnlyNamedPositions : Obligations.RsDecodeCorrectsOnlyNamedPositions := by
  intro f s t hexec hok
  refine ⟨rsDecode_ok_lt hexec hok, ?_⟩
  obtain ⟨hops, hrho, ⟨-, hy, haux⟩ | ⟨-, hy, haux⟩⟩ := rsDecode_ok hexec hok
  · rw [hy]
    exact ⟨fun j hne => absurd rfl hne, .inl haux⟩
  · refine ⟨fun j => ?_, .inr fun j hj => ?_⟩
    · contrapose
      rw [BitVec.getLsbD, haux, hy, slot_xor]
      intro hbit
      rw [slot_correctionOf_of_not_testBit (passesStageOne hops hrho) hbit, Nat.xor_zero]
    · rw [BitVec.getLsbD, haux, combOf, Nat.testBit_or]
      exact Bool.or_eq_true_iff.mpr (.inl hj)

/-- At α^i a word that is 0 outside J has the i-th power sum of its slots as its value. -/
theorem eval_wordPoly_alpha_pow {f : Field} {w : Nat} {J : Finset Nat} (hw : ∀ j, j ∉ J → slot f w j = 0) (i : Nat) :
    (wordPoly f w).eval (alpha f ^ i) = powerSum f J (fun j => embed f (slot f w j)) i := by
  have hsupport : (wordPoly f w).support ⊆ J := by
    intro j hj
    by_contra hnot
    rw [Polynomial.mem_support_iff, coeff_wordPoly, hw j hnot, embed_zero] at hj
    exact hj rfl
  rw [Polynomial.eval_eq_sum, Polynomial.sum_eq_of_subset (fun e a => a * (alpha f ^ i) ^ e) (fun _ => zero_mul _) hsupport,
    powerSum]
  refine Finset.sum_congr rfl fun j _ => ?_
  rw [coeff_wordPoly, position, ← pow_mul, ← pow_mul, Nat.mul_comm]

theorem coeff_syndrome {f : Field} {a nr k i : Nat} (hk : IsCount f k) (ha : a < 2 ^ (nr * f.m)) (hi : i < k) :
    (wordPoly f (syndrome f a nr k)).coeff i = (wordPoly f a).eval (alpha f ^ (i + 1)) := by
  rw [coeff_wordPoly, slot_syndrome hk hi, embed_valueAt ha (isElement_alphaIter' f _), embed_alphaIter]

/-- The corrected word is a codeword: the correction has the syndromes of the received word (R306). -/
theorem isCodeword_corrected {f : Field} {a nr k em tm : Nat} (h : PassesStageOne f nr k em) (ha : a < 2 ^ (nr * f.m))
    (hl : Located f (syndrome f a nr k) nr k em tm)
    (hy : a ^^^ correctionOf f (syndrome f a nr k) nr k em tm < 2 ^ (nr * f.m)) :
    IsCodeword f (a ^^^ correctionOf f (syndrome f a nr k) nr k em tm) nr k := by
  rw [isCodeword_iff_eval hy]
  intro i hpos hik
  obtain ⟨l, rfl⟩ := Nat.exists_eq_add_of_le' hpos
  have houtside (j : Nat) (hj : j ∉ positionsBelow (combOf f (syndrome f a nr k) nr k em tm) f.n) :
      slot f (correctionOf f (syndrome f a nr k) nr k em tm) j = 0 := by
    refine slot_correctionOf_of_not_testBit h fun hbit => hj (mem_positionsBelow.mpr ⟨?_, hbit⟩)
    exact (lt_of_testBit (combOf_lt h _ tm) hbit).trans_le h.nr_le
  rw [wordPoly_xor, Polynomial.eval_add, eval_wordPoly_alpha_pow houtside, ← coeff_syndrome h.isCount ha hik,
    coeff_syndrome_eq_powerSum h hl hik, CharTwo.add_self_eq_zero]

/-- Settles O59: from stage 2 the received word is a codeword, from stage 10 the corrected one. -/
theorem rsDecodeOkResultsAreCodewords : Obligations.RsDecodeOkResultsAreCodewords := by
  intro f s t hexec hok
  have hlt := rsDecode_ok_lt hexec hok
  refine ⟨hlt, ?_⟩
  obtain ⟨hops, hrho, ⟨hzero, hy, -⟩ | ⟨hl, hy, -⟩⟩ := rsDecode_ok hexec hok
  · rw [hy]
    exact (syndrome_eq_zero_iff hops.1 _ _).mp hzero
  · have hnr := div_mul_of_isReceivedSize hops.2.1
    rw [hy] at hlt ⊢
    exact isCodeword_corrected (passesStageOne hops hrho) (by rw [hnr]; exact hops.2.2.1) hl (by rwa [hnr])

/-! ## Within capacity (R305) -/

/-- Two codewords that agree outside at most k positions are equal. -/
theorem eq_of_isCodeword {f : Field} {v w nr k : Nat} {J : Finset Nat} (hv : v < 2 ^ (nr * f.m)) (hw : w < 2 ^ (nr * f.m))
    (hvc : IsCodeword f v nr k) (hwc : IsCodeword f w nr k) (hJ : ∀ j ∈ J, j < f.n) (hcard : J.card ≤ k)
    (hagree : ∀ j, j ∉ J → slot f v j = slot f w j) : v = w := by
  have houtside (j : Nat) (hj : j ∉ J) : slot f (v ^^^ w) j = 0 := by
    rw [slot_xor, hagree j hj, Nat.xor_self]
  have hzero (i : Nat) (hi : i < k) : powerSum f J (fun j => embed f (slot f (v ^^^ w) j)) (i + 1) = 0 := by
    rw [← eval_wordPoly_alpha_pow houtside, wordPoly_xor, Polynomial.eval_add,
      (isCodeword_iff_eval hv).mp hvc (i + 1) i.succ_pos hi, (isCodeword_iff_eval hw).mp hwc (i + 1) i.succ_pos hi, add_zero]
  rw [← Nat.xor_eq_zero_iff]
  refine eq_of_slots f _ _ fun j => ?_
  rw [slot_zero]
  by_cases hj : j ∈ J
  · exact embed_slot_eq_zero_iff.mp (eq_zero_of_powerSum_eq_zero hJ hcard hzero hj)
  · exact houtside j hj

/-- The positions at which the received word a differs from the word c sent and which EM does not declare. -/
def errorsOf (f : Field) (a c em : Nat) : Finset Nat :=
  ((List.range f.n).filter fun j => slot f a j != slot f c j && !em.testBit j).toFinset

theorem card_errorsOf (f : Field) (a c em : Nat) :
    (errorsOf f a c em).card =
      ((List.range f.n).filter fun j => slot f a j != slot f c j && !em.testBit j).length :=
  List.toFinset_card_of_nodup (List.nodup_range.filter _)

theorem mem_errorsOf {f : Field} {a c em j : Nat} :
    j ∈ errorsOf f a c em ↔ j < f.n ∧ slot f a j ≠ slot f c j ∧ em.testBit j = false := by
  rw [errorsOf, List.mem_toFinset, List.mem_filter, List.mem_range, Bool.and_eq_true, bne_iff_ne, Bool.not_eq_true']

/-- A received word within capacity of the codeword c: R305's hypotheses. -/
structure WithinCapacity (f : Field) (a c nr k em tm : Nat) : Prop where
  passes : PassesStageOne f nr k em
  received_lt : a < 2 ^ (nr * f.m)
  sent_lt : c < 2 ^ (nr * f.m)
  isCodeword : IsCodeword f c nr k
  eligible : ∀ j : Nat, slot f a j ≠ slot f c j → em.testBit j = false → tm.testBit j = true
  capacity : popcount em + 2 * (errorsOf f a c em).card ≤ k

section
variable {f : Field} {a c nr k em tm : Nat}

theorem disjoint_erasures_errors (f : Field) (a c em : Nat) :
    Disjoint (positionsBelow em f.n) (errorsOf f a c em) := by
  rw [Finset.disjoint_left]
  intro j hem herr
  obtain ⟨-, -, hnot⟩ := mem_errorsOf.mp herr
  rw [(mem_positionsBelow.mp hem).2] at hnot
  exact Bool.noConfusion hnot

/-- All positions that may differ. -/
def errataOf (f : Field) (a c em : Nat) : Finset Nat := positionsBelow em f.n ∪ errorsOf f a c em

theorem lt_of_mem_errataOf {j : Nat} (hj : j ∈ errataOf f a c em) : j < f.n := by
  obtain hem | herr := Finset.mem_union.mp hj
  · exact mem_block_of_mem_positionsBelow hem
  · exact (mem_errorsOf.mp herr).1

theorem lt_of_mem_errorsOf {j : Nat} (hj : j ∈ errorsOf f a c em) : j < f.n := (mem_errorsOf.mp hj).1

theorem WithinCapacity.card_errata (h : WithinCapacity f a c nr k em tm) :
    (errataOf f a c em).card = popcount em + (errorsOf f a c em).card := by
  rw [errataOf, Finset.card_union_of_disjoint (disjoint_erasures_errors f a c em), h.passes.card_erasures]

theorem WithinCapacity.card_errata_le (h : WithinCapacity f a c nr k em tm) : (errataOf f a c em).card ≤ k := by
  have hcapacity := h.capacity
  rw [h.card_errata]
  omega

theorem locator_errataOf (f : Field) (a c em : Nat) :
    locator f (errataOf f a c em) = locator f (errorsOf f a c em) * locator f (positionsBelow em f.n) := by
  rw [mul_comm, errataOf, locator, locator, locator, Finset.prod_union (disjoint_erasures_errors f a c em)]

/-- Both words are 0 from slot n_r on, so they differ inside the received word alone. -/
theorem WithinCapacity.lt_nr (h : WithinCapacity f a c nr k em tm) {j : Nat} (hne : slot f a j ≠ slot f c j) : j < nr := by
  by_contra hle
  have hj := Nat.le_of_not_lt hle
  rw [(lt_two_pow_iff_slots f a nr).mp h.received_lt j hj, (lt_two_pow_iff_slots f c nr).mp h.sent_lt j hj] at hne
  exact hne rfl

theorem WithinCapacity.slot_eq (h : WithinCapacity f a c nr k em tm) {j : Nat} (hj : j ∉ errataOf f a c em) :
    slot f a j = slot f c j := by
  by_contra hne
  have hjn : j < f.n := (h.lt_nr hne).trans_le h.passes.nr_le
  rw [errataOf, Finset.mem_union, not_or, mem_positionsBelow, mem_errorsOf] at hj
  cases hbit : em.testBit j with
  | true => exact hj.1 ⟨hjn, hbit⟩
  | false => exact hj.2 ⟨hjn, hne, hbit⟩

/-- The value of the erratum at position j. -/
noncomputable def erratum (f : Field) (a c j : Nat) : Closure := embed f (slot f (a ^^^ c) j)

theorem erratum_ne_zero {j : Nat} (hne : slot f a j ≠ slot f c j) : erratum f a c j ≠ 0 := by
  rw [erratum, ne_eq, embed_slot_eq_zero_iff, slot_xor, Nat.xor_eq_zero_iff]
  exact hne

/-- The syndromes are the power sums of the errata. -/
theorem WithinCapacity.coeff_syndrome (h : WithinCapacity f a c nr k em tm) {i : Nat} (hi : i < k) :
    (wordPoly f (syndrome f a nr k)).coeff i = powerSum f (errataOf f a c em) (erratum f a c) (i + 1) := by
  have houtside (j : Nat) (hj : j ∉ errataOf f a c em) : slot f (a ^^^ c) j = 0 := by
    rw [slot_xor, h.slot_eq hj, Nat.xor_self]
  have hsent := (isCodeword_iff_eval h.sent_lt).mp h.isCodeword (i + 1) i.succ_pos hi
  have heval := eval_wordPoly_alpha_pow houtside (i + 1)
  rw [wordPoly_xor, Polynomial.eval_add, hsent, add_zero] at heval
  rw [Sys2Proof.Proofs.coeff_syndrome h.passes.isCount h.received_lt hi, heval]
  rfl

/-- The key equation of the errata. -/
theorem WithinCapacity.key_equation (h : WithinCapacity f a c nr k em tm) :
    X ^ k ∣ locator f (errorsOf f a c em) * locator f (positionsBelow em f.n) * wordPoly f (syndrome f a nr k) -
      errataPoly f (errataOf f a c em) (erratum f a c) := by
  rw [← locator_errataOf]
  exact X_pow_dvd_locator_mul_sub fun i => h.coeff_syndrome

/-- The errors give a recurrence of their number, so the shortest one is no longer. -/
theorem WithinCapacity.len_le (h : WithinCapacity f a c nr k em tm) :
    (bmOf f (syndrome f a nr k) k em).len ≤ (errorsOf f a c em).card := by
  have hzero : (locator f (errorsOf f a c em)).coeff 0 = 1 := by
    rw [Polynomial.coeff_zero_eq_eval_zero, eval_locator_zero]
  refine (h.passes.bmInv _).shortest _ _
    ((connects_forneySyndromes_iff h.passes hzero (natDegree_locator f _).le).mpr fun n hn hnk => ?_)
  rw [X_pow_dvd_sub_iff.mp h.key_equation n hnk]
  refine (Polynomial.degree_lt_iff_coeff_zero _ _).mp (degree_errataPoly_lt f _ _) n ?_
  rwa [h.card_errata]

theorem degree_mul_lt {P Q : Closure[X]} {p q k : Nat} (hP : P.natDegree ≤ p) (hQ : Q.degree < q) (hk : p + q ≤ k) :
    (P * Q).degree < k := by
  rw [Polynomial.degree_lt_iff_coeff_zero] at hQ ⊢
  intro n hn
  rw [Polynomial.coeff_mul]
  refine Finset.sum_eq_zero fun ij hij => ?_
  rw [Finset.HasAntidiagonal.mem_antidiagonal] at hij
  obtain hi | hi := Nat.lt_or_ge p ij.1
  · rw [Polynomial.coeff_eq_zero_of_natDegree_lt (hP.trans_lt hi), zero_mul]
  · rw [hQ ij.2 (by omega), mul_zero]

/-- Both key equations have all their degrees below k, so Λ vanishes at every error (R257). -/
theorem WithinCapacity.eval_lambda (h : WithinCapacity f a c nr k em tm) {j : Nat} (hj : j ∈ errorsOf f a c em) :
    (wordPoly f (bmOf f (syndrome f a nr k) k em).c).eval (position f j)⁻¹ = 0 := by
  set Lam := wordPoly f (bmOf f (syndrome f a nr k) k em).c with hLam
  have hcapacity := h.capacity
  have hlen := h.len_le
  have hdeg := (h.passes.bmInv (syndrome f a nr k)).connects.natDegree_le
  obtain ⟨A, hA, hAS⟩ := exists_degree_lt_of_coeff (k := k)
    fun n hn => h.passes.coeff_lambda_gamma_syndrome (syndrome f a nr k) hn
  have hboth : X ^ k ∣ locator f (errorsOf f a c em) * A -
      Lam * errataPoly f (errataOf f a c em) (erratum f a c) := by
    have hsum := dvd_add (hAS.mul_left (locator f (errorsOf f a c em))) (h.key_equation.mul_left Lam)
    convert hsum using 1
    ring
  have hequal : locator f (errorsOf f a c em) * A = Lam * errataPoly f (errataOf f a c em) (erratum f a c) := by
    refine eq_of_X_pow_dvd_sub hboth (degree_mul_lt (natDegree_locator f _).le hA (by omega)) ?_
    refine degree_mul_lt hdeg (degree_errataPoly_lt f _ _) ?_
    rw [h.card_errata]
    omega
  have hroot : (locator f (errorsOf f a c em)).eval (position f j)⁻¹ = 0 :=
    (eval_locator_eq_zero_iff (fun i => lt_of_mem_errorsOf) (lt_of_mem_errorsOf hj)).mpr hj
  have hmem : j ∈ errataOf f a c em := Finset.mem_union_right _ hj
  have heval := congrArg (Polynomial.eval (position f j)⁻¹) hequal
  rw [Polynomial.eval_mul, Polynomial.eval_mul, hroot, zero_mul,
    eval_errataPoly (fun i => lt_of_mem_errataOf) hmem] at heval
  refine (mul_eq_zero.mp heval.symm).resolve_right (mul_ne_zero ?_ ?_)
  · exact erratum_ne_zero (mem_errorsOf.mp hj).2.1
  · exact eval_derivative_locator_ne_zero (fun i => lt_of_mem_errataOf) hmem

theorem WithinCapacity.wordPoly_lambda (h : WithinCapacity f a c nr k em tm) :
    wordPoly f (bmOf f (syndrome f a nr k) k em).c = locator f (errorsOf f a c em) := by
  have hconnects := (h.passes.bmInv (syndrome f a nr k)).connects
  exact eq_locator_of_roots (fun j => lt_of_mem_errorsOf) hconnects.coeff_zero (hconnects.natDegree_le.trans h.len_le)
    fun j => h.eval_lambda

theorem WithinCapacity.len_eq (h : WithinCapacity f a c nr k em tm) :
    (bmOf f (syndrome f a nr k) k em).len = (errorsOf f a c em).card := by
  have hdeg := (h.passes.bmInv (syndrome f a nr k)).connects.natDegree_le
  rw [h.wordPoly_lambda, natDegree_locator] at hdeg
  exact le_antisymm h.len_le hdeg

/-- The search finds the errors: they are inside the received word and eligible, and Λ has no other roots. -/
theorem WithinCapacity.found_eq (h : WithinCapacity f a c nr k em tm) :
    positionsBelow (foundOf f (syndrome f a nr k) nr k em tm) f.n = errorsOf f a c em := by
  ext j
  rw [mem_found_iff h.passes, h.wordPoly_lambda]
  constructor
  · rintro ⟨hj, -, -, hroot⟩
    exact (eval_locator_eq_zero_iff (fun i => lt_of_mem_errorsOf) (hj.trans_le h.passes.nr_le)).mp hroot
  · intro hj
    obtain ⟨hjn, hne, hem⟩ := mem_errorsOf.mp hj
    exact ⟨h.lt_nr hne, h.eligible j hne hem, hem,
      (eval_locator_eq_zero_iff (fun i => lt_of_mem_errorsOf) hjn).mpr hj⟩

theorem WithinCapacity.located (h : WithinCapacity f a c nr k em tm) : Located f (syndrome f a nr k) nr k em tm := by
  have hcapacity := h.capacity
  refine ⟨?_, ?_⟩
  · rw [h.len_eq]
    omega
  · rw [← card_found h.passes, h.found_eq, h.len_eq]

/-- The corrected word and the word sent are codewords that agree outside the errata. -/
theorem WithinCapacity.corrected_eq (h : WithinCapacity f a c nr k em tm)
    (hy : a ^^^ correctionOf f (syndrome f a nr k) nr k em tm < 2 ^ (nr * f.m)) :
    a ^^^ correctionOf f (syndrome f a nr k) nr k em tm = c := by
  have hpositions : positionsBelow (combOf f (syndrome f a nr k) nr k em tm) f.n = errataOf f a c em := by
    rw [combOf, positionsBelow_or, h.found_eq, errataOf]
  refine eq_of_isCodeword hy h.sent_lt (isCodeword_corrected h.passes h.received_lt h.located hy) h.isCodeword
    (fun j => lt_of_mem_errataOf) h.card_errata_le fun j hj => ?_
  have hbit : ¬(combOf f (syndrome f a nr k) nr k em tm).testBit j = true := by
    intro hbit
    have hjn := (lt_of_testBit (combOf_lt h.passes _ tm) hbit).trans_le h.passes.nr_le
    exact hj (hpositions ▸ mem_positionsBelow.mpr ⟨hjn, hbit⟩)
  rw [slot_xor, slot_correctionOf_of_not_testBit h.passes hbit, Nat.xor_zero, h.slot_eq hj]

end

/-- Settles O60: with zero syndromes the received word is the codeword sent, and otherwise the stages find its errors. -/
theorem rsDecodeCorrectsWithinCapacity : Obligations.RsDecodeCorrectsWithinCapacity := by
  intro f s c hops hc hcode heligible hcapacity
  have hcard := card_errorsOf f s.ops.a.toNat c.toNat s.ops.em.toNat
  have hnr := div_mul_of_isReceivedSize hops.2.1
  have hrho : weight s.ops.em ≤ s.ops.k.toNat := (Nat.le_add_right _ _).trans hcapacity
  have hwithin : WithinCapacity f s.ops.a.toNat c.toNat (s.ops.sza.toNat / f.m) s.ops.k.toNat s.ops.em.toNat
      s.ops.tm.toNat := by
    refine ⟨passesStageOne hops hrho, by rw [hnr]; exact hops.2.2.1, by rwa [hnr], hcode, heligible, ?_⟩
    rw [hcard, popcount_toNat]
    exact hcapacity
  by_cases hzero : synOf f s.ops = 0
  case pos =>
    have hreceived := (syndrome_eq_zero_iff hops.1 _ _).mp hzero
    have hsent : s.ops.a = c := BitVec.eq_of_toNat_eq
      (eq_of_isCodeword hwithin.received_lt hwithin.sent_lt hreceived hcode (fun j => lt_of_mem_errataOf)
        hwithin.card_errata_le fun j => hwithin.slot_eq)
    exact ⟨0#16, by rw [exec_rsDecode_of_isCodeword hops hrho hreceived, hsent]⟩
  case neg =>
    have hy := Nat.xor_lt_two_pow hops.2.2.1 (correctionOf_lt hops hrho (synOf f s.ops) s.ops.tm.toNat)
    have hresult := resultOf_rsDecode_of_located hops hrho hzero hwithin.located
    rw [synOf, hwithin.corrected_eq (by rw [hnr]; exact hy)] at hresult
    exact ⟨_, by rw [exec_of_result_okAux hresult, BitVec.ofNat_toNat, BitVec.setWidth_eq]⟩

end Sys2Proof.Proofs
end

section
/-! RS_DECODE against the stage commands (44_decoder_pipeline.md R307, 95_test_vectors.md P3): each command of the host's
sequence accepts what the ones before it gave, and gives what the pipeline computes. -/
namespace Sys2Proof.Proofs

open Sys2Proof.Machine Sys2Proof.Safety

/-! ## The registers after a command of the host -/

theorem ask_eq (i : Instr) (s : State) (o : OperandRegs) :
    ask i s o = ({ s with ops := o } : State).complete (resultOf i o) := by
  rw [ask, exec_eq]

@[simp] theorem ask_y (i : Instr) (s : State) (o : OperandRegs) : (ask i s o).y = (resultOf i o).y := by
  rw [ask_eq, State.complete_y]

@[simp] theorem ask_yaux (i : Instr) (s : State) (o : OperandRegs) : (ask i s o).yaux = (resultOf i o).yaux := by
  rw [ask_eq, State.complete_yaux]

section
variable {f : Field} {o : OperandRegs}

/-! ## The commands of the sequence -/

theorem resultOf_rsSyndrome_of_operands (hops : DecodeOperands f o) :
    resultOf (.rsSyndrome f) o = .okAux (synOf f o) (allZeroFlag (synOf f o)) :=
  (resultOf_rsSyndrome f o).trans (if_pos ⟨hops.1, hops.2.1, hops.2.2.1⟩)

theorem resultOf_rsErasloc_of_operands (hops : DecodeOperands f o) (hrho : weight o.em ≤ o.k.toNat) :
    resultOf (.rsErasloc f) o = .okAux (erasureLocator f o.em.toNat) (weight o.em) := by
  have hpasses := passesStageOne hops hrho
  have hslots := hpasses.rho_lt_slots
  rw [popcount_toNat] at hslots
  exact (resultOf_rsErasloc f o).trans (if_pos ⟨hpasses.em_lt_block, by omega⟩)

theorem isPacked_synOf (hops : DecodeOperands f o) : IsPacked f (synOf f o) :=
  isPacked_of_lt_two_pow (syndrome_lt f _ _ _) (count_lt_slots hops.1).le

theorem toNat_ofNat_synOf (hops : DecodeOperands f o) : (BitVec.ofNat 64 (synOf f o)).toNat = synOf f o :=
  toNat_ofNat_of_isPacked (isPacked_synOf hops)

/-- The Forney syndromes that stage 4 computes. -/
def forneySyndromesOf (f : Field) (o : OperandRegs) : Nat :=
  errataEvaluator f (synOf f o) (erasureLocator f o.em.toNat) o.k.toNat

theorem isPacked_gamma (hops : DecodeOperands f o) (hrho : weight o.em ≤ o.k.toNat) :
    IsPacked f (erasureLocator f o.em.toNat) :=
  isPacked_erasureLocator (passesStageOne hops hrho).em_lt_block (passesStageOne hops hrho).rho_lt_slots

theorem resultOf_rsFsynd_of_operands (hops : DecodeOperands f o) (hrho : weight o.em ≤ o.k.toNat) :
    resultOf (.rsFsynd f)
        { o with a := BitVec.ofNat 64 (synOf f o), b := BitVec.ofNat 64 (erasureLocator f o.em.toNat) } =
      .ok (forneySyndromesOf f o) := by
  have hgamma := isPacked_gamma hops hrho
  rw [resultOf_rsFsynd]
  dsimp only
  rw [toNat_ofNat_synOf hops, toNat_ofNat_of_isPacked hgamma, if_pos ⟨hops.1, isPacked_synOf hops, hgamma⟩]
  rfl

theorem isPacked_forneySyndromesOf (hops : DecodeOperands f o) : IsPacked f (forneySyndromesOf f o) :=
  isPacked_of_lt_two_pow (errataEvaluator_lt f _ _ _) (count_lt_slots hops.1).le

/-- Its YAUX has L in the low octet. -/
theorem resultOf_rsBm_of_operands (hops : DecodeOperands f o) (hrho : weight o.em ≤ o.k.toNat) :
    ∃ aux : Nat, resultOf (.rsBm f) { o with a := BitVec.ofNat 64 (forneySyndromesOf f o) } =
        .okAux (bmOf f (synOf f o) o.k.toNat o.em.toNat).c aux ∧
      (BitVec.ofNat 16 aux).toNat % 256 = (bmOf f (synOf f o) o.k.toNat o.em.toNat).len := by
  have hpasses := passesStageOne hops hrho
  have hpacked := isPacked_forneySyndromesOf hops
  obtain ⟨d, hdeg, hd, -⟩ := exists_deg_bmRun hops.1 (forneySyndromesOf f o) (weight o.em)
  have hlen := len_bmRun_le hops.1 (forneySyndromesOf f o) (weight o.em)
  have hslots := count_lt_slots hops.1
  have h256 := slots_lt_256 f
  have hbm : bmOf f (synOf f o) o.k.toNat o.em.toNat = bmRun f (forneySyndromesOf f o) o.k.toNat (weight o.em) := by
    rw [bmOf, popcount_toNat]
    rfl
  rw [hbm]
  refine ⟨(bmRun f (forneySyndromesOf f o) o.k.toNat (weight o.em)).len + 256 * d, ?_, ?_⟩
  · rw [resultOf_rsBm]
    dsimp only
    rw [toNat_ofNat_of_isPacked hpacked, if_pos ⟨hops.1, hpacked, hpasses.em_lt_block, hrho⟩, hdeg, Option.getD_some,
      bmAux_eq (by omega) (by omega)]
  · rw [BitVec.toNat_ofNat]
    omega

theorem resultOf_rsChien_of_operands (hops : DecodeOperands f o) (hrho : weight o.em ≤ o.k.toNat) :
    resultOf (.rsChien f) { o with a := BitVec.ofNat 64 (bmOf f (synOf f o) o.k.toNat o.em.toNat).c } =
      .okAux (foundOf f (synOf f o) (o.sza.toNat / f.m) o.k.toNat o.em.toNat o.tm.toNat)
        (popcount (foundOf f (synOf f o) (o.sza.toNat / f.m) o.k.toNat o.em.toNat o.tm.toNat)) := by
  have hpacked := (passesStageOne hops hrho).isPacked_lambda (synOf f o)
  obtain ⟨-, hsize, -, hem, htm⟩ := hops
  rw [resultOf_rsChien]
  dsimp only
  rw [toNat_ofNat_of_isPacked hpacked, if_pos ⟨hpacked, hsize, hem, htm⟩]
  rfl

theorem resultOf_pMul_of_located (hops : DecodeOperands f o) (hrho : weight o.em ≤ o.k.toNat)
    (hl : Located f (synOf f o) (o.sza.toNat / f.m) o.k.toNat o.em.toNat o.tm.toNat) :
    resultOf (.pMul f)
        { o with
          a := BitVec.ofNat 64 (bmOf f (synOf f o) o.k.toNat o.em.toNat).c
          b := BitVec.ofNat 64 (erasureLocator f o.em.toNat) } =
      .ok (psiOf f (synOf f o) o.k.toNat o.em.toNat) := by
  have hlambda := (passesStageOne hops hrho).isPacked_lambda (synOf f o)
  have hgamma := isPacked_gamma hops hrho
  have hpsi : IsPacked f (prod f _ _) := isPacked_psi (passesStageOne hops hrho) hl
  rw [resultOf_pMul]
  dsimp only
  rw [toNat_ofNat_of_isPacked hlambda, toNat_ofNat_of_isPacked hgamma, if_pos ⟨hlambda, hgamma⟩,
    fitOrFail_of_isPacked hpsi]
  rfl

/-- The combined mask as the host forms it. -/
theorem toNat_hostMask (hops : DecodeOperands f o) :
    (o.em ||| (BitVec.ofNat 64
        (foundOf f (synOf f o) (o.sza.toNat / f.m) o.k.toNat o.em.toNat o.tm.toNat)).setWidth 16).toNat =
      combOf f (synOf f o) (o.sza.toNat / f.m) o.k.toNat o.em.toNat o.tm.toNat := by
  have hfound := (foundOf_lt f (synOf f o) (o.sza.toNat / f.m) o.k.toNat o.em.toNat o.tm.toNat).trans_le
    (two_pow_le_sixteen hops.2.1)
  rw [BitVec.toNat_or, BitVec.toNat_setWidth, BitVec.toNat_ofNat, Nat.mod_eq_of_lt (hfound.trans (by decide)),
    Nat.mod_eq_of_lt hfound, combOf]

theorem hostMask_eq (hops : DecodeOperands f o) :
    o.em ||| (BitVec.ofNat 64
        (foundOf f (synOf f o) (o.sza.toNat / f.m) o.k.toNat o.em.toNat o.tm.toNat)).setWidth 16 =
      BitVec.ofNat 16 (combOf f (synOf f o) (o.sza.toNat / f.m) o.k.toNat o.em.toNat o.tm.toNat) := by
  rw [← toNat_hostMask hops, BitVec.ofNat_toNat, BitVec.setWidth_eq]

theorem resultOf_rsForney_of_located (hops : DecodeOperands f o) (hrho : weight o.em ≤ o.k.toNat)
    (hl : Located f (synOf f o) (o.sza.toNat / f.m) o.k.toNat o.em.toNat o.tm.toNat) :
    resultOf (.rsForney f)
        { o with
          a := BitVec.ofNat 64 (synOf f o)
          b := BitVec.ofNat 64 (psiOf f (synOf f o) o.k.toNat o.em.toNat)
          em := o.em ||| (BitVec.ofNat 64
            (foundOf f (synOf f o) (o.sza.toNat / f.m) o.k.toNat o.em.toNat o.tm.toNat)).setWidth 16 } =
      .ok (correctionOf f (synOf f o) (o.sza.toNat / f.m) o.k.toNat o.em.toNat o.tm.toNat) := by
  have hpasses := passesStageOne hops hrho
  have hpsi := isPacked_psi hpasses hl
  rw [resultOf_rsForney]
  dsimp only
  rw [toNat_ofNat_synOf hops, toNat_ofNat_of_isPacked hpsi, toNat_hostMask hops,
    if_pos ⟨hops.1, isPacked_synOf hops, hpsi, hops.2.1, combOf_lt hpasses _ _⟩,
    forney_eq_some fun j => denominator_ne_zero hpasses hl, Option.elim_some]
  rfl

end

/-! ## The sequence -/

theorem getLsbD_allZeroFlag (syn : Nat) : (BitVec.ofNat 16 (allZeroFlag syn)).getLsbD 0 = decide (syn = 0) := by
  rw [allZeroFlag]
  split_ifs with h <;> simp [h]

theorem toNat_ofNat_popcount (v : Nat) : (BitVec.ofNat 16 (popcount v)).toNat = popcount v :=
  (BitVec.toNat_ofNat _ 16).trans (Nat.mod_eq_of_lt ((onesBelow_le v 16).trans_lt (by decide)))

/-- The host's sequence, with the results of its commands filled in. -/
theorem hostDecode_eq {f : Field} {s : State} (hops : DecodeOperands f s.ops) :
    hostDecode f s = ((resultOf (.rsDecode f) s.ops).status, (resultOf (.rsDecode f) s.ops).y,
      (resultOf (.rsDecode f) s.ops).yaux) := by
  obtain hrho | hrho := Nat.lt_or_ge s.ops.k.toNat (weight s.ops.em)
  · rw [resultOf_rsDecode_of_beyond hops hrho, hostDecode, if_pos hrho]
    rfl
  · obtain ⟨aux, hbm, haux⟩ := resultOf_rsBm_of_operands hops hrho
    rw [hostDecode]
    simp only [ask_y, ask_yaux, resultOf_rsSyndrome_of_operands hops, resultOf_rsErasloc_of_operands hops hrho,
      Result.okAux_y, Result.okAux_yaux, resultOf_rsFsynd_of_operands hops hrho, Result.ok_y, hbm, haux,
      resultOf_rsChien_of_operands hops hrho, getLsbD_allZeroFlag, decide_eq_true_eq,
      toNat_ofNat_popcount, if_neg (Nat.not_lt.mpr hrho)]
    rw [resultOf_rsDecode_of_within hops hrho]
    split_ifs with hzero hbound hcount
    · simp
    · rfl
    · rfl
    · have hl : Located f (synOf f s.ops) (s.ops.sza.toNat / f.m) s.ops.k.toNat s.ops.em.toNat s.ops.tm.toNat :=
        ⟨by rw [popcount_toNat]; exact Nat.le_of_not_lt hbound, not_not.mp hcount⟩
      rw [resultOf_pMul_of_located hops hrho hl, Result.ok_y, resultOf_rsForney_of_located hops hrho hl, Result.ok_y,
        hostMask_eq hops, Result.okAux_y, BitVec.ofNat_xor, BitVec.ofNat_toNat, BitVec.setWidth_eq]
      rfl

/-- Settles O58: the host compares what the pipeline compares, and the two give the same. -/
theorem rsDecodeEqualsTheStageCommands : Obligations.RsDecodeEqualsTheStageCommands := by
  intro f s hops
  rw [hostDecode_eq hops]
  exact exec_eq_completed (.rsDecode f) s

end Sys2Proof.Proofs
end
